-- ==== Sys2Proof/Word.lean ====
section
/-! DEFINITION. The word types of the block: 32-bit host words, bytes and addresses. -/

namespace Sys2Proof

/-- A host register, a command word or a symbol word: 32 bits (10_state R20, 30_encoding R90, R100). A sequence number
too: `SEQ_W` = 32 (00_scope R8). -/
abbrev Word := BitVec 32

/-- An element of a byte buffer (20_memory R61). -/
abbrev Byte := BitVec 8

/-- A byte address of the host address space, 0x0000 to 0xFFFF (20_memory R60). -/
abbrev Addr := BitVec 16

end Sys2Proof
end

