-- ==== Sys2Proof/Config.lean ====
section
/-! DEFINITION. The constants and the parameters of 00_scope R8 (log 6), and the free value of the model, the contents
of the buffers after power-on reset (70_reset R282, log 3). -/

namespace Sys2Proof.Config

/-! ### The values R8 marks as the source's: fixed -/

/-- Nominal leader durations, in time units (R8, 30_encoding R101). -/
abbrev leaderAct : Nat := 9000
abbrev leaderIdle : Nat := 4500

/-- Nominal bit-0 durations (R8, R101). -/
abbrev bit0Act : Nat := 560
abbrev bit0Idle : Nat := 560

/-- Nominal bit-1 durations (R8, R101). -/
abbrev bit1Act : Nat := 560
abbrev bit1Idle : Nat := 1690

/-- Nominal active duration of the ending; its idle has no nominal (R8, R101). -/
abbrev endAct : Nat := 560

/-- `MARGIN_DEFAULT`, the recommended margin in time units (R8, 70_reset R284). -/
abbrev marginDefault : Nat := 200

/-- `SHOT_LEN`, `SHOT_HDR0`, `SHOT_HDR1`, `SHOT_VER` (R8, 30_encoding R108). -/
abbrev shotLen : Nat := 7
abbrev shotHdr0 : Byte := 0x4C
abbrev shotHdr1 : Byte := 0x54
abbrev shotVer : Byte := 0x00

/-! ### The values R8 marks with a decision: named arguments, with the stated defaults -/

/-- The parameters of an instance of the block (00_scope R8, 10_state R41). `{}` is the instance the spec describes. -/
structure Params where
  /-- `REF_RATE`, time units per second (R8, 90_conflicts C4). -/
  refRate : Nat := 1000000
  /-- `DUR_W`, the width of each duration field of a symbol word, in bits (R8). -/
  durW : Nat := 16
  /-- `ENDING_IDLE`, the idle duration the encoder writes for the ending symbol; `DUR_MAX` by default (R8, 30_encoding
  R103). -/
  endingIdle : Nat := 2 ^ durW - 1
  /-- `PAYLOAD_MAX`, bytes of the PAYLOAD buffer (R8). -/
  payloadMax : Nat := 256
  /-- `DEST_MAX`, bytes of the DEST buffer (R8). -/
  destMax : Nat := 256
  /-- `TXSYM_MAX`, symbols of the TXSYM buffer (R8). -/
  txsymMax : Nat := 128
  /-- `RXSYM_MAX`, symbols of the RXSYM buffer (R8, R9). -/
  rxsymMax : Nat := 128
  deriving DecidableEq, Repr

/-- `DUR_MAX`, the largest duration a symbol field holds, `2^DUR_W - 1` (R8). -/
def Params.durMax (p : Params) : Nat := 2 ^ p.durW - 1

/-- Parameters an instance can have (log 6): the reference rate is positive (40_timing R121 divides by it), two duration
fields fit a symbol word, the ending's idle fits a field, each buffer fits between its base and the next buffer's in the
map of 20_memory R62 in whole host words, a shot frame fits PAYLOAD (43_shot R211), and RXSYM holds at least the 58
symbols of a shot frame (R9). -/
def Params.wf (p : Params) : Bool :=
  1 ≤ p.refRate && 1 ≤ p.durW && p.durW ≤ 16 && p.endingIdle ≤ p.durMax &&
    (shotLen ≤ p.payloadMax && p.payloadMax ≤ 0x400 && p.payloadMax % 4 == 0) &&
    (p.destMax ≤ 0x800 && p.destMax % 4 == 0) && (1 ≤ p.txsymMax && p.txsymMax ≤ 0x400) &&
    (58 ≤ p.rxsymMax && p.rxsymMax ≤ 0x3800)

/-- DESIGN CHOICE (log 3): the free value of 70_reset R282 and 93 I27. `porByte n a` is what the buffer byte at block
address `a` holds after the `n`-th power-on reset and until it is written. It has no body, so nothing can be proved of
it: every statement holds for every draw. -/
opaque porByte : Nat → Nat → Byte

end Sys2Proof.Config
end

