-- ==== Sys2Proof/Syntax.lean ====
section
/-! DEFINITION. The syntax of the block's host interface: the five commands (one constructor per row of
spec/opcode_table.json), the host-visible registers, the host's accesses, and the host statements of 30_encoding R96,
R97. -/

namespace Sys2Proof

/-- The commands of 30_encoding R91. A command word has no operand field: operands are ARG0 and ARG1 (R93). -/
inductive Instr where
  | chanInit      -- CHAN_INIT
  | encode        -- ENCODE
  | decode        -- DECODE
  | shotBuild     -- SHOT_BUILD
  | shotClassify  -- SHOT_CLASSIFY
  deriving DecidableEq, Repr

/-- The host-visible registers of 10_state R20, in the order of their offsets. -/
inductive Reg where
  | cmd | arg0 | arg1 | res0 | res1 | status | cfgState | cfgRes | cfgMargin | ttLeader | ttBit0 | ttBit1 | ttEnding
  | ttMargin | encState | seqTx | seqNext | decResult
  deriving DecidableEq, Repr

/-- What the environment can do to the block: the host accesses `MemRead(addr, n)` and `MemWrite(addr, n, v)` of
20_memory R66, `n` in bytes, and the application of power, which is POR (70_reset R280; log 1, log 5). -/
inductive HostAccess where
  | read (n : Nat) (addr : Addr)
  | write (n : Nat) (addr : Addr) (v : Word)
  | powerOn
  deriving DecidableEq, Repr

/-- The host statements of 30_encoding R96 and the pseudo-instructions of R97. -/
inductive Stmt where
  | wr (r : Reg) (v : Word)
  | rd (r : Reg)
  | wrw (addr : Addr) (v : Word)
  | rdw (addr : Addr)
  | command (i : Instr)
  | init (r m : Word)
  | enc (l c : Word)
  | dec (n c : Word)
  | shot
  | classify
  | loadpay (bytes : List Byte)
  | loadrx (symbols : List Word)
  deriving DecidableEq, Repr

end Sys2Proof
end

