-- ==== Sys2Proof/WellFormed.lean ====
section
/-! DEFINITION. Well-formed commands, host accesses and host statements. -/

namespace Sys2Proof

/-- Every command is well formed: a command word has no operand field (30_encoding R90, R93), so a constructor of
`Instr` has nothing that could be out of range. -/
def Instr.wf : Instr → Bool
  | .chanInit => true
  | .encode => true
  | .decode => true
  | .shotBuild => true
  | .shotClassify => true

/-- The checks of 20_memory R67 that need no address map: the width is 32 bits and the address a multiple of 4. -/
def HostAccess.wf : HostAccess → Bool
  | .read n a => n == 4 && a.toNat % 4 == 0
  | .write n a _ => n == 4 && a.toNat % 4 == 0
  | .powerOn => true

/-- A buffer address of 20_memory R62 in an instance with parameters `p`, where a WRW or RDW may go (30_encoding R96). -/
def bufferWordAddr (a : Addr) (p : Config.Params := {}) : Bool :=
  a.toNat % 4 == 0 &&
    ((0x0400 ≤ a.toNat && a.toNat < 0x0400 + p.payloadMax) || (0x0800 ≤ a.toNat && a.toNat < 0x0800 + p.destMax) ||
      (0x1000 ≤ a.toNat && a.toNat < 0x1000 + 4 * p.txsymMax) || (0x2000 ≤ a.toNat && a.toNat < 0x2000 +
          4 * p.rxsymMax))

/-- A host statement that means something to an instance with parameters `p`: WRW and RDW go to a buffer word
(30_encoding R96), LOADPAY has 1 to `PAYLOAD_MAX` bytes and LOADRX 1 to `RXSYM_MAX` words (R97, whose lists run from
index 0 to k). -/
def Stmt.wf (st : Stmt) (p : Config.Params := {}) : Bool :=
  match st with
  | .wr _ _ => true
  | .rd _ => true
  | .wrw a _ => bufferWordAddr a p
  | .rdw a => bufferWordAddr a p
  | .command i => i.wf
  | .init _ _ => true
  | .enc _ _ => true
  | .dec _ _ => true
  | .shot => true
  | .classify => true
  | .loadpay bs => 1 ≤ bs.length && bs.length ≤ p.payloadMax
  | .loadrx ss => 1 ≤ ss.length && ss.length ≤ p.rxsymMax

end Sys2Proof
end

