-- ==== Sys2Proof/Decode.lean ====
section
/-! DEFINITION. Command words: the decoder, total on every 32-bit word and rejecting by name, and the encoder
(30_encoding R90 to R92, R95). -/

namespace Sys2Proof

/-- The field OP of a command word, bits 7:0 (30_encoding R90). -/
def opField (w : Word) : Byte := w.extractLsb' 0 8

/-- The field RSVD of a command word, bits 31:8 (30_encoding R90). -/
def rsvdField (w : Word) : BitVec 24 := w.extractLsb' 8 24

/-- Why a command word is illegal (30_encoding R92). -/
inductive DecodeError where
  /-- bits 31:8 are not all 0 -/
  | reservedBits
  /-- OP is 0x00 or lies in 0x06 to 0xFF -/
  | undefinedOp
  deriving DecidableEq, Repr

/-- The decoder of 30_encoding R91, R92 and R95: it reads `w[7:0]` after checking `w[31:8] = 0`. -/
def decodeCommand (w : Word) : Except DecodeError Instr :=
  if rsvdField w ≠ 0 then .error .reservedBits
  else
    match (opField w).toNat with
    | 0x01 => .ok .chanInit
    | 0x02 => .ok .encode
    | 0x03 => .ok .decode
    | 0x04 => .ok .shotBuild
    | 0x05 => .ok .shotClassify
    | _ => .error .undefinedOp

/-- The operation codes of 30_encoding R91. -/
def Instr.opcode : Instr → Byte
  | .chanInit => 0x01
  | .encode => 0x02
  | .decode => 0x03
  | .shotBuild => 0x04
  | .shotClassify => 0x05

/-- The encoder: the full word of a command is `0x000000OP` (30_encoding R91). -/
def encodeCommand (i : Instr) : Word := i.opcode.zeroExtend 32

/-- The command word whose bits are `w`, from `nbits` bits of the opcode table: bits above `nbits` are 0. Bits beyond
the 32 of a command word are no command. -/
def commandOfBits (nbits w : Nat) : Option Word :=
  if w % 2 ^ nbits < 2 ^ 32 then some (BitVec.ofNat 32 (w % 2 ^ nbits)) else none

/-- What the decoder reads from an instruction whose bits are `w`, numbered as spec/opcode_table.json numbers them: one
32-bit word, bit 0 its least significant bit. -/
def decodeTableWord (nbits w : Nat) : Option Instr :=
  match commandOfBits nbits w with
  | none => none
  | some c =>
    match decodeCommand c with
    | .ok i => some i
    | .error _ => none

end Sys2Proof
end

