-- ==== Sys2Proof/Machine/State.lean ====
section
/-! DEFINITION. The state of the block as plain data, the reasons a step can stop, and the state after power-on reset
(10_state R20 to R42, 20_memory R61, 70_reset R280). -/

namespace Sys2Proof.Machine

/-- The phase of the EncodeSession, three-valued as 10_state R31 asks. -/
inductive Phase where
  | leader | data | ending
  deriving DecidableEq, Repr

/-- The status codes of 60_exceptions R240; the codes 0xE and 0xF are never written (93 I25). -/
inductive StatusCode where
  | ok | starved | emptyFrame | timingViolation | framingLeader | framingEnding | framingShort | framingLength
  | destTooSmall | configInvalid | notInit | alreadyInit | illegalCommand | argRange
  deriving DecidableEq, Repr

/-- The result of a SHOT_CLASSIFY (43_shot R222). -/
inductive ShotClass where
  | notShot | hit | miss
  deriving DecidableEq, Repr

/-- A duration field of a table register or a symbol word, in ticks: `DUR_W` bits (00_scope R8, 10_state R41). -/
abbrev Duration (cfg : Config.Params) : Type := BitVec cfg.durW

/-- The timing table: the nominal durations the TT_* registers hold, in ticks, and the margin (10_state R34, R41).
TT_ENDING's idle field holds no state of its own (log 8). -/
structure TimingTable (cfg : Config.Params) where
  leaderAct : Duration cfg
  leaderIdle : Duration cfg
  bit0Act : Duration cfg
  bit0Idle : Duration cfg
  bit1Act : Duration cfg
  bit1Idle : Duration cfg
  endAct : Duration cfg
  margin : Word
  deriving DecidableEq, Repr

/-- ENC_STATE, the EncodeSession: PHASE, PCUR and BCUR, each in the bounds of 10_state R41 (R30, R32). -/
structure EncodeSession (cfg : Config.Params) where
  phase : Phase
  pcur : Fin (cfg.payloadMax + 1)
  bcur : Fin 8
  deriving DecidableEq, Repr

/-- DEC_RESULT, the DecodeOutcome: DEC_COUNT, DEC_CODE and DEC_FRESH, each in the bounds of 10_state R41 (R37). -/
structure DecodeOutcome (cfg : Config.Params) where
  count : Fin (cfg.destMax + 1)
  code : StatusCode
  fresh : Bool
  deriving DecidableEq, Repr

/-- The four buffers of 20_memory R61 at their block addresses (R62), one (address, byte) pair for each byte written
since the last POR. An address that is not listed has not been written since then (log 3). -/
abbrev Memory := List Host.Cell

/-- The block with parameters `cfg`: the record of 10_state R41, every field's type bounded as R41 shows, with the
parameters of 00_scope R8 as its arguments. Every piece is a register of R20 or a buffer of 20_memory R61 (R39); the
last three fields are the model's own. -/
structure Block (cfg : Config.Params) where
  /-- ARG0 (R23) and ARG1 (R24), the operands. -/
  arg0 : Word
  arg1 : Word
  /-- RES0 (R25) and RES1 (R26), the results. -/
  res0 : Word
  res1 : Word
  /-- STATUS.CODE and STATUS.LAST_OP (R27). -/
  code : StatusCode
  lastOp : Byte
  /-- CFG_STATE.TT_VALID (R29). -/
  ttValid : Bool
  /-- CFG_RES and CFG_MARGIN (R33). -/
  cfgRes : Word
  cfgMargin : Word
  /-- The TT_* registers (R34). -/
  tt : TimingTable cfg
  /-- ENC_STATE (R30). -/
  session : EncodeSession cfg
  /-- SEQ_TX (R35) and SEQ_NEXT (R36). -/
  seqTx : Word
  seqNext : Word
  /-- DEC_RESULT (R37). -/
  dec : DecodeOutcome cfg
  /-- PAYLOAD, DEST, TXSYM and RXSYM (20_memory R61, R62). -/
  mem : Memory
  /-- The model's own (log 3): which draw of the free buffer contents is in force. -/
  porDraw : Nat
  /-- The model's own (log 2): the word the last completed host read returned. -/
  hostData : Option Word
  /-- The model's own (log 1): the environment's accesses the block has not served yet, oldest first. -/
  queue : List HostAccess
  deriving DecidableEq, Repr

/-- The state of the machine: an instance's parameters, which no step changes (log 6), and the block with them. -/
structure State where
  params : Config.Params
  block : Block params
  deriving DecidableEq, Repr

/-- Why a step faults. -/
inductive Fault where
  /-- Raised by the host port (Machine/HostPort.lean) for a host access that is a bus error: its width is not 32 bits,
  its address is not a multiple of 4, or its address is reserved (20_memory R63, R67). The fault is the host's
  (60_exceptions R259). Safe: the run stops where the hardware would go on with the host's next access (log 4). -/
  | busError
  deriving DecidableEq, Repr

/-- Why a step is refused. -/
inductive Refusal where
  /-- Raised by `exec` alone, for a command that has no meaning yet. Safe: the run stops. No arm raises it. -/
  | notModelled (mnemonic : String)
  deriving DecidableEq, Repr

/-- A block right after power-on reset: the values of 10_state R40 (70_reset R280). The buffers are the free values of
draw 0, since no cell is listed (70_reset R282, log 3). -/
def Block.reset {cfg : Config.Params} : Block cfg where
  arg0 := 0
  arg1 := 0
  res0 := 0
  res1 := 0
  code := .ok
  lastOp := 0
  ttValid := false
  cfgRes := 0
  cfgMargin := 0
  tt := ⟨0, 0, 0, 0, 0, 0, 0, 0⟩
  session := ⟨.leader, 0, 0⟩
  seqTx := 1
  seqNext := 1
  dec := ⟨0, .ok, false⟩
  mem := []
  porDraw := 0
  hostData := none
  queue := []

/-- An instance with parameters `cfg` right after power-on reset. -/
def State.resetWith (cfg : Config.Params := {}) : State := ⟨cfg, Block.reset⟩

/-- The machine right after power-on reset, with the defaults of 00_scope R8. -/
def State.reset : State := State.resetWith

end Sys2Proof.Machine
end

