-- ==== Sys2Proof/Machine/Operands.lean ====
section
/-! DEFINITION. Operands and bit fields: the operand registers as each command reads them (30_encoding R93), the symbol
word (R100), and the byte orders of host words and of shot frames (20_memory R64, R72). -/

namespace Sys2Proof.Machine

variable {cfg : Config.Params}

/-- CHAN_INIT's `RES`, ticks per second (30_encoding R93). -/
def Block.opRes (s : Block cfg) : Nat := s.arg0.toNat

/-- CHAN_INIT's `MARGIN`, in time units (30_encoding R93). -/
def Block.opMargin (s : Block cfg) : Nat := s.arg1.toNat

/-- ENCODE's `L`, the payload length in bytes (30_encoding R93). -/
def Block.opLength (s : Block cfg) : Nat := s.arg0.toNat

/-- ENCODE's `C`, `outputCapacity` in symbols (30_encoding R93). -/
def Block.opCapacity (s : Block cfg) : Nat := s.arg1.toNat

/-- DECODE's `n`, the number of symbols in the burst (30_encoding R93). -/
def Block.opSymbols (s : Block cfg) : Nat := s.arg0.toNat

/-- DECODE's `cap`, `destCapacity` in bytes (30_encoding R93). -/
def Block.opDestCap (s : Block cfg) : Nat := s.arg1.toNat

/-- ENCODE's operands lie within its buffers (30_encoding R93). -/
def Block.encodeInRange (s : Block cfg) : Bool :=
  s.opLength ≤ cfg.payloadMax && s.opCapacity ≤ cfg.txsymMax

/-- DECODE's operands lie within its buffers (30_encoding R93). -/
def Block.decodeInRange (s : Block cfg) : Bool :=
  s.opSymbols ≤ cfg.rxsymMax && s.opDestCap ≤ cfg.destMax

/-- The symbol word of the durations (active, idle) with duration fields of `dw` = `DUR_W` bits: active in the low
field, idle in the next, each the low `dw` bits of its duration; with `dw` = 16, active in 15:0 and idle in 31:16
(30_encoding R100, 20_memory R65). -/
def symWord (dw act idle : Nat) : Word := BitVec.ofNat 32 (idle % 2 ^ dw * 2 ^ dw + act % 2 ^ dw)

/-- The active duration of a symbol word, in ticks: its low field (30_encoding R100). -/
def symAct (dw : Nat) (w : Word) : Nat := w.toNat % 2 ^ dw

/-- The idle duration of a symbol word, in ticks: its high field (30_encoding R100). -/
def symIdle (dw : Nat) (w : Word) : Nat := w.toNat / 2 ^ dw % 2 ^ dw

/-- The symbols of the table, and so the words of TT_LEADER, TT_BIT0, TT_BIT1 and TT_ENDING: the ending's idle is the
constant `ENDING_IDLE` (40_timing R124, 10_state R34). -/
def TimingTable.leader (t : TimingTable cfg) : Word := symWord cfg.durW t.leaderAct.toNat t.leaderIdle.toNat
def TimingTable.bit0 (t : TimingTable cfg) : Word := symWord cfg.durW t.bit0Act.toNat t.bit0Idle.toNat
def TimingTable.bit1 (t : TimingTable cfg) : Word := symWord cfg.durW t.bit1Act.toNat t.bit1Idle.toNat
def TimingTable.ending (t : TimingTable cfg) : Word := symWord cfg.durW t.endAct.toNat cfg.endingIdle

/-- Byte `j` of a host word, bits `8j+7 : 8j` (20_memory R64). -/
def wordByte (w : Word) (j : Nat) : Byte := w.extractLsb' (8 * j) 8

/-- The host word of four bytes, the first in bits 7:0 (20_memory R64). -/
def wordOfBytes (b0 b1 b2 b3 : Byte) : Word := (b3 ++ b2 ++ b1 ++ b0 : BitVec (8 + 8 + 8 + 8))

/-- Octet `N` of a sequence number, `(seq >> 8N) & 0xFF` (30_encoding R109). -/
def seqByte (seq : Word) (n : Nat) : Byte := ((seq >>> (8 * n)) &&& 0xFF).truncate 8

/-- The sequence number of four big-endian octets, `DEST[3]<<24 | DEST[4]<<16 | DEST[5]<<8 | DEST[6]` (43_shot R213,
R215). -/
def seqOfBytes (b3 b2 b1 b0 : Byte) : Word :=
  (b3.zeroExtend 32 <<< 24) ||| (b2.zeroExtend 32 <<< 16) ||| (b1.zeroExtend 32 <<< 8) ||| b0.zeroExtend 32

end Sys2Proof.Machine
end

