-- ==== Sys2Proof/Machine/Flags.lean ====
section
/-! DEFINITION. Status codes and flags, and the words the host reads them in: STATUS (10_state R27), CFG_STATE (R29),
ENC_STATE (R30), DEC_RESULT (R37), `frameComplete` in RES1 (R26), the classification in RES0 (43_shot R222). -/

namespace Sys2Proof.Machine

variable {cfg : Config.Params}

/-- The 4-bit values of 60_exceptions R240. -/
def StatusCode.bits : StatusCode → BitVec 4
  | .ok => 0x0
  | .starved => 0x1
  | .emptyFrame => 0x2
  | .timingViolation => 0x3
  | .framingLeader => 0x4
  | .framingEnding => 0x5
  | .framingShort => 0x6
  | .framingLength => 0x7
  | .destTooSmall => 0x8
  | .configInvalid => 0x9
  | .notInit => 0xA
  | .alreadyInit => 0xB
  | .illegalCommand => 0xC
  | .argRange => 0xD

/-- Every code but OK, STARVED and EMPTY_FRAME is an error (60_exceptions R240, R243). -/
def StatusCode.isError : StatusCode → Bool
  | .ok => false
  | .starved => false
  | .emptyFrame => false
  | .timingViolation => true
  | .framingLeader => true
  | .framingEnding => true
  | .framingShort => true
  | .framingLength => true
  | .destTooSmall => true
  | .configInvalid => true
  | .notInit => true
  | .alreadyInit => true
  | .illegalCommand => true
  | .argRange => true

/-- The values of PHASE (10_state R30). -/
def Phase.bits : Phase → BitVec 2
  | .leader => 0
  | .data => 1
  | .ending => 2

/-- The classification codes of 43_shot R222. -/
def ShotClass.word : ShotClass → Word
  | .notShot => 0
  | .hit => 1
  | .miss => 2

/-- A flag as a word: 1 for true, 0 for false, in bit 0 (10_state R26). -/
def flagWord (b : Bool) : Word := if b then 1 else 0

/-- STATUS as the host reads it: CODE in 3:0, 7:4 zero, LAST_OP in 15:8, 31:16 zero (10_state R27, R42). -/
def statusWord (code : StatusCode) (lastOp : Byte) : Word :=
  (0#16 ++ lastOp ++ 0#4 ++ code.bits : BitVec (16 + 8 + 4 + 4))

/-- CFG_STATE as the host reads it: TT_VALID in bit 0 (10_state R29, R42). -/
def cfgStateWord (valid : Bool) : Word := flagWord valid

/-- ENC_STATE as the host reads it: PHASE in 1:0, BCUR in 6:4, PCUR in 31:16, the rest zero (10_state R30, R42). -/
def encStateWord (e : EncodeSession cfg) : Word :=
  (BitVec.ofNat 16 e.pcur.val ++ 0#9 ++ BitVec.ofNat 3 e.bcur.val ++ 0#2 ++ e.phase.bits : BitVec (16 + 9 + 3 + 2 + 2))

/-- DEC_RESULT as the host reads it: DEC_COUNT in 15:0, DEC_CODE in 19:16, DEC_FRESH in 24, the rest zero (10_state R37,
R42). -/
def decResultWord (d : DecodeOutcome cfg) : Word :=
  (0#7 ++ BitVec.ofBool d.fresh ++ 0#4 ++ d.code.bits ++ BitVec.ofNat 16 d.count.val : BitVec (7 + 1 + 4 + 4 + 16))

end Sys2Proof.Machine
end

