-- ==== Sys2Proof/Machine/Ops.lean ====
section
/-! DEFINITION. The shared operations: the memory of the buffers and its canonical form, reads and writes of buffer
elements (20_memory R61 to R66), the write-back that ends a command (30_encoding R94), and reporting an error
(60_exceptions R244). The block has no trap: no error saves a state or moves control, and there is no return from one
(R248, R249), so `raise` is all there is to taking an exception. -/

namespace Sys2Proof.Machine

variable {cfg : Config.Params}

/-! ### Memory -/

/-- The byte listed at an address; none for an address not written since power-on reset (log 3). -/
def Memory.read? : Memory → Nat → Option Byte
  | [], _ => none
  | (b, v) :: m, a => if b = a then some v else Memory.read? m a

/-- The memory with byte `v` at address `a`, in canonical form. -/
def Memory.write : Memory → Nat → Byte → Memory
  | [], a, v => [(a, v)]
  | (b, w) :: m, a, v =>
    if a < b then (a, v) :: (b, w) :: m
    else if a = b then (a, v) :: m
    else (b, w) :: Memory.write m a v

/-- The canonical form: addresses strictly rising. An unlisted address has no value in the list, so no entry can equal
what an unlisted address reads as (log 3). -/
def Memory.wf : Memory → Bool
  | [] => true
  | [_] => true
  | (a, _) :: (b, w) :: m => a < b && Memory.wf ((b, w) :: m)

/-! ### Buffers -/

/-- The block addresses of the buffers (20_memory R62). -/
def payloadBase : Nat := 0x0400
def destBase : Nat := 0x0800
def txsymBase : Nat := 0x1000
def rxsymBase : Nat := 0x2000

/-- An address of one of the four buffers of an instance with parameters `p` (20_memory R61, R62). -/
def isBufferAddr (p : Config.Params) (a : Nat) : Bool :=
  (payloadBase ≤ a && a < payloadBase + p.payloadMax) || (destBase ≤ a && a < destBase + p.destMax) ||
    (txsymBase ≤ a && a < txsymBase + 4 * p.txsymMax) || (rxsymBase ≤ a && a < rxsymBase + 4 * p.rxsymMax)

/-- The buffer byte at a block address: the byte written last, or the free value drawn at POR (20_memory R70, 70_reset
R282). -/
def Block.byteAt (s : Block cfg) (a : Nat) : Byte :=
  match s.mem.read? a with
  | some v => v
  | none => Config.porByte s.porDraw a

/-- The word of the four bytes from a block address on, little-endian (20_memory R64). -/
def Block.wordAt (s : Block cfg) (a : Nat) : Word :=
  wordOfBytes (s.byteAt a) (s.byteAt (a + 1)) (s.byteAt (a + 2)) (s.byteAt (a + 3))

/-- `PAYLOAD[i]`, `DEST[i]`, `TXSYM[i]` and `RXSYM[i]` (20_memory R61, R62). -/
def Block.payload (s : Block cfg) (i : Nat) : Byte := s.byteAt (payloadBase + i)
def Block.dest (s : Block cfg) (i : Nat) : Byte := s.byteAt (destBase + i)
def Block.txsym (s : Block cfg) (i : Nat) : Word := s.wordAt (txsymBase + 4 * i)
def Block.rxsym (s : Block cfg) (i : Nat) : Word := s.wordAt (rxsymBase + 4 * i)

/-- The first `n` elements of a buffer, in increasing index order. -/
def Block.payloadList (s : Block cfg) (n : Nat) : List Byte := (List.range n).map s.payload
def Block.destList (s : Block cfg) (n : Nat) : List Byte := (List.range n).map s.dest
def Block.txsymList (s : Block cfg) (n : Nat) : List Word := (List.range n).map s.txsym
def Block.rxsymList (s : Block cfg) (n : Nat) : List Word := (List.range n).map s.rxsym

/-- One byte of a buffer written. -/
def Block.setByte (s : Block cfg) (a : Nat) (v : Byte) : Block cfg := { s with mem := s.mem.write a v }

/-- A word of a buffer written, little-endian (20_memory R64, R66). -/
def Block.setWord (s : Block cfg) (a : Nat) (v : Word) : Block cfg :=
  (((s.setByte a (wordByte v 0)).setByte (a + 1) (wordByte v 1)).setByte (a + 2) (wordByte v 2)).setByte (a + 3)
    (wordByte v 3)

/-- Bytes written at rising addresses from `a` on. -/
def Block.setBytes (s : Block cfg) (a : Nat) : List Byte → Block cfg
  | [] => s
  | b :: bs => (s.setByte a b).setBytes (a + 1) bs

/-- Symbol words written at rising addresses from `a` on. -/
def Block.setWords (s : Block cfg) (a : Nat) : List Word → Block cfg
  | [] => s
  | w :: ws => (s.setWord a w).setWords (a + 4) ws

/-! ### The end of a command -/

/-- The write-back of RES0, RES1 and STATUS that every command makes (30_encoding R94, 60_exceptions R242). -/
def Block.finish (s : Block cfg) (op : Byte) (c : StatusCode) (r0 r1 : Word) : Block cfg :=
  { s with res0 := r0, res1 := r1, code := c, lastOp := op }

/-- Raising error `e` in a command that is not DECODE: the write-back of 60_exceptions R244 and nothing else. -/
def Block.raise (s : Block cfg) (op : Byte) (e : StatusCode) : Block cfg := s.finish op e 0 0

/-- DEC_RESULT written by a DECODE that ends with code `c` and `k` bytes (42_decoder R192, 10_state R37). `k` is at most
`DEST_MAX` (lemma `Block.decodeBurst_length`), so it is held as it is. -/
def Block.setDecResult (s : Block cfg) (k : Nat) (c : StatusCode) (fresh : Bool) : Block cfg :=
  { s with dec := ⟨Fin.ofNat _ k, c, fresh⟩ }

/-- DECODE's `fail`: DEC_RESULT is written too (42_decoder R180, 60_exceptions R244). -/
def Block.failDecode (s : Block cfg) (op : Byte) (e : StatusCode) : Block cfg := (s.setDecResult 0 e false).raise op e

/-- An illegal command word: ILLEGAL_COMMAND is raised, with LAST_OP bits 7:0 of the word (30_encoding R92). It is no
DECODE, whatever those bits are, so DEC_RESULT stays. -/
def Block.illegalCommand (s : Block cfg) (w : Word) : Block cfg := s.raise (opField w) .illegalCommand

/-- Power-on reset of a running block: every register as in `Block.reset`, and the next draw of the free buffer contents
(70_reset R280, R282). The instance's parameters stay, and so do the environment's later accesses in the queue (log 5). -/
def Block.powerOnReset (s : Block cfg) : Block cfg :=
  { Block.reset with porDraw := s.porDraw + 1, queue := s.queue }

end Sys2Proof.Machine
end

