-- ==== Sys2Proof/Machine/Timing.lean ====
section
/-! DEFINITION. The timing table, the symbol primitives and CHAN_INIT (40_timing_symbols). -/

namespace Sys2Proof.Machine

variable {cfg : Config.Params}

/-- `ticks(v) = floor(v * RES / REF_RATE)`, exact (40_timing R121). -/
def ticks (p : Config.Params) (res v : Nat) : Nat := v * res / p.refRate

/-- `|ticks(u) - ticks(v)|` (40_timing R129). -/
def tickGap (p : Config.Params) (res u v : Nat) : Nat :=
  if ticks p res u ≤ ticks p res v then ticks p res v - ticks p res u else ticks p res u - ticks p res v

/-- `G`, the least gap over all pairs of distinct values of the nominal set {560, 1690, 4500, 9000} (40_timing R129). -/
def leastGap (p : Config.Params) (res : Nat) : Nat :=
  min (min (min (tickGap p res 560 1690) (tickGap p res 560 4500))
    (min (tickGap p res 560 9000) (tickGap p res 1690 4500)))
    (min (tickGap p res 1690 9000) (tickGap p res 4500 9000))

/-- The table of (`RES`, M) is valid: V1 to V4 of 40_timing R129. -/
def tableValid (p : Config.Params) (res m : Nat) : Bool :=
  1 ≤ res && 1 ≤ ticks p res m && ticks p res Config.leaderAct ≤ p.durMax && 2 * ticks p res m < leastGap p res

/-- The table CHAN_INIT builds (40_timing R122, R130). -/
def buildTable (p : Config.Params) (res m : Nat) : TimingTable p where
  leaderAct := BitVec.ofNat p.durW (ticks p res Config.leaderAct)
  leaderIdle := BitVec.ofNat p.durW (ticks p res Config.leaderIdle)
  bit0Act := BitVec.ofNat p.durW (ticks p res Config.bit0Act)
  bit0Idle := BitVec.ofNat p.durW (ticks p res Config.bit0Idle)
  bit1Act := BitVec.ofNat p.durW (ticks p res Config.bit1Act)
  bit1Idle := BitVec.ofNat p.durW (ticks p res Config.bit1Idle)
  endAct := BitVec.ofNat p.durW (ticks p res Config.endAct)
  margin := BitVec.ofNat 32 (ticks p res m)

/-- The tolerance match `n - T_MARGIN < d and d < n + T_MARGIN` over the integers (40_timing R126). The first half is
written `n < d + T_MARGIN`, the same over the integers, so that no subtraction can stop at 0. -/
def durationMatch (margin d n : Nat) : Bool := n < d + margin && d < n + margin

/-- `matchSym(s, K)` for a nominal symbol word of the table: both phases match (40_timing R127). -/
def matchSym (t : TimingTable cfg) (s nominal : Word) : Bool :=
  durationMatch t.margin.toNat (symAct cfg.durW s) (symAct cfg.durW nominal) &&
    durationMatch t.margin.toNat (symIdle cfg.durW s) (symIdle cfg.durW nominal)

/-- `matchEnd(s)`: the active phase matches the ending's, the idle phase is ignored (40_timing R127). -/
def matchEnd (t : TimingTable cfg) (s : Word) : Bool :=
  durationMatch t.margin.toNat (symAct cfg.durW s) (symAct cfg.durW t.ending)

/-- `classifyBit(s)`: BIT0 is tested first, and `none` is NONE (40_timing R128). -/
def classifyBit (t : TimingTable cfg) (s : Word) : Option Bool :=
  if matchSym t s t.bit0 then some false
  else if matchSym t s t.bit1 then some true
  else none

/-- `sym(BIT0)` or `sym(BIT1)`, the symbol of a data bit (40_timing R124, 30_encoding R104). -/
def TimingTable.bitSym (t : TimingTable cfg) (b : Bool) : Word := if b then t.bit1 else t.bit0

/-- What a successful CHAN_INIT writes beside the write-back (40_timing R130). -/
def Block.initChannel (s : Block cfg) : Block cfg :=
  { s with
    tt := buildTable cfg s.opRes s.opMargin
    cfgRes := s.arg0
    cfgMargin := s.arg1
    ttValid := true
    session := ⟨.leader, 0, 0⟩ }

/-- CHAN_INIT on the block (40_timing R130; order of checks 60_exceptions R247). -/
def Block.chanInit (s : Block cfg) : Block cfg :=
  if s.ttValid then s.raise Instr.chanInit.opcode .alreadyInit
  else if tableValid cfg s.opRes s.opMargin then s.initChannel.finish Instr.chanInit.opcode .ok 0 0
  else s.raise Instr.chanInit.opcode .configInvalid

/-- CHAN_INIT: it always completes (60_exceptions R248). -/
def execChanInit (s : State) : Host.Outcome State Fault Refusal := .next ⟨s.params, s.block.chanInit⟩

end Sys2Proof.Machine
end

