-- ==== Sys2Proof/Machine/Decoder.lean ====
section
/-! DEFINITION. The tolerant, all-or-nothing decoder, DECODE (42_decoder). -/

namespace Sys2Proof.Machine

variable {cfg : Config.Params}

/-- The byte of classified bits, least significant first (42_decoder R183). -/
def byteOfBits : List Bool → Nat
  | [] => 0
  | b :: bs => b.toNat + 2 * byteOfBits bs

/-- The bits of symbols in order; none at the first that is neither bit (42_decoder R183). -/
def classifyBits (t : TimingTable cfg) : List Word → Option (List Bool)
  | [] => some []
  | w :: ws =>
    match classifyBit t w with
    | none => none
    | some b => (classifyBits t ws).map (b :: ·)

/-- One group of eight symbols as a byte (42_decoder R183). -/
def groupByte (t : TimingTable cfg) (ws : List Word) : Option Byte :=
  (classifyBits t ws).map fun bs => BitVec.ofNat 8 (byteOfBits bs)

/-- The data loop of 42_decoder R180: groups of eight while there is room in the destination and at least nine symbols
remain. It gives the bytes and the symbols left. -/
def decodeGroups (t : TimingTable cfg) : Nat → List Word → Except StatusCode (List Byte × List Word)
  | 0, rest => .ok ([], rest)
  | room + 1, rest =>
    if 9 ≤ rest.length then
      match groupByte t (rest.take 8) with
      | none => .error .timingViolation
      | some b =>
        match decodeGroups t room (rest.drop 8) with
        | .error e => .error e
        | .ok (bs, left) => .ok (b :: bs, left)
    else .ok ([], rest)

/-- The checks after the data loop (42_decoder R184 to R187). -/
def checkTail (t : TimingTable cfg) (left : List Word) : Except StatusCode Unit :=
  if 9 ≤ left.length then .error .destTooSmall
  else
    match left with
    | [w] => if matchEnd t w then .ok () else .error .framingEnding
    | _ => .error .framingLength

/-- One burst decoded under a table into at most `cap` bytes: a pure function (42_decoder R180, R190). The order of the
checks is that of 60_exceptions R246. -/
def decodeBurst (t : TimingTable cfg) (cap : Nat) : List Word → Except StatusCode (List Byte)
  | [] => .error .framingShort
  | [_] => .error .framingShort
  | lead :: w :: ws =>
    if !matchSym t lead t.leader then .error .framingLeader
    else
      match decodeGroups t cap (w :: ws) with
      | .error e => .error e
      | .ok (bs, left) =>
        match checkTail t left with
        | .error e => .error e
        | .ok () => .ok bs

/-- What this DECODE's checks and loop give, from the state it is issued in (42_decoder R180). -/
def Block.decodeBurst (s : Block cfg) : Except StatusCode (List Byte) :=
  Sys2Proof.Machine.decodeBurst s.tt s.opDestCap (s.rxsymList s.opSymbols)

/-- The code of a successful decode of `k` bytes (42_decoder R180, R189). -/
def decodeCode (k : Nat) : StatusCode := if k = 0 then .emptyFrame else .ok

/-- The commit of a successful decode: DEST and DEC_RESULT (42_decoder R180, R188, R192). -/
def Block.commitDecode (s : Block cfg) (bs : List Byte) : Block cfg :=
  (s.setBytes destBase bs).setDecResult bs.length (decodeCode bs.length) (1 ≤ bs.length)

/-- DECODE on the block (42_decoder R180; order of checks 60_exceptions R245, R246). -/
def Block.decode (s : Block cfg) : Block cfg :=
  if !s.ttValid then s.failDecode Instr.decode.opcode .notInit
  else if !s.decodeInRange then s.failDecode Instr.decode.opcode .argRange
  else
    match s.decodeBurst with
    | .error e => s.failDecode Instr.decode.opcode e
    | .ok bs => (s.commitDecode bs).finish Instr.decode.opcode (decodeCode bs.length) (BitVec.ofNat 32 bs.length) 0

/-- DECODE: it always completes (60_exceptions R248). -/
def execDecode (s : State) : Host.Outcome State Fault Refusal := .next ⟨s.params, s.block.decode⟩

end Sys2Proof.Machine
end

