-- ==== Sys2Proof/Machine/Encoder.lean ====
section
/-! DEFINITION. IR frames and the resumable encoder, ENCODE (30_encoding R104 to R107, 41_encoder). -/

namespace Sys2Proof.Machine

variable {cfg : Config.Params}

/-- The eight symbols of a byte, least significant bit first (30_encoding R104, R106). -/
def byteSyms (t : TimingTable cfg) (b : Byte) : List Word := (List.range 8).map fun i => t.bitSym (b.getLsbD i)

/-- `Frame(P)`: leader, eight symbols a byte, ending (30_encoding R105). -/
def frame (t : TimingTable cfg) (p : List Byte) : List Word := t.leader :: (p.flatMap (byteSyms t) ++ [t.ending])

/-- The cursors after one data bit (41_encoder R152): `bitCursor` advances, and at 8 it goes back to 0 and
`payloadCursor` advances. -/
def nextBit (pc bc : Nat) : Nat × Nat := if bc + 1 = 8 then (pc + 1, 0) else (pc, bc + 1)

/-- The Data loop of 41_encoder R150 with room for so many symbols: the symbols it emits and the cursors it leaves. -/
def dataLoop (t : TimingTable cfg) (p : List Byte) : Nat → Nat → Nat → List Word × Nat × Nat
  | 0, pc, bc => ([], pc, bc)
  | room + 1, pc, bc =>
    match p[pc]? with
    | none => ([], pc, bc)
    | some b =>
      let rest := dataLoop t p room (nextBit pc bc).1 (nextBit pc bc).2
      (t.bitSym (b.getLsbD bc) :: rest.1, rest.2)

/-- What one ENCODE of capacity at least 1 emits and leaves (41_encoder R150). -/
structure EncodeStep where
  syms : List Word
  phase : Phase
  pcur : Nat
  bcur : Nat
  complete : Bool
  deriving DecidableEq, Repr

/-- The Ending phase, after `syms` (41_encoder R153): with room left the ending is emitted and the session goes back to
`{Leader, 0, 0}`. -/
def endingPhase (t : TimingTable cfg) (c : Nat) (syms : List Word) (ph : Phase) (pc bc : Nat) : EncodeStep :=
  if ph = .ending ∧ syms.length < c then ⟨syms ++ [t.ending], .leader, 0, 0, true⟩
  else ⟨syms, ph, pc, bc, false⟩

/-- The Data phase, after `syms` (41_encoder R152): data symbols while room and payload last, then on to Ending when
`pc >= L`; then the Ending phase. -/
def dataPhase (t : TimingTable cfg) (p : List Byte) (c : Nat) (syms : List Word) (ph : Phase) (pc bc : Nat) :
    EncodeStep :=
  if ph = .data then
    let r := dataLoop t p (c - syms.length) pc bc
    endingPhase t c (syms ++ r.1) (if r.2.1 ≥ p.length then .ending else .data) r.2.1 r.2.2
  else endingPhase t c syms ph pc bc

/-- The phases of one ENCODE with capacity `c ≥ 1` and payload `p`, from the Leader phase on (41_encoder R150 to R153). -/
def encodeStep (t : TimingTable cfg) (p : List Byte) (c : Nat) (e : EncodeSession cfg) : EncodeStep :=
  if e.phase = .leader then dataPhase t p c [t.leader] .data e.pcur.val e.bcur.val
  else dataPhase t p c [] e.phase e.pcur.val e.bcur.val

/-- What this ENCODE emits and leaves, from the state it is issued in (41_encoder R150). -/
def Block.encodeStep (s : Block cfg) : EncodeStep :=
  Sys2Proof.Machine.encodeStep s.tt (s.payloadList s.opLength) s.opCapacity s.session

/-- The EncodeSession an ENCODE leaves (41_encoder R150). The cursors lie within the bounds of their types
(10_state R32, R41; lemma `encodeStep_session`), so they are held as they are. -/
def EncodeStep.session (r : EncodeStep) (cfg : Config.Params) : EncodeSession cfg :=
  ⟨r.phase, Fin.ofNat _ r.pcur, Fin.ofNat _ r.bcur⟩

/-- ENC_STATE and TXSYM written by an ENCODE (41_encoder R150, R157). -/
def Block.commitEncode (s : Block cfg) (r : EncodeStep) : Block cfg :=
  { s with session := r.session cfg }.setWords txsymBase r.syms

/-- ENCODE on the block (41_encoder R150; order of checks 60_exceptions R245). -/
def Block.encode (s : Block cfg) : Block cfg :=
  if !s.ttValid then s.raise Instr.encode.opcode .notInit
  else if !s.encodeInRange then s.raise Instr.encode.opcode .argRange
  else if s.opCapacity = 0 then s.finish Instr.encode.opcode .starved 0 0
  else
    (s.commitEncode s.encodeStep).finish Instr.encode.opcode .ok (BitVec.ofNat 32 s.encodeStep.syms.length)
      (flagWord s.encodeStep.complete)

/-- ENCODE: it always completes (60_exceptions R248). -/
def execEncode (s : State) : Host.Outcome State Fault Refusal := .next ⟨s.params, s.block.encode⟩

end Sys2Proof.Machine
end

