-- ==== Sys2Proof/Machine/Shot.lean ====
section
/-! DEFINITION. The shot framing layer, SHOT_BUILD and SHOT_CLASSIFY (43_shot_framing). -/

namespace Sys2Proof.Machine

variable {cfg : Config.Params}

/-- `shotBytes(s)`, the seven bytes of a shot frame (43_shot R210, 30_encoding R108, R109). -/
def shotBytes (seq : Word) : List Byte :=
  [Config.shotHdr0, Config.shotHdr1, Config.shotVer, seqByte seq 3, seqByte seq 2, seqByte seq 1, seqByte seq 0]

/-- SHOT_BUILD on the block (43_shot R211). It needs no timing table (70_reset R283). -/
def Block.shotBuild (s : Block cfg) : Block cfg :=
  ({ s with seqTx := s.seqTx + 1 }.setBytes payloadBase (shotBytes s.seqTx)).finish Instr.shotBuild.opcode .ok s.seqTx 0

/-- SHOT_BUILD: it always completes (43_shot R211). -/
def execShotBuild (s : State) : Host.Outcome State Fault Refusal := .next ⟨s.params, s.block.shotBuild⟩

/-- The last decode holds a shot frame (43_shot R214). -/
def Block.isShot (s : Block cfg) : Bool :=
  s.dec.fresh && s.dec.count.val == Config.shotLen && s.dest 0 == Config.shotHdr0 && s.dest 1 == Config.shotHdr1 &&
    s.dest 2 == Config.shotVer

/-- The sequence number of the frame in DEST (43_shot R215). -/
def Block.destSeq (s : Block cfg) : Word := seqOfBytes (s.dest 3) (s.dest 4) (s.dest 5) (s.dest 6)

/-- The class SHOT_CLASSIFY gives (43_shot R213, R216, R217). -/
def Block.shotClass (s : Block cfg) : ShotClass :=
  if s.isShot then (if s.destSeq = s.seqNext then .hit else .miss) else .notShot

/-- SEQ_NEXT after a SHOT_CLASSIFY of a class: it advances on a HIT alone, modulo 2^32 (43_shot R216, R219). -/
def Block.seqNextAfter (s : Block cfg) : ShotClass → Word
  | .hit => s.seqNext + 1
  | .miss => s.seqNext
  | .notShot => s.seqNext

/-- RES1 after a SHOT_CLASSIFY of a class: the extracted sequence, 0 for NOT_SHOT (43_shot R213, 10_state R26). -/
def Block.seqResult (s : Block cfg) : ShotClass → Word
  | .hit => s.destSeq
  | .miss => s.destSeq
  | .notShot => 0

/-- SHOT_CLASSIFY on the block (43_shot R213): the frame is consumed, whatever the class (R218). -/
def Block.shotClassify (s : Block cfg) : Block cfg :=
  { s with
    seqNext := s.seqNextAfter s.shotClass
    dec := { s.dec with fresh := false } }.finish Instr.shotClassify.opcode .ok s.shotClass.word (s.seqResult s.shotClass)

/-- SHOT_CLASSIFY: it always completes (43_shot R213). -/
def execShotClassify (s : State) : Host.Outcome State Fault Refusal := .next ⟨s.params, s.block.shotClassify⟩

end Sys2Proof.Machine
end

