-- ==== Sys2Proof/Machine/Dispatch.lean ====
section
/-! DEFINITION. The dispatch: one arm per command, each one call of its meaning. -/

namespace Sys2Proof.Machine

def exec (i : Instr) (s : State) : Host.Outcome State Fault Refusal :=
  match i with
  | .chanInit => Sys2Proof.Machine.execChanInit s
  | .encode => Sys2Proof.Machine.execEncode s
  | .decode => Sys2Proof.Machine.execDecode s
  | .shotBuild => Sys2Proof.Machine.execShotBuild s
  | .shotClassify => Sys2Proof.Machine.execShotClassify s

end Sys2Proof.Machine
end

