-- ==== Sys2Proof/Machine/Registers.lean ====
section
/-! DEFINITION. The register map: which register an address holds, what a host read of a register returns, and what a
host write of one does, a write of CMD apart (10_state R20 to R42, 20_memory R68). -/

namespace Sys2Proof.Machine

variable {cfg : Config.Params}

/-- The register at a block address (10_state R20). -/
def regAt : Nat → Option Reg
  | 0x00 => some .cmd
  | 0x04 => some .arg0
  | 0x08 => some .arg1
  | 0x0C => some .res0
  | 0x10 => some .res1
  | 0x14 => some .status
  | 0x18 => some .cfgState
  | 0x1C => some .cfgRes
  | 0x20 => some .cfgMargin
  | 0x24 => some .ttLeader
  | 0x28 => some .ttBit0
  | 0x2C => some .ttBit1
  | 0x30 => some .ttEnding
  | 0x34 => some .ttMargin
  | 0x38 => some .encState
  | 0x3C => some .seqTx
  | 0x40 => some .seqNext
  | 0x44 => some .decResult
  | _ => none

/-- The offset of a register (10_state R20). -/
def regOffset : Reg → Addr
  | .cmd => 0x00
  | .arg0 => 0x04
  | .arg1 => 0x08
  | .res0 => 0x0C
  | .res1 => 0x10
  | .status => 0x14
  | .cfgState => 0x18
  | .cfgRes => 0x1C
  | .cfgMargin => 0x20
  | .ttLeader => 0x24
  | .ttBit0 => 0x28
  | .ttBit1 => 0x2C
  | .ttEnding => 0x30
  | .ttMargin => 0x34
  | .encState => 0x38
  | .seqTx => 0x3C
  | .seqNext => 0x40
  | .decResult => 0x44

/-- TT_ENDING as the host reads it: `ENDING_IDLE` and `T_END_ACT` once a table is built, and 0 before (10_state R34,
R40; its idle is no field of R41, log 8). -/
def Block.ttEnding (s : Block cfg) : Word := if s.ttValid then s.tt.ending else 0

/-- What a host read of a register returns. CMD reads 0 (10_state R28), reserved fields read 0 (R42), and no read has a
side effect (20_memory R68). -/
def Block.readReg (s : Block cfg) : Reg → Word
  | .cmd => 0
  | .arg0 => s.arg0
  | .arg1 => s.arg1
  | .res0 => s.res0
  | .res1 => s.res1
  | .status => statusWord s.code s.lastOp
  | .cfgState => cfgStateWord s.ttValid
  | .cfgRes => s.cfgRes
  | .cfgMargin => s.cfgMargin
  | .ttLeader => s.tt.leader
  | .ttBit0 => s.tt.bit0
  | .ttBit1 => s.tt.bit1
  | .ttEnding => s.ttEnding
  | .ttMargin => s.tt.margin
  | .encState => encStateWord s.session
  | .seqTx => s.seqTx
  | .seqNext => s.seqNext
  | .decResult => decResultWord s.dec

/-- A host write of a register other than CMD: ARG0 and ARG1 take the value, and a write of a RO register is ignored
(10_state R20, R23, R24, 20_memory R68). CMD holds no state (10_state R28). -/
def Block.writeReg (s : Block cfg) (r : Reg) (v : Word) : Block cfg :=
  match r with
  | .arg0 => { s with arg0 := v }
  | .arg1 => { s with arg1 := v }
  | _ => s

end Sys2Proof.Machine
end

