-- ==== Sys2Proof/Machine/HostPort.lean ====
section
/-! DEFINITION. The host port: what one host access does (20_memory R60 to R68, R80, R81), a command issued by a write
of CMD among them (10_state R28). -/

namespace Sys2Proof.Machine

variable {cfg : Config.Params}

/-- Where a legal 32-bit access goes (20_memory R62). -/
inductive Target where
  | register (r : Reg)
  | buffer
  deriving DecidableEq, Repr

/-- The target of an access of `n` bytes at a block address of an instance with parameters `p`; none is a bus error: the
width is not 32 bits, the address is not a multiple of 4, or it is reserved (20_memory R63, R67). -/
def target (p : Config.Params) (n a : Nat) : Option Target :=
  if n ≠ 4 ∨ a % 4 ≠ 0 then none
  else
    match regAt a with
    | some r => some (.register r)
    | none => if isBufferAddr p a then some .buffer else none

/-- A command word written to CMD: the command runs to completion as one step (10_state R28, 20_memory R80), and an
illegal word is reported (30_encoding R92). -/
def runCommand (w : Word) (s : State) : Host.Outcome State Fault Refusal :=
  match decodeCommand w with
  | .ok i => exec i s
  | .error _ => .next ⟨s.params, s.block.illegalCommand w⟩

/-- `MemRead(addr, n)` (20_memory R66, R68): the word goes to the host and nothing of the block changes. -/
def hostRead (n : Nat) (addr : Addr) (s : State) : Host.Outcome State Fault Refusal :=
  match target s.params n addr.toNat with
  | none => .fault .busError
  | some (.register r) => .next ⟨s.params, { s.block with hostData := some (s.block.readReg r) }⟩
  | some .buffer => .next ⟨s.params, { s.block with hostData := some (s.block.wordAt addr.toNat) }⟩

/-- `MemWrite(addr, n, v)` (20_memory R66, R68). -/
def hostWrite (n : Nat) (addr : Addr) (v : Word) (s : State) : Host.Outcome State Fault Refusal :=
  match target s.params n addr.toNat with
  | none => .fault .busError
  | some (.register .cmd) => runCommand v s
  | some (.register r) => .next ⟨s.params, s.block.writeReg r v⟩
  | some .buffer => .next ⟨s.params, s.block.setWord addr.toNat v⟩

/-- One access of the environment served. -/
def serve (h : HostAccess) (s : State) : Host.Outcome State Fault Refusal :=
  match h with
  | .read n addr => hostRead n addr s
  | .write n addr v => hostWrite n addr v s
  | .powerOn => .next ⟨s.params, s.block.powerOnReset⟩

/-- The oldest access the host has issued is served; with none the block does nothing (20_memory R81, 60_exceptions
R261; log 1). -/
def serveOldest (s : State) : Host.Outcome State Fault Refusal :=
  match s.block.queue with
  | [] => .next s
  | h :: rest => serve h ⟨s.params, { s.block with queue := rest }⟩

/-- The host's accesses appended to those not served yet (20_memory R81). -/
def Block.issue (s : Block cfg) (accesses : List HostAccess) : Block cfg := { s with queue := s.queue ++ accesses }

/-- The host's next access made the write of a command word to CMD. -/
def Block.issueNextCommand (s : Block cfg) (w : Word) : Block cfg :=
  { s with queue := .write 4 (regOffset .cmd) w :: s.queue }

end Sys2Proof.Machine
end

