-- ==== Sys2Proof/Machine/Step.lean ====
section
/-! DEFINITION. One step of the block, and how the host of the pipeline places a command to be run next. -/

namespace Sys2Proof.Machine

/-- One step: the oldest pending access of the environment is served (00_scope R18, 20_memory R80, R81). -/
def step (s : State) : Host.Outcome State Fault Refusal := serveOldest s

/-- `s` with the command word whose bits are `w` as the host's next write to CMD, so that the very next step runs it.
The block fetches nothing (10_state R22): a command comes to it only as a value written to CMD (log 1). -/
def State.withFetchWord (s : State) (nbits w : Nat) : State :=
  ⟨s.params, s.block.issueNextCommand (BitVec.ofNat 32 (w % 2 ^ nbits))⟩

end Sys2Proof.Machine
end

