-- ==== Sys2Proof/Machine/Assembler.lean ====
section
/-! DEFINITION. The host's statements and pseudo-instructions as host accesses (30_encoding R96, R97). -/

namespace Sys2Proof.Machine

/-- `WR REG, value` (30_encoding R96). -/
def asmWr (r : Reg) (v : Word) : HostAccess := .write 4 (regOffset r) v

/-- A mnemonic alone: `WR CMD, 0x000000OP` (30_encoding R96). -/
def asmCommand (i : Instr) : HostAccess := asmWr .cmd (encodeCommand i)

/-- The accesses of `LOADPAY` from the word at `a` on: bytes four by four, the last word filled with 0 (30_encoding
R97). -/
def asmLoadpay (a : Nat) : List Byte → List HostAccess
  | [] => []
  | [b0] => [.write 4 (BitVec.ofNat 16 a) (wordOfBytes b0 0 0 0)]
  | [b0, b1] => [.write 4 (BitVec.ofNat 16 a) (wordOfBytes b0 b1 0 0)]
  | [b0, b1, b2] => [.write 4 (BitVec.ofNat 16 a) (wordOfBytes b0 b1 b2 0)]
  | b0 :: b1 :: b2 :: b3 :: bs => .write 4 (BitVec.ofNat 16 a) (wordOfBytes b0 b1 b2 b3) :: asmLoadpay (a + 4) bs

/-- The accesses of `LOADRX` from the word at `a` on (30_encoding R97). -/
def asmLoadrx (a : Nat) : List Word → List HostAccess
  | [] => []
  | w :: ws => .write 4 (BitVec.ofNat 16 a) w :: asmLoadrx (a + 4) ws

/-- The expansion of a host statement (30_encoding R96, R97). -/
def expandStmt : Stmt → List HostAccess
  | .wr r v => [asmWr r v]
  | .rd r => [.read 4 (regOffset r)]
  | .wrw a v => [.write 4 a v]
  | .rdw a => [.read 4 a]
  | .command i => [asmCommand i]
  | .init r m => [asmWr .arg0 r, asmWr .arg1 m, asmCommand .chanInit]
  | .enc l c => [asmWr .arg0 l, asmWr .arg1 c, asmCommand .encode]
  | .dec n c => [asmWr .arg0 n, asmWr .arg1 c, asmCommand .decode]
  | .shot => [asmCommand .shotBuild]
  | .classify => [asmCommand .shotClassify]
  | .loadpay bs => asmLoadpay payloadBase bs
  | .loadrx ws => asmLoadrx rxsymBase ws

/-- The accesses of a host program (30_encoding R96). -/
def expandProgram (p : List Stmt) : List HostAccess := p.flatMap expandStmt

end Sys2Proof.Machine
end

