-- ==== Sys2Proof/Safety.lean ====
section
/-! DEFINITION. What holds of every good state, and the terms claims are stated in: runs of steps and of ENCODE
commands, frame positions, the time a list of symbols takes on the line. -/

namespace Sys2Proof.Machine

variable {cfg : Config.Params}

/-- The timing table is either the one a successful CHAN_INIT built from the latched operands, or all zero (10_state
R29, R33, R34, 40_timing R129, R132). -/
abbrev Block.tableInv (s : Block cfg) : Prop :=
  (s.ttValid = true →
      tableValid cfg s.cfgRes.toNat s.cfgMargin.toNat = true ∧ s.tt = buildTable cfg s.cfgRes.toNat s.cfgMargin.toNat) ∧
    (s.ttValid = false → s.tt = ⟨0, 0, 0, 0, 0, 0, 0, 0⟩ ∧ s.cfgRes = 0 ∧ s.cfgMargin = 0)

/-- The session at a command boundary: Leader has both cursors at 0 (10_state R32), Ending has no bit in progress, and
no frame is under way before a table is built (41_encoder R150). The bounds of R32 on the cursors are their types'. -/
abbrev Block.sessionInv (s : Block cfg) : Prop :=
  (s.session.phase = .leader → s.session.pcur = 0 ∧ s.session.bcur = 0) ∧
    (s.session.phase = .ending → s.session.bcur = 0) ∧ (s.ttValid = false → s.session.phase = .leader)

/-- DEC_RESULT: a fresh frame is a successful decode of at least one byte (10_state R37, 43_shot R214), and only a
decode that ended OK has a count (42_decoder R192). -/
abbrev Block.decInv (s : Block cfg) : Prop :=
  (s.dec.fresh = true → s.dec.code = .ok ∧ 1 ≤ s.dec.count.val) ∧ (s.dec.code ≠ .ok → s.dec.count = 0)

/-- The memory is in canonical form and lists buffer bytes only (20_memory R62). -/
abbrev Block.memInv (s : Block cfg) : Prop := s.mem.wf = true ∧ s.mem.all (fun c => isBufferAddr cfg c.1) = true

/-- The invariant of the block. Its parameters are those of an instance there can be (log 6). -/
abbrev Block.Inv (s : Block cfg) : Prop := cfg.wf = true ∧ s.tableInv ∧ s.sessionInv ∧ s.decInv ∧ s.memInv

/-- The invariant of the machine: every step keeps it and reset has it. -/
abbrev State.Inv (s : State) : Prop := s.block.Inv

/-- V1 to V4 of 40_timing R129, written out over the nominal set: what makes CHAN_INIT's operands acceptable. -/
abbrev validOperands (p : Config.Params) (res m : Nat) : Prop :=
  1 ≤ res ∧ 1 ≤ m * res / p.refRate ∧ 9000 * res / p.refRate ≤ 2 ^ p.durW - 1 ∧
    ∀ u ∈ [560, 1690, 4500, 9000], ∀ v ∈ [560, 1690, 4500, 9000], u < v →
      2 * (m * res / p.refRate) < v * res / p.refRate - u * res / p.refRate

/-- A reserved block address of an instance with parameters `p`: between the registers and the buffers, between two
buffers, or past the last (20_memory R62, R63). -/
abbrev reservedAddr (p : Config.Params) (a : Nat) : Prop :=
  (0x0048 ≤ a ∧ a < 0x0400) ∨ (0x0400 + p.payloadMax ≤ a ∧ a < 0x0800) ∨ (0x0800 + p.destMax ≤ a ∧ a < 0x1000) ∨
    (0x1000 + 4 * p.txsymMax ≤ a ∧ a < 0x2000) ∨ 0x2000 + 4 * p.rxsymMax ≤ a

/-- No access of the host waiting to be served is a bus error (20_memory R67). -/
def Block.hostIsLegal (s : Block cfg) : Bool :=
  s.queue.all fun h =>
    match h with
    | .read n a => (target cfg n a.toNat).isSome
    | .write n a _ => (target cfg n a.toNat).isSome
    | .powerOn => true

/-- `k` steps of the block, up to the first that faults or is refused (Host/Core.lean). -/
def runSteps (k : Nat) (s : State) : Host.Outcome State Fault Refusal := Host.Core.run Sys2Proof.core k s

/-- ENCODE commands with the capacities `cs` in turn, ARG0 and PAYLOAD left alone between them (41_encoder R162,
70_reset R291): the concatenation of the symbols each leaves in `TXSYM[0 .. RES0-1]`, and the last state. -/
def encodeRun : List Word → State → Option (List Word × State)
  | [], s => some ([], s)
  | c :: cs, s =>
    match exec .encode ⟨s.params, { s.block with arg1 := c }⟩ with
    | .next t => (encodeRun cs t).map fun r => (t.block.txsymList t.block.res0.toNat ++ r.1, r.2)
    | .fault _ => none
    | .refused _ => none

/-- The frame position of a session for a payload of `l` bytes (41_encoder R155). -/
def framePos (l : Nat) (e : EncodeSession cfg) : Nat :=
  match e.phase with
  | .leader => 0
  | .data => 1 + 8 * e.pcur.val + e.bcur.val
  | .ending => 1 + 8 * l

/-- The time the symbols take on the line, in ticks, with duration fields of `dw` bits (70_reset R301). -/
def lineTime (dw : Nat) (ws : List Word) : Nat := (ws.map fun w => symAct dw w + symIdle dw w).sum

end Sys2Proof.Machine
end

