-- ==== Sys2Proof/Certificates/Slice0/Obligations.lean ====
section
/-! DEFINITION. The statements about the block, for the provers. Each docstring names the rules of spec/ it formalises. -/

open Sys2Proof Sys2Proof.Machine

/-! ### Command words and the step -/

/-- The full word of each command is `0x000000OP` (30_encoding R91). -/
def Obligations.CommandWordsDecode : Prop :=
  (decodeCommand 0x00000001 = .ok .chanInit ∧ decodeCommand 0x00000002 = .ok .encode ∧
      decodeCommand 0x00000003 = .ok .decode ∧ decodeCommand 0x00000004 = .ok .shotBuild ∧
      decodeCommand 0x00000005 = .ok .shotClassify) ∧
    encodeCommand .chanInit = 0x00000001 ∧ encodeCommand .encode = 0x00000002 ∧ encodeCommand .decode = 0x00000003 ∧
      encodeCommand .shotBuild = 0x00000004 ∧ encodeCommand .shotClassify = 0x00000005

/-- Decode and encode agree in both directions over all 32-bit words: no bit of a command word is dropped (30_encoding
R90, R91, R95). -/
def Obligations.DecodeInvertsEncode : Prop :=
  (∀ i : Instr, i.wf = true → decodeCommand (encodeCommand i) = .ok i) ∧
    ∀ (w : Word) (i : Instr), decodeCommand w = .ok i → encodeCommand i = w

/-- A word written to CMD with `w[31:8] ≠ 0`, or with `w[7:0]` 0x00 or 0x06 to 0xFF, raises ILLEGAL_COMMAND: STATUS,
RES0 and RES1 are written and nothing else of the block changes (30_encoding R92). -/
def Obligations.IllegalCommandReported : Prop :=
  ∀ (cfg : Config.Params) (s : Block cfg) (w : Word), (w.toNat / 256 ≠ 0 ∨ w.toNat % 256 = 0 ∨ 6 ≤ w.toNat % 256) →
    serve (.write 4 0x0000 w) ⟨cfg, s⟩ = .next ⟨cfg, { s with
      res0 := 0, res1 := 0, code := .illegalCommand, lastOp := BitVec.ofNat 8 w.toNat }⟩

/-- A step whose oldest access is a write of a legal command word to CMD is that command run, the access taken off the
queue (10_state R28, 20_memory R80). That a step serves the queue is the model's choice (log 1). -/
def Obligations.StepRunsDecodedCommand : Prop :=
  ∀ (cfg : Config.Params) (s : Block cfg) (w : Word) (i : Instr) (rest : List HostAccess),
      s.queue = .write 4 0x0000 w :: rest →
    decodeCommand w = .ok i → i.wf = true → step ⟨cfg, s⟩ = exec i ⟨cfg, { s with queue := rest }⟩

/-- The model's choice (log 1): a step serves the oldest access of the host that waits, taking it off the queue, and
with none waiting changes nothing. -/
def Obligations.StepServesOldestAccess : Prop :=
  (∀ (cfg : Config.Params) (s : Block cfg), s.queue = [] → step ⟨cfg, s⟩ = .next ⟨cfg, s⟩) ∧
    ∀ (cfg : Config.Params) (s : Block cfg) (h : HostAccess) (rest : List HostAccess), s.queue = h :: rest →
      step ⟨cfg, s⟩ = serve h ⟨cfg, { s with queue := rest }⟩

/-- Every command word written to CMD, legal or not, completes and writes STATUS: LAST_OP is bits 7:0 of the word, and
neither field is left as an earlier command set it, since what the write does never depends on them (60_exceptions
R242). -/
def Obligations.EveryCommandWritesStatus : Prop :=
  ∀ (cfg : Config.Params) (s : Block cfg) (w : Word), ∃ t, serve (.write 4 0x0000 w) ⟨cfg, s⟩ = .next ⟨cfg, t⟩ ∧
      t.lastOp = BitVec.ofNat 8 w.toNat ∧
    ∀ (c : StatusCode) (l : Byte), serve (.write 4 0x0000 w) ⟨cfg, { s with code := c, lastOp := l }⟩ = .next ⟨cfg, t⟩

/-- A command that ends in an error makes the write-back of 60_exceptions R244 and no other change: RES0 and RES1 are 0,
STATUS holds the code and bits 7:0 of the command word, and a DECODE writes DEC_RESULT. -/
def Obligations.ErrorWritesBackOnly : Prop :=
  ∀ (cfg : Config.Params) (s t : Block cfg) (w : Word), serve (.write 4 0x0000 w) ⟨cfg, s⟩ = .next ⟨cfg, t⟩ →
      t.code.isError = true →
    t = { s with
      res0 := 0, res1 := 0, code := t.code, lastOp := BitVec.ofNat 8 w.toNat,
      dec := if w = 0x00000003 then ⟨0, t.code, false⟩ else s.dec }

/-- What each command leaves alone (30_encoding R94, 20_memory R69, 10_state R21): every register its row does not list,
and every buffer byte outside the elements it writes. ENCODE stores RES0 symbol words at TXSYM, DECODE RES0 bytes at
DEST, SHOT_BUILD seven bytes at PAYLOAD, and CHAN_INIT and SHOT_CLASSIFY nothing. -/
def Obligations.CommandsChangeOnlyTheirOwn : Prop :=
  (∀ (cfg : Config.Params) (s t : Block cfg), exec .chanInit ⟨cfg, s⟩ = .next ⟨cfg, t⟩ →
      t = { s with
        res0 := t.res0, res1 := t.res1, code := t.code, lastOp := t.lastOp, ttValid := t.ttValid, cfgRes := t.cfgRes,
        cfgMargin := t.cfgMargin, tt := t.tt, session := t.session } ∧
      ∀ a, t.byteAt a = s.byteAt a) ∧
  (∀ (cfg : Config.Params) (s t : Block cfg), exec .encode ⟨cfg, s⟩ = .next ⟨cfg, t⟩ →
      t = { s with
        res0 := t.res0, res1 := t.res1, code := t.code, lastOp := t.lastOp, session := t.session, mem := t.mem } ∧
      ∀ a, (a < 0x1000 ∨ 0x1000 + 4 * t.res0.toNat ≤ a) → t.byteAt a = s.byteAt a) ∧
  (∀ (cfg : Config.Params) (s t : Block cfg), exec .decode ⟨cfg, s⟩ = .next ⟨cfg, t⟩ →
      t = { s with res0 := t.res0, res1 := t.res1, code := t.code, lastOp := t.lastOp, dec := t.dec, mem := t.mem } ∧
      ∀ a, (a < 0x0800 ∨ 0x0800 + t.res0.toNat ≤ a) → t.byteAt a = s.byteAt a) ∧
  (∀ (cfg : Config.Params) (s t : Block cfg), exec .shotBuild ⟨cfg, s⟩ = .next ⟨cfg, t⟩ →
      t = { s with
        res0 := t.res0, res1 := t.res1, code := t.code, lastOp := t.lastOp, seqTx := t.seqTx, mem := t.mem } ∧
      ∀ a, (a < 0x0400 ∨ 0x0407 ≤ a) → t.byteAt a = s.byteAt a) ∧
  (∀ (cfg : Config.Params) (s t : Block cfg), exec .shotClassify ⟨cfg, s⟩ = .next ⟨cfg, t⟩ →
      t = { s with
        res0 := t.res0, res1 := t.res1, code := t.code, lastOp := t.lastOp, seqNext := t.seqNext,
        dec := { s.dec with fresh := t.dec.fresh } } ∧
      ∀ a, t.byteAt a = s.byteAt a)

/-! ### The host port -/

/-- A host access is a bus error exactly when its width is not 32 bits, its address is not a multiple of 4, or its
address is reserved (20_memory R67). Which addresses are reserved in an instance with other sizes than the defaults of
00_scope R8 is the model's choice, read from R62 and R63 by inference (`reservedAddr`, log 6: the buffers keep their
bases, DEDUCED); with the defaults they are the ranges R62 lists. -/
def Obligations.BusErrorExactly : Prop :=
  (∀ (cfg : Config.Params) (s : Block cfg) (n : Nat) (a : Addr), cfg.wf = true →
    (serve (.read n a) ⟨cfg, s⟩ = .fault .busError ↔ n ≠ 4 ∨ a.toNat % 4 ≠ 0 ∨ reservedAddr cfg a.toNat) ∧
      ∀ v : Word,
        serve (.write n a v) ⟨cfg, s⟩ = .fault .busError ↔ n ≠ 4 ∨ a.toNat % 4 ≠ 0 ∨ reservedAddr cfg a.toNat) ∧
    ∀ a : Addr, reservedAddr {} a.toNat ↔
      (0x0048 ≤ a.toNat ∧ a.toNat ≤ 0x03FF) ∨ (0x0500 ≤ a.toNat ∧ a.toNat ≤ 0x07FF) ∨
        (0x0900 ≤ a.toNat ∧ a.toNat ≤ 0x0FFF) ∨ (0x1200 ≤ a.toNat ∧ a.toNat ≤ 0x1FFF) ∨
        (0x2200 ≤ a.toNat ∧ a.toNat ≤ 0xFFFF)

/-- Every access of a word-aligned address that is not reserved completes: the step answers a next state, with the
access taken off the queue (20_memory R66, R67). What it does there the other statements say. That a queue holds the
accesses is the model's choice (log 1), and so is the map of an instance with other sizes than the defaults of 00_scope
R8 (`reservedAddr`, log 6, DEDUCED). -/
def Obligations.LegalAccessCompletes : Prop :=
  (∀ (cfg : Config.Params) (s : Block cfg) (a : Addr) (rest : List HostAccess), cfg.wf = true →
      s.queue = .read 4 a :: rest →
      a.toNat % 4 = 0 → ¬ reservedAddr cfg a.toNat → ∃ t, step ⟨cfg, s⟩ = .next ⟨cfg, t⟩ ∧ t.queue = rest) ∧
  (∀ (cfg : Config.Params) (s : Block cfg) (a : Addr) (v : Word) (rest : List HostAccess), cfg.wf = true →
      s.queue = .write 4 a v :: rest →
      a.toNat % 4 = 0 → ¬ reservedAddr cfg a.toNat → ∃ t, step ⟨cfg, s⟩ = .next ⟨cfg, t⟩ ∧ t.queue = rest)

/-- No host read has a side effect on the block: only the word handed to the host changes (20_memory R68). -/
def Obligations.HostReadHasNoSideEffect : Prop :=
  ∀ (cfg : Config.Params) (s t : Block cfg) (n : Nat) (a : Addr) (rest : List HostAccess),
      s.queue = .read n a :: rest → step ⟨cfg, s⟩ = .next ⟨cfg, t⟩ →
    t = { s with queue := rest, hostData := t.hostData }

/-- What a read of each packed register returns, reserved fields 0 (10_state R27, R28, R29, R30, R37, R42): the numbers
of the status codes (60_exceptions R240) and of the phases (R30), and the words their fields make, for parameters an
instance can have (log 6) where a field is as wide as one. -/
def Obligations.PackedRegistersRead : Prop :=
  (StatusCode.ok.bits.toNat = 0x0 ∧ StatusCode.starved.bits.toNat = 0x1 ∧ StatusCode.emptyFrame.bits.toNat = 0x2 ∧
    StatusCode.timingViolation.bits.toNat = 0x3 ∧ StatusCode.framingLeader.bits.toNat = 0x4 ∧
    StatusCode.framingEnding.bits.toNat = 0x5 ∧ StatusCode.framingShort.bits.toNat = 0x6 ∧
    StatusCode.framingLength.bits.toNat = 0x7 ∧ StatusCode.destTooSmall.bits.toNat = 0x8 ∧
    StatusCode.configInvalid.bits.toNat = 0x9 ∧ StatusCode.notInit.bits.toNat = 0xA ∧
    StatusCode.alreadyInit.bits.toNat = 0xB ∧ StatusCode.illegalCommand.bits.toNat = 0xC ∧
    StatusCode.argRange.bits.toNat = 0xD) ∧
  (Phase.leader.bits.toNat = 0 ∧ Phase.data.bits.toNat = 1 ∧ Phase.ending.bits.toNat = 2) ∧
  ∀ (cfg : Config.Params) (s : Block cfg) (rest : List HostAccess),
    (s.queue = .read 4 0x0000 :: rest → step ⟨cfg, s⟩ = .next ⟨cfg, { s with queue := rest, hostData := some 0 }⟩) ∧
    (s.queue = .read 4 0x0014 :: rest →
        ∃ v : Word, step ⟨cfg, s⟩ = .next ⟨cfg, { s with queue := rest, hostData := some v }⟩ ∧
      v.toNat = s.lastOp.toNat * 256 + s.code.bits.toNat) ∧
    (s.queue = .read 4 0x0018 :: rest →
        ∃ v : Word, step ⟨cfg, s⟩ = .next ⟨cfg, { s with queue := rest, hostData := some v }⟩ ∧
      v.toNat = s.ttValid.toNat) ∧
    (s.queue = .read 4 0x0038 :: rest → cfg.wf = true →
        ∃ v : Word, step ⟨cfg, s⟩ = .next ⟨cfg, { s with queue := rest, hostData := some v }⟩ ∧
      v.toNat = s.session.pcur.val * 65536 + s.session.bcur.val * 16 + s.session.phase.bits.toNat) ∧
    (s.queue = .read 4 0x0044 :: rest → cfg.wf = true →
        ∃ v : Word, step ⟨cfg, s⟩ = .next ⟨cfg, { s with queue := rest, hostData := some v }⟩ ∧
      v.toNat = s.dec.fresh.toNat * 2 ^ 24 + s.dec.code.bits.toNat * 65536 + s.dec.count.val)

/-- What a read of each register that holds one value returns (10_state R20, R23 to R26, R33 to R36); TT_ENDING reads 0
until a table is built (R34). -/
def Obligations.PlainRegistersRead : Prop :=
  ∀ (cfg : Config.Params) (s : Block cfg) (rest : List HostAccess) (a : Addr) (v : Word),
    (a, v) ∈ [((0x0004 : Addr), s.arg0), (0x0008, s.arg1), (0x000C, s.res0), (0x0010, s.res1), (0x001C, s.cfgRes),
      (0x0020, s.cfgMargin), (0x0024, s.tt.leader), (0x0028, s.tt.bit0), (0x002C, s.tt.bit1),
      (0x0030, if s.ttValid then s.tt.ending else 0),
      (0x0034, s.tt.margin), (0x003C, s.seqTx), (0x0040, s.seqNext)] →
    s.queue = .read 4 a :: rest → step ⟨cfg, s⟩ = .next ⟨cfg, { s with queue := rest, hostData := some v }⟩

/-- A host write to a RO register is ignored and is not a bus error; ARG0 and ARG1 take the whole word (20_memory R68,
10_state R20, R23, R24). -/
def Obligations.RegisterWrites : Prop :=
  ∀ (cfg : Config.Params) (s : Block cfg) (v : Word) (rest : List HostAccess),
    (∀ a : Addr, 0x000C ≤ a.toNat → a.toNat ≤ 0x0044 → a.toNat % 4 = 0 → s.queue = .write 4 a v :: rest →
      step ⟨cfg, s⟩ = .next ⟨cfg, { s with queue := rest }⟩) ∧
    (s.queue = .write 4 0x0004 v :: rest → step ⟨cfg, s⟩ = .next ⟨cfg, { s with queue := rest, arg0 := v }⟩) ∧
    (s.queue = .write 4 0x0008 v :: rest → step ⟨cfg, s⟩ = .next ⟨cfg, { s with queue := rest, arg1 := v }⟩)

/-- A word the host writes to a buffer is what its next read there returns, no register changes, and no byte outside the
word changes (20_memory R66, R70, R81). -/
def Obligations.BufferWordReadsBack : Prop :=
  ∀ (cfg : Config.Params) (s : Block cfg) (a : Addr) (v : Word) (rest : List HostAccess), bufferWordAddr a cfg = true →
    s.queue = .write 4 a v :: .read 4 a :: rest →
    ∃ t u, step ⟨cfg, s⟩ = .next ⟨cfg, t⟩ ∧ step ⟨cfg, t⟩ = .next ⟨cfg, u⟩ ∧
      u = { s with queue := rest, hostData := some v, mem := t.mem } ∧
      ∀ b, (b < a.toNat ∨ a.toNat + 4 ≤ b) → u.byteAt b = s.byteAt b

/-- The host word at `base + 4k` of a byte buffer holds byte `4k+j` in bits `8j+7 : 8j`, when written and when read
(20_memory R64). -/
def Obligations.HostWordPacksBytes : Prop :=
  ∀ (cfg : Config.Params) (s : Block cfg) (base k j : Nat), cfg.wf = true →
    (base = 0x0400 ∧ 4 * k < cfg.payloadMax ∨ base = 0x0800 ∧ 4 * k < cfg.destMax) → j < 4 →
    (∀ v : Word, ∃ t, serve (.write 4 (BitVec.ofNat 16 (base + 4 * k)) v) ⟨cfg, s⟩ = .next ⟨cfg, t⟩ ∧
      (t.byteAt (base + (4 * k + j))).toNat = v.toNat / 2 ^ (8 * j) % 256) ∧
    ∃ t v, serve (.read 4 (BitVec.ofNat 16 (base + 4 * k))) ⟨cfg, s⟩ = .next ⟨cfg, t⟩ ∧ t.hostData = some v ∧
      v.toNat / 2 ^ (8 * j) % 256 = (s.byteAt (base + (4 * k + j))).toNat

/-! ### Power-on reset -/

/-- POR sets every register to its reset value: SEQ_TX and SEQ_NEXT to 1, every other to 0 (70_reset R280), whatever the
block was doing. It is an entry of the environment's queue, and the instance's parameters stay, by the model's choice
(log 5, log 6). -/
def Obligations.PowerOnResetsRegisters : Prop :=
  (∀ r : Reg, State.reset.block.readReg r = if r = .seqTx ∨ r = .seqNext then 1 else 0) ∧
    (∀ (cfg : Config.Params) (r : Reg),
      (State.resetWith cfg).block.readReg r = if r = .seqTx ∨ r = .seqNext then 1 else 0) ∧
    ∀ (cfg : Config.Params) (s : Block cfg) (rest : List HostAccess), s.queue = .powerOn :: rest →
      ∃ t, step ⟨cfg, s⟩ = .next ⟨cfg, t⟩ ∧ t.queue = rest ∧
        ∀ r : Reg, t.readReg r = if r = .seqTx ∨ r = .seqNext then 1 else 0

/-- After POR every buffer byte is the free value of the new draw (70_reset R282). Which draw it is, and that a draw is
`Config.porByte` of a counter, is the model's choice (log 3, log 5). -/
def Obligations.PowerOnDrawsBuffers : Prop :=
  ∀ (cfg : Config.Params) (s : Block cfg) (rest : List HostAccess), s.queue = .powerOn :: rest →
    ∃ t, step ⟨cfg, s⟩ = .next ⟨cfg, t⟩ ∧ ∀ a, t.byteAt a = Config.porByte (s.porDraw + 1) a

/-! ### CHAN_INIT and the timing table -/

/-- CHAN_INIT on acceptable operands completes and holds the table of 40_timing R122, with the operands latched, the
session reset and nothing else changed (R130). Each table register is the symbol word of its durations: with the
defaults of 00_scope R8 `idle * 65536 + active` (30_encoding R100, 20_memory R65, 10_state R34); that it is
`idle * 2^DUR_W + active` with duration fields of another width is the model's choice (log 6, DEDUCED). -/
def Obligations.ChanInitBuildsTable : Prop :=
  ∀ (cfg : Config.Params) (s : Block cfg) (tk : Nat → Nat), cfg.wf = true → s.ttValid = false →
    validOperands cfg s.arg0.toNat s.arg1.toNat → (∀ v, tk v = v * s.arg0.toNat / cfg.refRate) →
    ∃ t, exec .chanInit ⟨cfg, s⟩ = .next ⟨cfg, t⟩ ∧
      (symAct cfg.durW t.tt.leader = tk 9000 ∧ symIdle cfg.durW t.tt.leader = tk 4500 ∧
        symAct cfg.durW t.tt.bit0 = tk 560 ∧ symIdle cfg.durW t.tt.bit0 = tk 560 ∧
        symAct cfg.durW t.tt.bit1 = tk 560 ∧ symIdle cfg.durW t.tt.bit1 = tk 1690 ∧
        symAct cfg.durW t.tt.ending = tk 560 ∧ symIdle cfg.durW t.tt.ending = cfg.endingIdle) ∧
      (t.tt.leader.toNat = tk 4500 * 2 ^ cfg.durW + tk 9000 ∧
        t.tt.bit0.toNat = tk 560 * 2 ^ cfg.durW + tk 560 ∧
        t.tt.bit1.toNat = tk 1690 * 2 ^ cfg.durW + tk 560 ∧
        t.tt.ending.toNat = cfg.endingIdle * 2 ^ cfg.durW + tk 560 ∧ t.tt.margin.toNat = tk s.arg1.toNat) ∧
      (cfg = {} →
        t.tt.leader.toNat = 4500 * s.arg0.toNat / 1000000 * 65536 + 9000 * s.arg0.toNat / 1000000 ∧
        t.tt.bit0.toNat = 560 * s.arg0.toNat / 1000000 * 65536 + 560 * s.arg0.toNat / 1000000 ∧
        t.tt.bit1.toNat = 1690 * s.arg0.toNat / 1000000 * 65536 + 560 * s.arg0.toNat / 1000000 ∧
        t.tt.ending.toNat = 65535 * 65536 + 560 * s.arg0.toNat / 1000000 ∧
        t.tt.margin.toNat = s.arg1.toNat * s.arg0.toNat / 1000000) ∧
      t = { s with
        tt := t.tt, cfgRes := s.arg0, cfgMargin := s.arg1, ttValid := true, session := ⟨.leader, 0, 0⟩, res0 := 0,
        res1 := 0, code := .ok, lastOp := 0x01 }

/-- CHAN_INIT reports ALREADY_INIT before it looks at its operands, and otherwise CONFIG_INVALID when any of V1 to V4
fails (60_exceptions R247, R244). -/
def Obligations.ChanInitErrors : Prop :=
  (∀ (cfg : Config.Params) (s : Block cfg), s.ttValid = true →
      exec .chanInit ⟨cfg, s⟩ = .next ⟨cfg, { s with res0 := 0, res1 := 0, code := .alreadyInit, lastOp := 0x01 }⟩) ∧
    ∀ (cfg : Config.Params) (s : Block cfg), s.ttValid = false → ¬ validOperands cfg s.arg0.toNat s.arg1.toNat →
      exec .chanInit ⟨cfg, s⟩ = .next ⟨cfg, { s with res0 := 0, res1 := 0, code := .configInvalid, lastOp := 0x01 }⟩

/-- Where CHAN_INIT's corner cases lie, with the defaults of 00_scope R8: with the default margin 200 it succeeds
exactly for resolutions from 5,000 to 7,281,777, and at 1,000,000 ticks a second exactly for margins from 1 to 564
(40_timing R131). -/
def Obligations.ChanInitCornerCases : Prop :=
  (∀ s t : Block {}, s.ttValid = false → s.arg1 = 200 → exec .chanInit ⟨{}, s⟩ = .next ⟨{}, t⟩ →
      (t.code = .ok ↔ 5000 ≤ s.arg0.toNat ∧ s.arg0.toNat ≤ 7281777)) ∧
    ∀ s t : Block {}, s.ttValid = false → s.arg0 = 1000000 → exec .chanInit ⟨{}, s⟩ = .next ⟨{}, t⟩ →
      (t.code = .ok ↔ 1 ≤ s.arg1.toNat ∧ s.arg1.toNat ≤ 564)

/-- After a successful CHAN_INIT nothing the host does changes CFG_RES, CFG_MARGIN, the TT_* registers or TT_VALID; only
POR does (40_timing R132). -/
def Obligations.TableReadOnlyUntilPowerOn : Prop :=
  ∀ (cfg : Config.Params) (s t : Block cfg) (h : HostAccess), s.ttValid = true → h ≠ .powerOn →
      serve h ⟨cfg, s⟩ = .next ⟨cfg, t⟩ →
    t.ttValid = true ∧ t.tt = s.tt ∧ t.cfgRes = s.cfgRes ∧ t.cfgMargin = s.cfgMargin

/-- The tolerance match is the open interval around the nominal, over the integers (40_timing R126). -/
def Obligations.MatchIsOpenInterval : Prop :=
  ∀ m d n : Nat, durationMatch m d n = true ↔ ((n : Int) - m < d ∧ (d : Int) < n + m)

/-- Under a valid table the windows of distinct nominals do not overlap, no symbol matches two of LEADER, BIT0 and BIT1,
no active phase matches both the leader and a bit, and the ending's active window is the bits' (40_timing R133). -/
def Obligations.WindowsDisjoint : Prop :=
  ∀ (cfg : Config.Params) (s : Block cfg), cfg.wf = true → s.tableInv → s.ttValid = true →
    (∀ u ∈ [560, 1690, 4500, 9000], ∀ v ∈ [560, 1690, 4500, 9000], u ≠ v → ∀ d : Nat,
      ¬ (durationMatch s.tt.margin.toNat d (u * s.cfgRes.toNat / cfg.refRate) = true ∧
        durationMatch s.tt.margin.toNat d (v * s.cfgRes.toNat / cfg.refRate) = true)) ∧
    (∀ w : Word, ¬ (matchSym s.tt w s.tt.leader = true ∧ matchSym s.tt w s.tt.bit0 = true) ∧
      ¬ (matchSym s.tt w s.tt.leader = true ∧ matchSym s.tt w s.tt.bit1 = true) ∧
      ¬ (matchSym s.tt w s.tt.bit0 = true ∧ matchSym s.tt w s.tt.bit1 = true)) ∧
    (∀ d : Nat, ¬ (durationMatch s.tt.margin.toNat d (symAct cfg.durW s.tt.leader) = true ∧
        (durationMatch s.tt.margin.toNat d (symAct cfg.durW s.tt.bit0) = true ∨
          durationMatch s.tt.margin.toNat d (symAct cfg.durW s.tt.bit1) = true))) ∧
    symAct cfg.durW s.tt.ending = symAct cfg.durW s.tt.bit0 ∧
      symAct cfg.durW s.tt.ending = symAct cfg.durW s.tt.bit1

/-! ### Frames and ENCODE -/

/-- `Frame(P)` symbol by symbol: the leader, symbol `8j+1+b` for bit b of byte j, the ending, `2 + 8L` in all
(30_encoding R104, R105, R106, R107). -/
def Obligations.FrameSymbols : Prop :=
  ∀ (cfg : Config.Params) (t : TimingTable cfg) (p : List Byte),
    (frame t p).length = 2 + 8 * p.length ∧ (frame t p)[0]? = some t.leader ∧
      (∀ (j b : Nat) (h : j < p.length), b < 8 →
        (frame t p)[8 * j + 1 + b]? = some (if (p[j].toNat / 2 ^ b) % 2 = 0 then t.bit0 else t.bit1)) ∧
      (frame t p)[8 * p.length + 1]? = some t.ending

/-- ENCODE before a table is built, and ENCODE with an operand beyond its buffer: the first condition that holds decides
the code (60_exceptions R245, R244, 30_encoding R93). -/
def Obligations.EncodeErrors : Prop :=
  (∀ (cfg : Config.Params) (s : Block cfg), s.ttValid = false →
      exec .encode ⟨cfg, s⟩ = .next ⟨cfg, { s with res0 := 0, res1 := 0, code := .notInit, lastOp := 0x02 }⟩) ∧
    ∀ (cfg : Config.Params) (s : Block cfg), s.ttValid = true →
        (cfg.payloadMax < s.arg0.toNat ∨ cfg.txsymMax < s.arg1.toNat) →
      exec .encode ⟨cfg, s⟩ = .next ⟨cfg, { s with res0 := 0, res1 := 0, code := .argRange, lastOp := 0x02 }⟩

/-- ENCODE with capacity 0 writes RES0, RES1 and STATUS and changes nothing else, and every capacity from 1 on emits at
least one symbol (41_encoder R154). -/
def Obligations.EncodeZeroCapacity : Prop :=
  (∀ (cfg : Config.Params) (s : Block cfg), s.ttValid = true → s.arg0.toNat ≤ cfg.payloadMax → s.arg1 = 0 →
      exec .encode ⟨cfg, s⟩ = .next ⟨cfg, { s with res0 := 0, res1 := 0, code := .starved, lastOp := 0x02 }⟩) ∧
    ∀ (cfg : Config.Params) (s : Block cfg), s.ttValid = true → s.arg0.toNat ≤ cfg.payloadMax → 1 ≤ s.arg1.toNat →
      s.arg1.toNat ≤ cfg.txsymMax →
      ∃ t, exec .encode ⟨cfg, s⟩ = .next ⟨cfg, t⟩ ∧ t.code = .ok ∧ 1 ≤ t.res0.toNat ∧ t.res0.toNat ≤ s.arg1.toNat

/-- The position form of ENCODE (41_encoder R155): it writes `F[pos .. pos+w-1]` to TXSYM with `w = min(C, N - pos)`,
reports completion exactly when it reaches the end, and leaves the session at the next position, in Data only with bytes
left. Nothing but the results, the session and `TXSYM[0 .. w-1]` changes. -/
def Obligations.EncodePositionForm : Prop :=
  ∀ (cfg : Config.Params) (s : Block cfg), s.ttValid = true → s.arg0.toNat ≤ cfg.payloadMax → 1 ≤ s.arg1.toNat →
    s.arg1.toNat ≤ cfg.txsymMax → s.sessionInv →
    (s.session.phase = .data → s.session.pcur.val ≤ s.arg0.toNat) →
    framePos s.arg0.toNat s.session < 2 + 8 * s.arg0.toNat →
    ∃ t, exec .encode ⟨cfg, s⟩ = .next ⟨cfg, t⟩ ∧
      t.res0.toNat = min s.arg1.toNat (2 + 8 * s.arg0.toNat - framePos s.arg0.toNat s.session) ∧
      t.txsymList t.res0.toNat =
        ((frame s.tt (s.payloadList s.arg0.toNat)).drop (framePos s.arg0.toNat s.session)).take t.res0.toNat ∧
      t.res1 = (if framePos s.arg0.toNat s.session + t.res0.toNat = 2 + 8 * s.arg0.toNat then 1 else 0) ∧
      framePos s.arg0.toNat t.session =
        (if framePos s.arg0.toNat s.session + t.res0.toNat = 2 + 8 * s.arg0.toNat then 0
         else framePos s.arg0.toNat s.session + t.res0.toNat) ∧
      (t.session.phase = .data → t.session.pcur.val < s.arg0.toNat) ∧ t.sessionInv ∧
      t = { s with
        res0 := t.res0, res1 := t.res1, code := .ok, lastOp := 0x02, session := t.session, mem := t.mem } ∧
      ∀ a, (a < 0x1000 ∨ 0x1000 + 4 * t.res0.toNat ≤ a) → t.byteAt a = s.byteAt a

/-- Resumability (41_encoder R162): from `{Leader, 0, 0}`, whatever capacities 0 to `TXSYM_MAX` slice the frame, the
commands up to and including the first that returns `frameComplete` emit exactly `Frame(P)`, and that is what one ENCODE
with room for the whole frame emits. -/
def Obligations.EncodeResumable : Prop :=
  ∀ (cfg : Config.Params) (s : Block cfg) (cs : List Word) (c : Word), cfg.wf = true → s.ttValid = true →
      s.arg0.toNat ≤ cfg.payloadMax →
    s.session = ⟨.leader, 0, 0⟩ → (∀ d ∈ cs ++ [c], d.toNat ≤ cfg.txsymMax) →
    (∀ k, 1 ≤ k → k ≤ cs.length → ∃ out u, encodeRun (cs.take k) ⟨cfg, s⟩ = some (out, ⟨cfg, u⟩) ∧ u.res1 = 0) →
    ∀ out t, encodeRun (cs ++ [c]) ⟨cfg, s⟩ = some (out, ⟨cfg, t⟩) → t.res1 = 1 →
      out = frame s.tt (s.payloadList s.arg0.toNat) ∧ t.session = ⟨.leader, 0, 0⟩ ∧
        ∀ d : Word, 2 + 8 * s.arg0.toNat ≤ d.toNat → d.toNat ≤ cfg.txsymMax →
          ∃ u, encodeRun [d] ⟨cfg, s⟩ = some (out, ⟨cfg, u⟩) ∧ u.res1 = 1

/-- The call count (41_encoder R163): with a constant capacity C a frame takes exactly `ceil((2 + 8L) / C)` commands,
and only the last returns `frameComplete`. -/
def Obligations.EncodeCallCount : Prop :=
  ∀ (cfg : Config.Params) (s : Block cfg) (c : Word), cfg.wf = true → s.ttValid = true → s.arg0.toNat ≤ cfg.payloadMax →
    s.session = ⟨.leader, 0, 0⟩ → 1 ≤ c.toNat → c.toNat ≤ cfg.txsymMax → ∀ k, 1 ≤ k →
    k ≤ (2 + 8 * s.arg0.toNat + (c.toNat - 1)) / c.toNat →
    ∃ out t, encodeRun (List.replicate k c) ⟨cfg, s⟩ = some (out, ⟨cfg, t⟩) ∧ t.code = .ok ∧
      t.res1 = if k = (2 + 8 * s.arg0.toNat + (c.toNat - 1)) / c.toNat then 1 else 0

/-- The empty payload (41_encoder R156): one command of capacity 2 or more emits leader and ending; capacity 1 emits the
leader and passes on to Ending, and the next command of capacity 1 emits the ending. -/
def Obligations.EncodeEmptyPayload : Prop :=
  ∀ (cfg : Config.Params) (s : Block cfg), cfg.wf = true → s.ttValid = true → s.arg0 = 0 → s.session = ⟨.leader, 0, 0⟩ →
    (2 ≤ s.arg1.toNat → s.arg1.toNat ≤ cfg.txsymMax →
      ∃ t, exec .encode ⟨cfg, s⟩ = .next ⟨cfg, t⟩ ∧ t.res0 = 2 ∧ t.res1 = 1 ∧
          t.txsymList 2 = [s.tt.leader, s.tt.ending] ∧
        t.session = ⟨.leader, 0, 0⟩) ∧
    (s.arg1 = 1 →
      ∃ t u, exec .encode ⟨cfg, s⟩ = .next ⟨cfg, t⟩ ∧ t.res0 = 1 ∧ t.res1 = 0 ∧ t.txsymList 1 = [s.tt.leader] ∧
        t.session = ⟨.ending, 0, 0⟩ ∧ exec .encode ⟨cfg, t⟩ = .next ⟨cfg, u⟩ ∧ u.res0 = 1 ∧ u.res1 = 1 ∧
        u.txsymList 1 = [s.tt.ending] ∧ u.session = ⟨.leader, 0, 0⟩)

/-- A later command that brings `L ≤ PCUR` emits no data: it emits the ending and completes the frame (41_encoder
R159). -/
def Obligations.EncodeShortenedPayload : Prop :=
  ∀ (cfg : Config.Params) (s : Block cfg), s.ttValid = true → s.session.phase = .data → s.arg0.toNat ≤ cfg.payloadMax →
    s.arg0.toNat ≤ s.session.pcur.val → 1 ≤ s.arg1.toNat → s.arg1.toNat ≤ cfg.txsymMax →
    ∃ t, exec .encode ⟨cfg, s⟩ = .next ⟨cfg, t⟩ ∧ t.res0 = 1 ∧ t.res1 = 1 ∧ t.txsymList 1 = [s.tt.ending] ∧
      t.session = ⟨.leader, 0, 0⟩

/-- `frameComplete` holds after exactly those ENCODE commands that put the session back to `{Leader, 0, 0}` by emitting
the ending, and RES1 is 0 after every other (41_encoder R153, R158). -/
def Obligations.FrameCompleteMeansEndingSent : Prop :=
  ∀ (cfg : Config.Params) (s t : Block cfg), exec .encode ⟨cfg, s⟩ = .next ⟨cfg, t⟩ →
    (t.res1 = 1 → 1 ≤ t.res0.toNat ∧ t.txsym (t.res0.toNat - 1) = s.tt.ending ∧ t.session = ⟨.leader, 0, 0⟩) ∧
      (t.res1 ≠ 1 → t.res1 = 0 ∧ (t.code = .ok → t.session.phase ≠ .leader))

/-- No command cancels a frame: POR apart, the session returns to Leader only by an ENCODE that completes the frame
(41_encoder R161). -/
def Obligations.FrameNeverCancelled : Prop :=
  ∀ (cfg : Config.Params) (s t : Block cfg), s.Inv → s.session.phase ≠ .leader → s.queue.head? ≠ some .powerOn →
      step ⟨cfg, s⟩ = .next ⟨cfg, t⟩ →
    t.session.phase = .leader →
    (∃ rest, s.queue = .write 4 0x0000 0x00000002 :: rest) ∧ t.code = .ok ∧ t.res1 = 1

/-! ### DECODE -/

/-- DECODE before a table is built, with an operand beyond its buffer, and with fewer than two symbols: the first
condition that holds decides the code (60_exceptions R245, R246, R244, 42_decoder R181). -/
def Obligations.DecodeEarlyErrors : Prop :=
  (∀ (cfg : Config.Params) (s : Block cfg), s.ttValid = false →
      exec .decode ⟨cfg, s⟩ = .next ⟨cfg, { s with
        res0 := 0, res1 := 0, code := .notInit, lastOp := 0x03, dec := ⟨0, .notInit, false⟩ }⟩) ∧
    (∀ (cfg : Config.Params) (s : Block cfg), s.ttValid = true →
        (cfg.rxsymMax < s.arg0.toNat ∨ cfg.destMax < s.arg1.toNat) →
      exec .decode ⟨cfg, s⟩ = .next ⟨cfg, { s with
        res0 := 0, res1 := 0, code := .argRange, lastOp := 0x03, dec := ⟨0, .argRange, false⟩ }⟩) ∧
    ∀ (cfg : Config.Params) (s : Block cfg), cfg.wf = true → s.ttValid = true → s.arg0.toNat < 2 →
        s.arg1.toNat ≤ cfg.destMax →
      exec .decode ⟨cfg, s⟩ = .next ⟨cfg, { s with
        res0 := 0, res1 := 0, code := .framingShort, lastOp := 0x03, dec := ⟨0, .framingShort, false⟩ }⟩

/-- A burst whose symbol 0 is not a leader fails with FRAMING_LEADER, whatever the other symbols are (42_decoder R182). -/
def Obligations.DecodeLeaderMismatch : Prop :=
  ∀ (cfg : Config.Params) (s : Block cfg), s.ttValid = true → 2 ≤ s.arg0.toNat → s.arg0.toNat ≤ cfg.rxsymMax →
      s.arg1.toNat ≤ cfg.destMax →
    matchSym s.tt (s.rxsym 0) s.tt.leader = false →
    exec .decode ⟨cfg, s⟩ = .next ⟨cfg, { s with
      res0 := 0, res1 := 0, code := .framingLeader, lastOp := 0x03, dec := ⟨0, .framingLeader, false⟩ }⟩

/-- A symbol that is neither bit, in a group the loop reads, fails the decode with TIMING_VIOLATION (42_decoder R183). -/
def Obligations.DecodeTimingViolation : Prop :=
  ∀ (cfg : Config.Params) (s : Block cfg) (j b : Nat), s.ttValid = true → s.arg0.toNat ≤ cfg.rxsymMax →
      s.arg1.toNat ≤ cfg.destMax →
    matchSym s.tt (s.rxsym 0) s.tt.leader = true → j < s.arg1.toNat → 8 * j + 10 ≤ s.arg0.toNat →
    b < 8 →
    classifyBit s.tt (s.rxsym (1 + 8 * j + b)) = none →
    exec .decode ⟨cfg, s⟩ = .next ⟨cfg, { s with
      res0 := 0, res1 := 0, code := .timingViolation, lastOp := 0x03, dec := ⟨0, .timingViolation, false⟩ }⟩

/-- When the loop stops after `k` good groups, the number of symbols left decides: 9 or more (so `k = cap`)
DEST_TOO_SMALL, 2 to 8 FRAMING_LENGTH, and exactly one that is no ending FRAMING_ENDING (42_decoder R185, R186, R187). -/
def Obligations.DecodeTailErrors : Prop :=
  ∀ (cfg : Config.Params) (s : Block cfg) (k : Nat), s.ttValid = true → s.arg0.toNat ≤ cfg.rxsymMax →
      s.arg1.toNat ≤ cfg.destMax →
    matchSym s.tt (s.rxsym 0) s.tt.leader = true → k ≤ s.arg1.toNat → 8 * k + 2 ≤ s.arg0.toNat →
    (∀ i, i < 8 * k → classifyBit s.tt (s.rxsym (1 + i)) ≠ none) →
    (k = s.arg1.toNat → 8 * k + 10 ≤ s.arg0.toNat →
      exec .decode ⟨cfg, s⟩ = .next ⟨cfg, { s with
        res0 := 0, res1 := 0, code := .destTooSmall, lastOp := 0x03, dec := ⟨0, .destTooSmall, false⟩ }⟩) ∧
    (8 * k + 3 ≤ s.arg0.toNat → s.arg0.toNat ≤ 8 * k + 9 →
      exec .decode ⟨cfg, s⟩ = .next ⟨cfg, { s with
        res0 := 0, res1 := 0, code := .framingLength, lastOp := 0x03, dec := ⟨0, .framingLength, false⟩ }⟩) ∧
    (s.arg0.toNat = 8 * k + 2 → matchEnd s.tt (s.rxsym (8 * k + 1)) = false →
      exec .decode ⟨cfg, s⟩ = .next ⟨cfg, { s with
        res0 := 0, res1 := 0, code := .framingEnding, lastOp := 0x03, dec := ⟨0, .framingEnding, false⟩ }⟩)

/-- The decoder accepts exactly the bursts that read as a frame, and commits the bytes they read as: DECODE succeeds
with `P` if and only if the burst is `2 + 8L` symbols with a leader, bits that classify as those of `P`, and an ending,
and `L` fits the destination; then DEST holds the bytes of `P` and RES0 their number (42_decoder R180, R188, R189). -/
def Obligations.DecodeAcceptsExactlyFrames : Prop :=
  ∀ (cfg : Config.Params) (s : Block cfg) (p : List Byte), s.ttValid = true → s.arg0.toNat ≤ cfg.rxsymMax →
      s.arg1.toNat ≤ cfg.destMax →
    ((∃ t, exec .decode ⟨cfg, s⟩ = .next ⟨cfg, t⟩ ∧ t.code.isError = false ∧ t.res0.toNat = p.length ∧
        t.destList p.length = p) ↔
      (p.length ≤ s.arg1.toNat ∧ s.arg0.toNat = 2 + 8 * p.length ∧
        matchSym s.tt (s.rxsym 0) s.tt.leader = true ∧
        (∀ (j b : Nat) (h : j < p.length), b < 8 →
          classifyBit s.tt (s.rxsym (1 + 8 * j + b)) = some (p[j].getLsbD b)) ∧
        matchEnd s.tt (s.rxsym (1 + 8 * p.length)) = true))

/-- Round trip (42_decoder R191 (a)): the frame of a payload, received as sent under the same valid table into a
destination large enough, decodes to the payload; nothing but the results, DEC_RESULT and `DEST[0 .. L-1]` changes. -/
def Obligations.DecodeRoundTrip : Prop :=
  ∀ (cfg : Config.Params) (s : Block cfg) (p : List Byte), cfg.wf = true → s.tableInv → s.ttValid = true →
      1 ≤ p.length →
    s.arg0.toNat = 2 + 8 * p.length → s.arg0.toNat ≤ cfg.rxsymMax → p.length ≤ s.arg1.toNat →
    s.arg1.toNat ≤ cfg.destMax → s.rxsymList s.arg0.toNat = frame s.tt p →
    ∃ t, exec .decode ⟨cfg, s⟩ = .next ⟨cfg, t⟩ ∧ t.destList p.length = p ∧
      t = { s with
        res0 := BitVec.ofNat 32 p.length, res1 := 0, code := .ok, lastOp := 0x03, mem := t.mem,
        dec := ⟨Fin.ofNat _ p.length, .ok, true⟩ } ∧
      ∀ a, (a < 0x0800 ∨ 0x0800 + p.length ≤ a) → t.byteAt a = s.byteAt a

/-- An empty frame, a leader and an ending, succeeds for every destination capacity with EMPTY_FRAME, count 0 and no
fresh flag, and writes no byte (42_decoder R189). -/
def Obligations.DecodeEmptyFrame : Prop :=
  ∀ (cfg : Config.Params) (s : Block cfg), cfg.wf = true → s.ttValid = true → s.arg0 = 2 → s.arg1.toNat ≤ cfg.destMax →
    matchSym s.tt (s.rxsym 0) s.tt.leader = true → matchEnd s.tt (s.rxsym 1) = true →
    exec .decode ⟨cfg, s⟩ = .next ⟨cfg, { s with
      res0 := 0, res1 := 0, code := .emptyFrame, lastOp := 0x03, dec := ⟨0, .emptyFrame, false⟩ }⟩

/-- All or nothing (42_decoder R188): a DECODE that ends with OK or EMPTY_FRAME leaves every byte outside
`DEST[0 .. RES0-1]` as it was, and a failing one leaves every byte as it was. -/
def Obligations.DecodeAllOrNothing : Prop :=
  ∀ (cfg : Config.Params) (s t : Block cfg), exec .decode ⟨cfg, s⟩ = .next ⟨cfg, t⟩ →
    ((t.code = .ok ∨ t.code = .emptyFrame) → ∀ a, (a < 0x0800 ∨ 0x0800 + t.res0.toNat ≤ a) → t.byteAt a = s.byteAt a) ∧
      (t.code ≠ .ok → t.code ≠ .emptyFrame → t.mem = s.mem ∧ ∀ a, t.byteAt a = s.byteAt a)

/-- Every DECODE writes DEC_RESULT: on success `(k, code, k ≥ 1)`, on failure `(0, X, 0)`; and of the other
commands only SHOT_CLASSIFY writes it, and only DEC_FRESH (42_decoder R192). -/
def Obligations.DecodeWritesDecResult : Prop :=
  (∀ (cfg : Config.Params) (s t : Block cfg), exec .decode ⟨cfg, s⟩ = .next ⟨cfg, t⟩ →
    t.dec.code = t.code ∧ (t.code.isError = true → t.dec.count = 0 ∧ t.dec.fresh = false) ∧
      (t.code.isError = false → t.dec.count.val = t.res0.toNat ∧ t.dec.fresh = decide (1 ≤ t.res0.toNat))) ∧
    ∀ (cfg : Config.Params) (i : Instr) (s t : Block cfg), i ≠ .decode → exec i ⟨cfg, s⟩ = .next ⟨cfg, t⟩ →
      t.dec.count = s.dec.count ∧ t.dec.code = s.dec.code ∧ (i ≠ .shotClassify → t.dec = s.dec)

/-- Purity (42_decoder R190): in one instance the outcome of DECODE depends on n, cap, `RXSYM[0 .. n-1]`, TT_VALID and
the timing table alone, and DECODE changes no encoder, framing or table state. -/
def Obligations.DecodeIsPure : Prop :=
  (∀ (cfg : Config.Params) (s s' t t' : Block cfg), s.arg0 = s'.arg0 → s.arg1 = s'.arg1 → s.ttValid = s'.ttValid →
      s.tt = s'.tt → s.rxsymList s.arg0.toNat = s'.rxsymList s.arg0.toNat → exec .decode ⟨cfg, s⟩ = .next ⟨cfg, t⟩ →
      exec .decode ⟨cfg, s'⟩ = .next ⟨cfg, t'⟩ →
      t.code = t'.code ∧ t.lastOp = t'.lastOp ∧ t.res0 = t'.res0 ∧ t.res1 = t'.res1 ∧ t.dec = t'.dec ∧
        t.destList t.res0.toNat = t'.destList t'.res0.toNat) ∧
    ∀ (cfg : Config.Params) (s t : Block cfg), exec .decode ⟨cfg, s⟩ = .next ⟨cfg, t⟩ →
      t.session = s.session ∧ t.seqTx = s.seqTx ∧ t.seqNext = s.seqNext ∧ t.tt = s.tt ∧ t.ttValid = s.ttValid ∧
        t.cfgRes = s.cfgRes ∧ t.cfgMargin = s.cfgMargin

/-- The ending's idle duration never changes the outcome (42_decoder R191 (e), R187): two bursts that differ only in the
idle field of the last symbol decode alike. -/
def Obligations.DecodeIgnoresEndingIdle : Prop :=
  ∀ (cfg : Config.Params) (s s' t t' : Block cfg) (n : Nat), s.arg0.toNat = n + 1 → s.arg0 = s'.arg0 →
    s.arg1 = s'.arg1 → s.ttValid = s'.ttValid → s.tt = s'.tt → s.rxsymList n = s'.rxsymList n →
    symAct cfg.durW (s.rxsym n) = symAct cfg.durW (s'.rxsym n) → exec .decode ⟨cfg, s⟩ = .next ⟨cfg, t⟩ →
    exec .decode ⟨cfg, s'⟩ = .next ⟨cfg, t'⟩ →
    t.code = t'.code ∧ t.res0 = t'.res0 ∧ t.dec = t'.dec ∧ t.destList t.res0.toNat = t'.destList t'.res0.toNat

/-- The tolerance boundary (42_decoder R191 (b)): in a valid frame with one symbol's active duration (the ending's too)
or idle duration (the ending's excepted) changed to `d`, a `d` exactly a margin away from the nominal is rejected, and
one less than a margin away is accepted with the same payload. -/
def Obligations.DecodeToleranceBoundary : Prop :=
  ∀ (cfg : Config.Params) (s t : Block cfg) (p : List Byte) (i : Nat) (w : Word) (d nom : Nat), cfg.wf = true →
      s.tableInv → s.ttValid = true →
    1 ≤ p.length → s.arg0.toNat = 2 + 8 * p.length → s.arg0.toNat ≤ cfg.rxsymMax → p.length ≤ s.arg1.toNat →
    s.arg1.toNat ≤ cfg.destMax → (frame s.tt p)[i]? = some w → d ≤ cfg.durMax →
    ((nom = symAct cfg.durW w ∧ s.rxsymList s.arg0.toNat =
        (frame s.tt p).set i (symWord cfg.durW d (symIdle cfg.durW w))) ∨
      (nom = symIdle cfg.durW w ∧ i < 1 + 8 * p.length ∧ s.rxsymList s.arg0.toNat =
        (frame s.tt p).set i (symWord cfg.durW (symAct cfg.durW w) d))) →
    exec .decode ⟨cfg, s⟩ = .next ⟨cfg, t⟩ →
    ((d + s.tt.margin.toNat = nom ∨ d = nom + s.tt.margin.toNat) → t.code.isError = true) ∧
      ((d = nom ∨ d + (s.tt.margin.toNat - 1) = nom ∨ d = nom + (s.tt.margin.toNat - 1)) →
        t.code = .ok ∧ t.destList p.length = p)

/-! ### Shots -/

/-- SHOT_BUILD completes in every state: it writes the seven bytes of the frame of SEQ_TX to PAYLOAD, the sequence
number big-endian, adds 1 to SEQ_TX modulo 2^32, and changes nothing else (43_shot R210, R211, 30_encoding R108). -/
def Obligations.ShotBuildFormatsFrame : Prop :=
  ∀ (cfg : Config.Params) (s : Block cfg), ∃ t, exec .shotBuild ⟨cfg, s⟩ = .next ⟨cfg, t⟩ ∧
    t.payload 0 = 0x4C ∧ t.payload 1 = 0x54 ∧ t.payload 2 = 0x00 ∧
    (t.payload 3).toNat = s.seqTx.toNat / 2 ^ 24 ∧ (t.payload 4).toNat = s.seqTx.toNat / 2 ^ 16 % 256 ∧
    (t.payload 5).toNat = s.seqTx.toNat / 2 ^ 8 % 256 ∧ (t.payload 6).toNat = s.seqTx.toNat % 256 ∧
    t.seqTx.toNat = (s.seqTx.toNat + 1) % 2 ^ 32 ∧
    t = { s with
      seqTx := t.seqTx, mem := t.mem, res0 := s.seqTx, res1 := 0, code := .ok, lastOp := 0x04 } ∧
    ∀ a, (a < 0x0400 ∨ 0x0407 ≤ a) → t.byteAt a = s.byteAt a

/-- SHOT_CLASSIFY completes in every state: a fresh seven-byte decode with the shot header is a HIT when its big-endian
sequence number is SEQ_NEXT, which then advances modulo 2^32, and a MISS otherwise, which leaves SEQ_NEXT; anything else
is NOT_SHOT; and the frame is consumed (43_shot R213, R214, R215, R216, R217, R219, R222). -/
def Obligations.ShotClassifyOutcome : Prop :=
  ∀ (cfg : Config.Params) (s : Block cfg) (seq : Nat),
    seq = (s.dest 3).toNat * 2 ^ 24 + (s.dest 4).toNat * 2 ^ 16 + (s.dest 5).toNat * 2 ^ 8 + (s.dest 6).toNat →
    (s.dec.fresh = true ∧ s.dec.count.val = 7 ∧ s.dest 0 = 0x4C ∧ s.dest 1 = 0x54 ∧ s.dest 2 = 0x00 →
      seq = s.seqNext.toNat →
      exec .shotClassify ⟨cfg, s⟩ = .next ⟨cfg, { s with
        seqNext := s.seqNext + 1, dec := { s.dec with fresh := false }, res0 := 1, res1 := BitVec.ofNat 32 seq,
        code := .ok, lastOp := 0x05 }⟩) ∧
    (s.dec.fresh = true ∧ s.dec.count.val = 7 ∧ s.dest 0 = 0x4C ∧ s.dest 1 = 0x54 ∧ s.dest 2 = 0x00 →
      seq ≠ s.seqNext.toNat →
      exec .shotClassify ⟨cfg, s⟩ = .next ⟨cfg, { s with
        dec := { s.dec with fresh := false }, res0 := 2, res1 := BitVec.ofNat 32 seq, code := .ok, lastOp := 0x05 }⟩) ∧
    (¬ (s.dec.fresh = true ∧ s.dec.count.val = 7 ∧ s.dest 0 = 0x4C ∧ s.dest 1 = 0x54 ∧ s.dest 2 = 0x00) →
      exec .shotClassify ⟨cfg, s⟩ = .next ⟨cfg, { s with
        dec := { s.dec with fresh := false }, res0 := 0, res1 := 0, code := .ok, lastOp := 0x05 }⟩)

/-- Consumption (43_shot R218): every SHOT_CLASSIFY clears DEC_FRESH; while it is clear a SHOT_CLASSIFY is NOT_SHOT and
leaves SEQ_NEXT alone, and only a DECODE can set it again. -/
def Obligations.ShotClassifiedAtMostOnce : Prop :=
  ∀ (cfg : Config.Params) (s t : Block cfg), exec .shotClassify ⟨cfg, s⟩ = .next ⟨cfg, t⟩ →
    t.dec.fresh = false ∧ exec .shotClassify ⟨cfg, t⟩ =
        .next ⟨cfg, { t with res0 := 0, res1 := 0, code := .ok, lastOp := 0x05 }⟩ ∧
      ∀ (i : Instr) (u v : Block cfg), u.dec.fresh = false → i ≠ .decode → exec i ⟨cfg, u⟩ = .next ⟨cfg, v⟩ →
          v.dec.fresh = false

/-- The receiver extracts the number the sender packed (30_encoding R108, R109, 43_shot R210, R215). -/
def Obligations.SequenceOctetsRoundTrip : Prop :=
  ∀ seq : Word, seqOfBytes (seqByte seq 3) (seqByte seq 2) (seqByte seq 1) (seqByte seq 0) = seq

/-- The whole link: the sender builds a shot and encodes it in one slice; whatever receiver with the same parameters and
table holds those symbols in RXSYM decodes the seven bytes and classifies them as a HIT exactly when it expects that
number (43_shot R211, R213, R216, 41_encoder R155, 42_decoder R191). -/
def Obligations.ShotLinkEndToEnd : Prop :=
  ∀ (cfg : Config.Params) (s : Block cfg) (c : Word), s.Inv → s.ttValid = true → s.session.phase = .leader →
      58 ≤ c.toNat →
    c.toNat ≤ cfg.txsymMax →
    ∃ s1 s2, exec .shotBuild ⟨cfg, s⟩ = .next ⟨cfg, s1⟩ ∧ exec .encode ⟨cfg, { s1 with arg0 := 7, arg1 := c }⟩ =
        .next ⟨cfg, s2⟩ ∧
      s2.res0 = 58 ∧ s2.res1 = 1 ∧
      ∀ r : Block cfg, r.ttValid = true → r.tt = s.tt → r.arg0 = 58 → 7 ≤ r.arg1.toNat →
        r.arg1.toNat ≤ cfg.destMax → r.rxsymList 58 = s2.txsymList 58 →
        ∃ r1 r2, exec .decode ⟨cfg, r⟩ = .next ⟨cfg, r1⟩ ∧ r1.code = .ok ∧ r1.res0 = 7 ∧
            exec .shotClassify ⟨cfg, r1⟩ = .next ⟨cfg, r2⟩ ∧
          r2.res1 = s.seqTx ∧ (r.seqNext = s.seqTx → r2.res0 = 1 ∧ r2.seqNext = r.seqNext + 1) ∧
          (r.seqNext ≠ s.seqTx → r2.res0 = 2 ∧ r2.seqNext = r.seqNext)

/-- The time a payload takes on the line at 1,000,000 ticks a second: leader, `z` zero bits, `o` one bits and the
ending's active phase, and then the ending's idle of 65535 ticks, with the defaults of 00_scope R8 (70_reset R301,
30_encoding R103). -/
def Obligations.LineTimeOfPayload : Prop :=
  ∀ (t : TimingTable {}) (p : List Byte) (z o : Nat), t = buildTable {} 1000000 200 →
    o = (p.flatMap fun b => (List.range 8).map b.getLsbD).count true →
    z = (p.flatMap fun b => (List.range 8).map b.getLsbD).count false →
    z + o = 8 * p.length ∧
      lineTime 16 (frame t p) = 9000 + 4500 + z * 1120 + o * 2250 + 560 + 65535

/-! ### The whole machine -/

/-- The invariant holds right after power-on reset, whatever the parameters of the instance (log 6). -/
def Obligations.ResetHasInvariant : Prop :=
  State.reset.Inv ∧ ∀ cfg : Config.Params, cfg.wf = true → (State.resetWith cfg).Inv

/-- The parameters have the defaults of 00_scope R8, and no step changes them: they are arguments of the machine
(10_state R41). That the state carries them beside the block is the model's choice (log 6). -/
def Obligations.ParametersKeepTheirValues : Prop :=
  State.reset.params =
      { refRate := 1000000, durW := 16, endingIdle := 65535, payloadMax := 256, destMax := 256, txsymMax := 128,
        rxsymMax := 128 } ∧
    State.reset.params.durMax = 65535 ∧ ∀ s t : State, step s = .next t → t.params = s.params

/-- Every step keeps the invariant: the table is what CHAN_INIT built or all zero, the session is legal, a fresh decode
a successful one, and the memory is in canonical form and lists buffer bytes only (10_state R32, R34, R37, 20_memory
R62); PCUR is at most `PAYLOAD_MAX` and DEC_COUNT at most `DEST_MAX` by their types (R41). The memory's form is the
model's choice (log 3). -/
def Obligations.StepKeepsInvariant : Prop :=
  ∀ s t : State, s.Inv → step s = .next t → t.Inv

/-- SEQ_TX changes only by a SHOT_BUILD, which adds 1 modulo 2^32, and by POR, which sets it to 1 (10_state R35). -/
def Obligations.OnlyShotBuildMovesSeqTx : Prop :=
  ∀ (cfg : Config.Params) (s t : Block cfg), step ⟨cfg, s⟩ = .next ⟨cfg, t⟩ → t.seqTx ≠ s.seqTx →
    ((∃ rest, s.queue = .write 4 0x0000 0x00000004 :: rest) ∧ t.seqTx = s.seqTx + 1) ∨
      ((∃ rest, s.queue = .powerOn :: rest) ∧ t.seqTx = 1)

/-- SEQ_NEXT changes only by a SHOT_CLASSIFY that is a HIT, which adds 1 modulo 2^32, and by POR, which sets it to 1
(10_state R36, 43_shot R220). -/
def Obligations.OnlyHitMovesSeqNext : Prop :=
  ∀ (cfg : Config.Params) (s t : Block cfg), step ⟨cfg, s⟩ = .next ⟨cfg, t⟩ → t.seqNext ≠ s.seqNext →
    ((∃ rest, s.queue = .write 4 0x0000 0x00000005 :: rest) ∧ t.res0 = 1 ∧ t.seqNext = s.seqNext + 1) ∨
      ((∃ rest, s.queue = .powerOn :: rest) ∧ t.seqNext = 1)

/-- A run whose pending host accesses are all legal never faults: every step of it answers a next state, as long as the
queue lasts and after (20_memory R63, R67; 60_exceptions R258, R259). -/
def Obligations.LegalHostNeverFaults : Prop :=
  ∀ (cfg : Config.Params) (s : Block cfg) (k : Nat), s.hostIsLegal = true →
    ∃ t, runSteps k ⟨cfg, s⟩ = .next ⟨cfg, t⟩ ∧ t.queue = s.queue.drop k

/-! ### Host programs -/

/-- INIT, ENC and DEC run from an idle host port are their command run with the operands in ARG0 and ARG1 (30_encoding
R96, R97, R93). -/
def Obligations.PseudoInstructionsRun : Prop :=
  ∀ (cfg : Config.Params) (s : Block cfg) (a b : Word), s.queue = [] →
    runSteps 3 ⟨cfg, s.issue (expandStmt (.init a b))⟩ = exec .chanInit ⟨cfg, { s with arg0 := a, arg1 := b }⟩ ∧
    runSteps 3 ⟨cfg, s.issue (expandStmt (.enc a b))⟩ = exec .encode ⟨cfg, { s with arg0 := a, arg1 := b }⟩ ∧
    runSteps 3 ⟨cfg, s.issue (expandStmt (.dec a b))⟩ = exec .decode ⟨cfg, { s with arg0 := a, arg1 := b }⟩

/-- LOADPAY leaves its bytes in PAYLOAD from index 0, the last word filled with 0, and changes nothing else; LOADRX
leaves its words in RXSYM from index 0 and changes nothing else (30_encoding R97). -/
def Obligations.LoadStatementsFillBuffers : Prop :=
  (∀ (cfg : Config.Params) (s : Block cfg) (bs : List Byte), cfg.wf = true → s.queue = [] →
      (Stmt.loadpay bs).wf cfg = true →
      ∃ t, runSteps (expandStmt (.loadpay bs)).length ⟨cfg, s.issue (expandStmt (.loadpay bs))⟩ =
          .next ⟨cfg, t⟩ ∧
        t.payloadList bs.length = bs ∧
        (∀ i, bs.length ≤ i → i < 4 * ((bs.length + 3) / 4) → t.payload i = 0) ∧
        t = { s with mem := t.mem } ∧
        ∀ a, (a < 0x0400 ∨ 0x0400 + 4 * ((bs.length + 3) / 4) ≤ a) → t.byteAt a = s.byteAt a) ∧
  (∀ (cfg : Config.Params) (s : Block cfg) (ws : List Word), cfg.wf = true → s.queue = [] →
      (Stmt.loadrx ws).wf cfg = true →
      ∃ t, runSteps (expandStmt (.loadrx ws)).length ⟨cfg, s.issue (expandStmt (.loadrx ws))⟩ = .next ⟨cfg, t⟩ ∧
        t.rxsymList ws.length = ws ∧ t = { s with mem := t.mem } ∧
        ∀ a, (a < 0x2000 ∨ 0x2000 + 4 * ws.length ≤ a) → t.byteAt a = s.byteAt a)
end

