-- ==== Sys2Proof/Laws/State.lean ====
section
/-! SUPPORT. One lemma per field per update of the state, so that no later proof unfolds a record update. -/

namespace Sys2Proof.Machine

variable {cfg : Config.Params}

/-! ### The parameters -/

/-- What the parameters of an instance satisfy (log 6). -/
theorem paramsWf_iff {p : Config.Params} : p.wf = true ↔
    1 ≤ p.refRate ∧ 1 ≤ p.durW ∧ p.durW ≤ 16 ∧ p.endingIdle ≤ p.durMax ∧
      (7 ≤ p.payloadMax ∧ p.payloadMax ≤ 0x400 ∧ p.payloadMax % 4 = 0) ∧ (p.destMax ≤ 0x800 ∧ p.destMax % 4 = 0) ∧
      (1 ≤ p.txsymMax ∧ p.txsymMax ≤ 0x400) ∧ 58 ≤ p.rxsymMax ∧ p.rxsymMax ≤ 0x3800 := by
  simp only [Config.Params.wf, Config.shotLen, Bool.and_eq_true, decide_eq_true_eq, beq_iff_eq, and_assoc]

/-! ### The write-back of a command -/

section
variable (s : Block cfg) (op : Byte) (c : StatusCode) (r0 r1 : Word)

@[simp] theorem Block.finish_arg0 : (s.finish op c r0 r1).arg0 = s.arg0 := rfl
@[simp] theorem Block.finish_arg1 : (s.finish op c r0 r1).arg1 = s.arg1 := rfl
@[simp] theorem Block.finish_res0 : (s.finish op c r0 r1).res0 = r0 := rfl
@[simp] theorem Block.finish_res1 : (s.finish op c r0 r1).res1 = r1 := rfl
@[simp] theorem Block.finish_code : (s.finish op c r0 r1).code = c := rfl
@[simp] theorem Block.finish_lastOp : (s.finish op c r0 r1).lastOp = op := rfl
@[simp] theorem Block.finish_ttValid : (s.finish op c r0 r1).ttValid = s.ttValid := rfl
@[simp] theorem Block.finish_cfgRes : (s.finish op c r0 r1).cfgRes = s.cfgRes := rfl
@[simp] theorem Block.finish_cfgMargin : (s.finish op c r0 r1).cfgMargin = s.cfgMargin := rfl
@[simp] theorem Block.finish_tt : (s.finish op c r0 r1).tt = s.tt := rfl
@[simp] theorem Block.finish_session : (s.finish op c r0 r1).session = s.session := rfl
@[simp] theorem Block.finish_seqTx : (s.finish op c r0 r1).seqTx = s.seqTx := rfl
@[simp] theorem Block.finish_seqNext : (s.finish op c r0 r1).seqNext = s.seqNext := rfl
@[simp] theorem Block.finish_dec : (s.finish op c r0 r1).dec = s.dec := rfl
@[simp] theorem Block.finish_mem : (s.finish op c r0 r1).mem = s.mem := rfl
@[simp] theorem Block.finish_porDraw : (s.finish op c r0 r1).porDraw = s.porDraw := rfl
@[simp] theorem Block.finish_hostData : (s.finish op c r0 r1).hostData = s.hostData := rfl
@[simp] theorem Block.finish_queue : (s.finish op c r0 r1).queue = s.queue := rfl

end

/-! ### An error raised -/

section
variable (s : Block cfg) (op : Byte) (e : StatusCode)

@[simp] theorem Block.raise_arg0 : (s.raise op e).arg0 = s.arg0 := rfl
@[simp] theorem Block.raise_arg1 : (s.raise op e).arg1 = s.arg1 := rfl
@[simp] theorem Block.raise_res0 : (s.raise op e).res0 = 0 := rfl
@[simp] theorem Block.raise_res1 : (s.raise op e).res1 = 0 := rfl
@[simp] theorem Block.raise_code : (s.raise op e).code = e := rfl
@[simp] theorem Block.raise_lastOp : (s.raise op e).lastOp = op := rfl
@[simp] theorem Block.raise_ttValid : (s.raise op e).ttValid = s.ttValid := rfl
@[simp] theorem Block.raise_cfgRes : (s.raise op e).cfgRes = s.cfgRes := rfl
@[simp] theorem Block.raise_cfgMargin : (s.raise op e).cfgMargin = s.cfgMargin := rfl
@[simp] theorem Block.raise_tt : (s.raise op e).tt = s.tt := rfl
@[simp] theorem Block.raise_session : (s.raise op e).session = s.session := rfl
@[simp] theorem Block.raise_seqTx : (s.raise op e).seqTx = s.seqTx := rfl
@[simp] theorem Block.raise_seqNext : (s.raise op e).seqNext = s.seqNext := rfl
@[simp] theorem Block.raise_dec : (s.raise op e).dec = s.dec := rfl
@[simp] theorem Block.raise_mem : (s.raise op e).mem = s.mem := rfl
@[simp] theorem Block.raise_porDraw : (s.raise op e).porDraw = s.porDraw := rfl
@[simp] theorem Block.raise_hostData : (s.raise op e).hostData = s.hostData := rfl
@[simp] theorem Block.raise_queue : (s.raise op e).queue = s.queue := rfl

end

/-! ### DEC_RESULT written -/

section
variable (s : Block cfg) (k : Nat) (c : StatusCode) (b : Bool)

@[simp] theorem Block.setDecResult_arg0 : (s.setDecResult k c b).arg0 = s.arg0 := rfl
@[simp] theorem Block.setDecResult_arg1 : (s.setDecResult k c b).arg1 = s.arg1 := rfl
@[simp] theorem Block.setDecResult_res0 : (s.setDecResult k c b).res0 = s.res0 := rfl
@[simp] theorem Block.setDecResult_res1 : (s.setDecResult k c b).res1 = s.res1 := rfl
@[simp] theorem Block.setDecResult_code : (s.setDecResult k c b).code = s.code := rfl
@[simp] theorem Block.setDecResult_lastOp : (s.setDecResult k c b).lastOp = s.lastOp := rfl
@[simp] theorem Block.setDecResult_ttValid : (s.setDecResult k c b).ttValid = s.ttValid := rfl
@[simp] theorem Block.setDecResult_cfgRes : (s.setDecResult k c b).cfgRes = s.cfgRes := rfl
@[simp] theorem Block.setDecResult_cfgMargin : (s.setDecResult k c b).cfgMargin = s.cfgMargin := rfl
@[simp] theorem Block.setDecResult_tt : (s.setDecResult k c b).tt = s.tt := rfl
@[simp] theorem Block.setDecResult_session : (s.setDecResult k c b).session = s.session := rfl
@[simp] theorem Block.setDecResult_seqTx : (s.setDecResult k c b).seqTx = s.seqTx := rfl
@[simp] theorem Block.setDecResult_seqNext : (s.setDecResult k c b).seqNext = s.seqNext := rfl
@[simp] theorem Block.setDecResult_dec : (s.setDecResult k c b).dec = ⟨Fin.ofNat _ k, c, b⟩ := rfl
@[simp] theorem Block.setDecResult_mem : (s.setDecResult k c b).mem = s.mem := rfl
@[simp] theorem Block.setDecResult_porDraw : (s.setDecResult k c b).porDraw = s.porDraw := rfl
@[simp] theorem Block.setDecResult_hostData : (s.setDecResult k c b).hostData = s.hostData := rfl
@[simp] theorem Block.setDecResult_queue : (s.setDecResult k c b).queue = s.queue := rfl

end

/-! ### A DECODE that fails -/

section
variable (s : Block cfg) (op : Byte) (e : StatusCode)

@[simp] theorem Block.failDecode_arg0 : (s.failDecode op e).arg0 = s.arg0 := rfl
@[simp] theorem Block.failDecode_arg1 : (s.failDecode op e).arg1 = s.arg1 := rfl
@[simp] theorem Block.failDecode_res0 : (s.failDecode op e).res0 = 0 := rfl
@[simp] theorem Block.failDecode_res1 : (s.failDecode op e).res1 = 0 := rfl
@[simp] theorem Block.failDecode_code : (s.failDecode op e).code = e := rfl
@[simp] theorem Block.failDecode_lastOp : (s.failDecode op e).lastOp = op := rfl
@[simp] theorem Block.failDecode_ttValid : (s.failDecode op e).ttValid = s.ttValid := rfl
@[simp] theorem Block.failDecode_cfgRes : (s.failDecode op e).cfgRes = s.cfgRes := rfl
@[simp] theorem Block.failDecode_cfgMargin : (s.failDecode op e).cfgMargin = s.cfgMargin := rfl
@[simp] theorem Block.failDecode_tt : (s.failDecode op e).tt = s.tt := rfl
@[simp] theorem Block.failDecode_session : (s.failDecode op e).session = s.session := rfl
@[simp] theorem Block.failDecode_seqTx : (s.failDecode op e).seqTx = s.seqTx := rfl
@[simp] theorem Block.failDecode_seqNext : (s.failDecode op e).seqNext = s.seqNext := rfl
@[simp] theorem Block.failDecode_dec : (s.failDecode op e).dec = ⟨0, e, false⟩ := rfl
@[simp] theorem Block.failDecode_mem : (s.failDecode op e).mem = s.mem := rfl
@[simp] theorem Block.failDecode_porDraw : (s.failDecode op e).porDraw = s.porDraw := rfl
@[simp] theorem Block.failDecode_hostData : (s.failDecode op e).hostData = s.hostData := rfl
@[simp] theorem Block.failDecode_queue : (s.failDecode op e).queue = s.queue := rfl

end

/-! ### An illegal command word -/

section
variable (s : Block cfg) (w : Word)

@[simp] theorem Block.illegalCommand_arg0 : (s.illegalCommand w).arg0 = s.arg0 := rfl
@[simp] theorem Block.illegalCommand_arg1 : (s.illegalCommand w).arg1 = s.arg1 := rfl
@[simp] theorem Block.illegalCommand_res0 : (s.illegalCommand w).res0 = 0 := rfl
@[simp] theorem Block.illegalCommand_res1 : (s.illegalCommand w).res1 = 0 := rfl
@[simp] theorem Block.illegalCommand_code : (s.illegalCommand w).code = .illegalCommand := rfl
@[simp] theorem Block.illegalCommand_lastOp : (s.illegalCommand w).lastOp = opField w := rfl
@[simp] theorem Block.illegalCommand_ttValid : (s.illegalCommand w).ttValid = s.ttValid := rfl
@[simp] theorem Block.illegalCommand_cfgRes : (s.illegalCommand w).cfgRes = s.cfgRes := rfl
@[simp] theorem Block.illegalCommand_cfgMargin : (s.illegalCommand w).cfgMargin = s.cfgMargin := rfl
@[simp] theorem Block.illegalCommand_tt : (s.illegalCommand w).tt = s.tt := rfl
@[simp] theorem Block.illegalCommand_session : (s.illegalCommand w).session = s.session := rfl
@[simp] theorem Block.illegalCommand_seqTx : (s.illegalCommand w).seqTx = s.seqTx := rfl
@[simp] theorem Block.illegalCommand_seqNext : (s.illegalCommand w).seqNext = s.seqNext := rfl
@[simp] theorem Block.illegalCommand_dec : (s.illegalCommand w).dec = s.dec := rfl
@[simp] theorem Block.illegalCommand_mem : (s.illegalCommand w).mem = s.mem := rfl
@[simp] theorem Block.illegalCommand_porDraw : (s.illegalCommand w).porDraw = s.porDraw := rfl
@[simp] theorem Block.illegalCommand_hostData : (s.illegalCommand w).hostData = s.hostData := rfl
@[simp] theorem Block.illegalCommand_queue : (s.illegalCommand w).queue = s.queue := rfl

end

/-! ### The table built -/

section
variable (s : Block cfg)

@[simp] theorem Block.initChannel_arg0 : (s.initChannel).arg0 = s.arg0 := rfl
@[simp] theorem Block.initChannel_arg1 : (s.initChannel).arg1 = s.arg1 := rfl
@[simp] theorem Block.initChannel_res0 : (s.initChannel).res0 = s.res0 := rfl
@[simp] theorem Block.initChannel_res1 : (s.initChannel).res1 = s.res1 := rfl
@[simp] theorem Block.initChannel_code : (s.initChannel).code = s.code := rfl
@[simp] theorem Block.initChannel_lastOp : (s.initChannel).lastOp = s.lastOp := rfl
@[simp] theorem Block.initChannel_ttValid : (s.initChannel).ttValid = true := rfl
@[simp] theorem Block.initChannel_cfgRes : (s.initChannel).cfgRes = s.arg0 := rfl
@[simp] theorem Block.initChannel_cfgMargin : (s.initChannel).cfgMargin = s.arg1 := rfl
@[simp] theorem Block.initChannel_tt : (s.initChannel).tt = buildTable cfg s.opRes s.opMargin := rfl
@[simp] theorem Block.initChannel_session : (s.initChannel).session = ⟨.leader, 0, 0⟩ := rfl
@[simp] theorem Block.initChannel_seqTx : (s.initChannel).seqTx = s.seqTx := rfl
@[simp] theorem Block.initChannel_seqNext : (s.initChannel).seqNext = s.seqNext := rfl
@[simp] theorem Block.initChannel_dec : (s.initChannel).dec = s.dec := rfl
@[simp] theorem Block.initChannel_mem : (s.initChannel).mem = s.mem := rfl
@[simp] theorem Block.initChannel_porDraw : (s.initChannel).porDraw = s.porDraw := rfl
@[simp] theorem Block.initChannel_hostData : (s.initChannel).hostData = s.hostData := rfl
@[simp] theorem Block.initChannel_queue : (s.initChannel).queue = s.queue := rfl

end

/-! ### One byte of a buffer written -/

section
variable (s : Block cfg) (a : Nat) (v : Byte)

@[simp] theorem Block.setByte_arg0 : (s.setByte a v).arg0 = s.arg0 := rfl
@[simp] theorem Block.setByte_arg1 : (s.setByte a v).arg1 = s.arg1 := rfl
@[simp] theorem Block.setByte_res0 : (s.setByte a v).res0 = s.res0 := rfl
@[simp] theorem Block.setByte_res1 : (s.setByte a v).res1 = s.res1 := rfl
@[simp] theorem Block.setByte_code : (s.setByte a v).code = s.code := rfl
@[simp] theorem Block.setByte_lastOp : (s.setByte a v).lastOp = s.lastOp := rfl
@[simp] theorem Block.setByte_ttValid : (s.setByte a v).ttValid = s.ttValid := rfl
@[simp] theorem Block.setByte_cfgRes : (s.setByte a v).cfgRes = s.cfgRes := rfl
@[simp] theorem Block.setByte_cfgMargin : (s.setByte a v).cfgMargin = s.cfgMargin := rfl
@[simp] theorem Block.setByte_tt : (s.setByte a v).tt = s.tt := rfl
@[simp] theorem Block.setByte_session : (s.setByte a v).session = s.session := rfl
@[simp] theorem Block.setByte_seqTx : (s.setByte a v).seqTx = s.seqTx := rfl
@[simp] theorem Block.setByte_seqNext : (s.setByte a v).seqNext = s.seqNext := rfl
@[simp] theorem Block.setByte_dec : (s.setByte a v).dec = s.dec := rfl
@[simp] theorem Block.setByte_mem : (s.setByte a v).mem = s.mem.write a v := rfl
@[simp] theorem Block.setByte_porDraw : (s.setByte a v).porDraw = s.porDraw := rfl
@[simp] theorem Block.setByte_hostData : (s.setByte a v).hostData = s.hostData := rfl
@[simp] theorem Block.setByte_queue : (s.setByte a v).queue = s.queue := rfl

end

/-! ### Power-on reset -/

section
variable (s : Block cfg)

@[simp] theorem Block.powerOnReset_arg0 : (s.powerOnReset).arg0 = 0 := rfl
@[simp] theorem Block.powerOnReset_arg1 : (s.powerOnReset).arg1 = 0 := rfl
@[simp] theorem Block.powerOnReset_res0 : (s.powerOnReset).res0 = 0 := rfl
@[simp] theorem Block.powerOnReset_res1 : (s.powerOnReset).res1 = 0 := rfl
@[simp] theorem Block.powerOnReset_code : (s.powerOnReset).code = .ok := rfl
@[simp] theorem Block.powerOnReset_lastOp : (s.powerOnReset).lastOp = 0 := rfl
@[simp] theorem Block.powerOnReset_ttValid : (s.powerOnReset).ttValid = false := rfl
@[simp] theorem Block.powerOnReset_cfgRes : (s.powerOnReset).cfgRes = 0 := rfl
@[simp] theorem Block.powerOnReset_cfgMargin : (s.powerOnReset).cfgMargin = 0 := rfl
@[simp] theorem Block.powerOnReset_tt : (s.powerOnReset).tt = ⟨0, 0, 0, 0, 0, 0, 0, 0⟩ := rfl
@[simp] theorem Block.powerOnReset_session : (s.powerOnReset).session = ⟨.leader, 0, 0⟩ := rfl
@[simp] theorem Block.powerOnReset_seqTx : (s.powerOnReset).seqTx = 1 := rfl
@[simp] theorem Block.powerOnReset_seqNext : (s.powerOnReset).seqNext = 1 := rfl
@[simp] theorem Block.powerOnReset_dec : (s.powerOnReset).dec = ⟨0, .ok, false⟩ := rfl
@[simp] theorem Block.powerOnReset_mem : (s.powerOnReset).mem = [] := rfl
@[simp] theorem Block.powerOnReset_porDraw : (s.powerOnReset).porDraw = s.porDraw + 1 := rfl
@[simp] theorem Block.powerOnReset_hostData : (s.powerOnReset).hostData = none := rfl
@[simp] theorem Block.powerOnReset_queue : (s.powerOnReset).queue = s.queue := rfl

end

/-! ### Host accesses appended -/

section
variable (s : Block cfg) (hs : List HostAccess)

@[simp] theorem Block.issue_arg0 : (s.issue hs).arg0 = s.arg0 := rfl
@[simp] theorem Block.issue_arg1 : (s.issue hs).arg1 = s.arg1 := rfl
@[simp] theorem Block.issue_res0 : (s.issue hs).res0 = s.res0 := rfl
@[simp] theorem Block.issue_res1 : (s.issue hs).res1 = s.res1 := rfl
@[simp] theorem Block.issue_code : (s.issue hs).code = s.code := rfl
@[simp] theorem Block.issue_lastOp : (s.issue hs).lastOp = s.lastOp := rfl
@[simp] theorem Block.issue_ttValid : (s.issue hs).ttValid = s.ttValid := rfl
@[simp] theorem Block.issue_cfgRes : (s.issue hs).cfgRes = s.cfgRes := rfl
@[simp] theorem Block.issue_cfgMargin : (s.issue hs).cfgMargin = s.cfgMargin := rfl
@[simp] theorem Block.issue_tt : (s.issue hs).tt = s.tt := rfl
@[simp] theorem Block.issue_session : (s.issue hs).session = s.session := rfl
@[simp] theorem Block.issue_seqTx : (s.issue hs).seqTx = s.seqTx := rfl
@[simp] theorem Block.issue_seqNext : (s.issue hs).seqNext = s.seqNext := rfl
@[simp] theorem Block.issue_dec : (s.issue hs).dec = s.dec := rfl
@[simp] theorem Block.issue_mem : (s.issue hs).mem = s.mem := rfl
@[simp] theorem Block.issue_porDraw : (s.issue hs).porDraw = s.porDraw := rfl
@[simp] theorem Block.issue_hostData : (s.issue hs).hostData = s.hostData := rfl
@[simp] theorem Block.issue_queue : (s.issue hs).queue = s.queue ++ hs := rfl

end

end Sys2Proof.Machine
end

