-- ==== Sys2Proof/Laws/Memory.lean ====
section
/-! SUPPORT. The memory: a read after a write, and the canonical form that every operation keeps. -/

namespace Sys2Proof.Machine

variable {cfg : Config.Params}

/-! ### The list of cells -/

@[simp] theorem Memory.read?_nil (a : Nat) : Memory.read? [] a = none := rfl

theorem Memory.read?_cons (b : Nat) (v : Byte) (m : Memory) (a : Nat) :
    Memory.read? ((b, v) :: m) a = if b = a then some v else Memory.read? m a := rfl

/-- A cell written reads back as written. -/
@[simp] theorem Memory.read?_write_same (m : Memory) (a : Nat) (v : Byte) : (m.write a v).read? a = some v := by
  induction m with
  | nil => simp [Memory.write, Memory.read?]
  | cons c m ih =>
    obtain ⟨b, w⟩ := c
    unfold Memory.write
    split
    · simp [Memory.read?]
    · split
      · simp [Memory.read?]
      · rename_i h
        rw [Memory.read?_cons, if_neg (fun e => h e.symm), ih]

/-- A write leaves every other cell as it was. -/
theorem Memory.read?_write_other (m : Memory) {a b : Nat} (v : Byte) (h : b ≠ a) :
    (m.write a v).read? b = m.read? b := by
  induction m with
  | nil => simp [Memory.write, Memory.read?, Ne.symm h]
  | cons c m ih =>
    obtain ⟨d, w⟩ := c
    unfold Memory.write
    split
    · rw [Memory.read?_cons, if_neg (Ne.symm h)]
    · split
      · rename_i e
        subst e
        rw [Memory.read?_cons, Memory.read?_cons, if_neg (Ne.symm h), if_neg (Ne.symm h)]
      · rw [Memory.read?_cons, Memory.read?_cons, ih]

/-- The canonical form as a fact about all cells: it holds of the rest, and the first address is below every other. -/
theorem Memory.wf_cons {a : Nat} {v : Byte} {m : Memory} :
    Memory.wf ((a, v) :: m) = true ↔ Memory.wf m = true ∧ ∀ c ∈ m.head?, a < c.1 := by
  cases m with
  | nil => simp [Memory.wf]
  | cons c m => obtain ⟨b, w⟩ := c; simp [Memory.wf, and_comm]

theorem Memory.head?_write (m : Memory) (a : Nat) (v : Byte) :
    ∀ c ∈ (m.write a v).head?, c.1 = a ∨ c ∈ m.head? := by
  cases m with
  | nil => simp [Memory.write]
  | cons c m =>
    obtain ⟨b, w⟩ := c
    unfold Memory.write
    split
    · simp
    · split <;> simp

/-- A write keeps the canonical form. -/
theorem Memory.wf_write {m : Memory} (a : Nat) (v : Byte) (h : m.wf = true) : (m.write a v).wf = true := by
  induction m with
  | nil => rfl
  | cons c m ih =>
    obtain ⟨b, w⟩ := c
    have hm := Memory.wf_cons.mp h
    unfold Memory.write
    split
    · rename_i hlt
      exact Memory.wf_cons.mpr ⟨h, by simpa using hlt⟩
    · split
      · rename_i e
        subst e
        exact Memory.wf_cons.mpr hm
      · rename_i hlt hne
        refine Memory.wf_cons.mpr ⟨ih hm.1, fun d hd => ?_⟩
        rcases Memory.head?_write m a v d hd with e | e
        · simp only [e]; omega
        · exact hm.2 d e

/-- A write adds no address but its own. -/
theorem Memory.all_write (p : Nat → Bool) (m : Memory) (a : Nat) (v : Byte) (ha : p a = true)
    (h : m.all (fun c => p c.1) = true) : (m.write a v).all (fun c => p c.1) = true := by
  induction m with
  | nil => simpa [Memory.write] using ha
  | cons c m ih =>
    obtain ⟨b, w⟩ := c
    simp only [List.all_cons, Bool.and_eq_true] at h
    unfold Memory.write
    split
    · simp [ha, h.1, h.2]
    · split
      · simp [ha, h.2]
      · simp [h.1, ih h.2]

/-! ### Bytes of the buffers -/

@[simp] theorem Block.byteAt_setByte_same (s : Block cfg) (a : Nat) (v : Byte) : (s.setByte a v).byteAt a = v := by
  simp [Block.byteAt]

theorem Block.byteAt_setByte_other (s : Block cfg) {a b : Nat} (v : Byte) (h : b ≠ a) :
    (s.setByte a v).byteAt b = s.byteAt b := by
  simp [Block.byteAt, Memory.read?_write_other s.mem v h]

theorem Block.byteAt_setByte (s : Block cfg) (a b : Nat) (v : Byte) :
    (s.setByte a v).byteAt b = if b = a then v else s.byteAt b := by
  split
  · rename_i h; subst h; simp
  · rename_i h; exact s.byteAt_setByte_other v h

/-- A read of a buffer byte looks at the memory and the draw alone. -/
theorem Block.byteAt_congr {s t : Block cfg} (hm : s.mem = t.mem) (hd : s.porDraw = t.porDraw) (a : Nat) :
    s.byteAt a = t.byteAt a := by
  simp [Block.byteAt, hm, hd]

theorem Block.wordAt_congr {s t : Block cfg} (hm : s.mem = t.mem) (hd : s.porDraw = t.porDraw) (a : Nat) :
    s.wordAt a = t.wordAt a := by
  simp [Block.wordAt, Block.byteAt_congr hm hd]

end Sys2Proof.Machine
end

