-- ==== Sys2Proof/Laws/Ops.lean ====
section
/-! SUPPORT. The shared operations over buffers: for each, what it leaves alone, what it reads back as, and that it
keeps the canonical form. -/

namespace Sys2Proof.Machine

variable {cfg : Config.Params}

/-! ### Host words and symbol words -/

/-- A word is the word of its four bytes. -/
@[simp] theorem wordOfBytes_wordByte (w : Word) :
    wordOfBytes (wordByte w 0) (wordByte w 1) (wordByte w 2) (wordByte w 3) = w := by
  apply BitVec.eq_of_getLsbD_eq
  intro i hi
  simp only [wordOfBytes, wordByte, BitVec.getLsbD_append, BitVec.getLsbD_extractLsb']
  split
  · rename_i h; simp [h]
  · split
    · rename_i h1 h2
      have e : 8 * 1 + (i - 8) = i := by omega
      simp [h2, e]
    · split
      · rename_i h1 h2 h3
        have e : 8 * 2 + (i - 8 - 8) = i := by omega
        simp [h3, e]
      · rename_i h1 h2 h3
        have e : 8 * 3 + (i - 8 - 8 - 8) = i := by omega
        have h4 : i - 8 - 8 - 8 < 8 := by omega
        simp [h4, e]

/-- Two words with the same four bytes are the same word. -/
theorem wordOfBytes_congr {a0 a1 a2 a3 b0 b1 b2 b3 : Byte} (h0 : a0 = b0) (h1 : a1 = b1) (h2 : a2 = b2) (h3 : a3 = b3) :
    wordOfBytes a0 a1 a2 a3 = wordOfBytes b0 b1 b2 b3 := by
  subst h0 h1 h2 h3; rfl

/-- A symbol word as a number, its two fields within the word (30_encoding R100). -/
theorem symWord_toNat {dw : Nat} (h : dw ≤ 16) (a i : Nat) :
    (symWord dw a i).toNat = i % 2 ^ dw * 2 ^ dw + a % 2 ^ dw := by
  have hp := Nat.two_pow_pos dw
  have hd : 2 ^ dw ≤ 2 ^ 16 := Nat.pow_le_pow_right (by omega) h
  have ha := Nat.mod_lt a hp
  have hi := Nat.mod_lt i hp
  have : i % 2 ^ dw * 2 ^ dw + a % 2 ^ dw < 2 ^ dw * 2 ^ dw := by nlinarith
  have : 2 ^ dw * 2 ^ dw ≤ 2 ^ 16 * 2 ^ 16 := Nat.mul_le_mul hd hd
  rw [symWord, BitVec.toNat_ofNat, Nat.mod_eq_of_lt (by omega)]

/-- The active field of a symbol word (30_encoding R100). -/
theorem symAct_symWord {dw : Nat} (h : dw ≤ 16) (a i : Nat) : symAct dw (symWord dw a i) = a % 2 ^ dw := by
  rw [symAct, symWord_toNat h, Nat.mul_add_mod_self_right, Nat.mod_mod]

/-- The idle field of a symbol word (30_encoding R100). -/
theorem symIdle_symWord {dw : Nat} (h : dw ≤ 16) (a i : Nat) : symIdle dw (symWord dw a i) = i % 2 ^ dw := by
  have hp := Nat.two_pow_pos dw
  rw [symIdle, symWord_toNat h, Nat.add_comm, Nat.add_mul_div_right _ _ hp, Nat.div_eq_of_lt (Nat.mod_lt a hp),
    Nat.zero_add, Nat.mod_mod]

/-- A duration field holds at most `DUR_MAX` ticks (30_encoding R100). -/
theorem symAct_le (p : Config.Params) (w : Word) : symAct p.durW w ≤ p.durMax :=
  Nat.le_sub_one_of_lt (Nat.mod_lt _ (Nat.two_pow_pos _))

theorem symIdle_le (p : Config.Params) (w : Word) : symIdle p.durW w ≤ p.durMax :=
  Nat.le_sub_one_of_lt (Nat.mod_lt _ (Nat.two_pow_pos _))

/-! ### One word -/

@[simp] theorem Block.setWord_arg0 (s : Block cfg) (a : Nat) (v : Word) : (s.setWord a v).arg0 = s.arg0 := by
  simp only [Block.setWord, Block.setByte_arg0]
@[simp] theorem Block.setWord_arg1 (s : Block cfg) (a : Nat) (v : Word) : (s.setWord a v).arg1 = s.arg1 := by
  simp only [Block.setWord, Block.setByte_arg1]
@[simp] theorem Block.setWord_res0 (s : Block cfg) (a : Nat) (v : Word) : (s.setWord a v).res0 = s.res0 := by
  simp only [Block.setWord, Block.setByte_res0]
@[simp] theorem Block.setWord_res1 (s : Block cfg) (a : Nat) (v : Word) : (s.setWord a v).res1 = s.res1 := by
  simp only [Block.setWord, Block.setByte_res1]
@[simp] theorem Block.setWord_code (s : Block cfg) (a : Nat) (v : Word) : (s.setWord a v).code = s.code := by
  simp only [Block.setWord, Block.setByte_code]
@[simp] theorem Block.setWord_lastOp (s : Block cfg) (a : Nat) (v : Word) : (s.setWord a v).lastOp = s.lastOp := by
  simp only [Block.setWord, Block.setByte_lastOp]
@[simp] theorem Block.setWord_ttValid (s : Block cfg) (a : Nat) (v : Word) : (s.setWord a v).ttValid = s.ttValid := by
  simp only [Block.setWord, Block.setByte_ttValid]
@[simp] theorem Block.setWord_cfgRes (s : Block cfg) (a : Nat) (v : Word) : (s.setWord a v).cfgRes = s.cfgRes := by
  simp only [Block.setWord, Block.setByte_cfgRes]
@[simp] theorem Block.setWord_cfgMargin (s : Block cfg) (a : Nat) (v : Word) :
    (s.setWord a v).cfgMargin = s.cfgMargin := by
  simp only [Block.setWord, Block.setByte_cfgMargin]
@[simp] theorem Block.setWord_tt (s : Block cfg) (a : Nat) (v : Word) : (s.setWord a v).tt = s.tt := by
  simp only [Block.setWord, Block.setByte_tt]
@[simp] theorem Block.setWord_session (s : Block cfg) (a : Nat) (v : Word) : (s.setWord a v).session = s.session := by
  simp only [Block.setWord, Block.setByte_session]
@[simp] theorem Block.setWord_seqTx (s : Block cfg) (a : Nat) (v : Word) : (s.setWord a v).seqTx = s.seqTx := by
  simp only [Block.setWord, Block.setByte_seqTx]
@[simp] theorem Block.setWord_seqNext (s : Block cfg) (a : Nat) (v : Word) : (s.setWord a v).seqNext = s.seqNext := by
  simp only [Block.setWord, Block.setByte_seqNext]
@[simp] theorem Block.setWord_dec (s : Block cfg) (a : Nat) (v : Word) : (s.setWord a v).dec = s.dec := by
  simp only [Block.setWord, Block.setByte_dec]
@[simp] theorem Block.setWord_porDraw (s : Block cfg) (a : Nat) (v : Word) : (s.setWord a v).porDraw = s.porDraw := by
  simp only [Block.setWord, Block.setByte_porDraw]
@[simp] theorem Block.setWord_hostData (s : Block cfg) (a : Nat) (v : Word) :
    (s.setWord a v).hostData = s.hostData := by
  simp only [Block.setWord, Block.setByte_hostData]
@[simp] theorem Block.setWord_queue (s : Block cfg) (a : Nat) (v : Word) : (s.setWord a v).queue = s.queue := by
  simp only [Block.setWord, Block.setByte_queue]

/-- A word written changes the memory and nothing else. -/
theorem Block.setWord_eq (s : Block cfg) (a : Nat) (v : Word) :
    s.setWord a v = { s with mem := (s.setWord a v).mem } := by
  simp only [Block.setWord, Block.setByte]

/-- A word written changes no byte outside its four. -/
theorem Block.byteAt_setWord_other (s : Block cfg) {a b : Nat} (v : Word) (h : b < a ∨ a + 4 ≤ b) :
    (s.setWord a v).byteAt b = s.byteAt b := by
  simp only [Block.setWord]
  rw [Block.byteAt_setByte_other _ _ (by omega), Block.byteAt_setByte_other _ _ (by omega),
    Block.byteAt_setByte_other _ _ (by omega), Block.byteAt_setByte_other _ _ (by omega)]

/-- Byte `j` of a word written is bits `8j+7 : 8j` of it (20_memory R64). -/
theorem Block.byteAt_setWord (s : Block cfg) (a : Nat) (v : Word) {j : Nat} (h : j < 4) :
    (s.setWord a v).byteAt (a + j) = wordByte v j := by
  simp only [Block.setWord, Block.byteAt_setByte]
  obtain rfl | rfl | rfl | rfl : j = 0 ∨ j = 1 ∨ j = 2 ∨ j = 3 := by omega
  all_goals simp

/-- A word written reads back as written (20_memory R66, R81). -/
@[simp] theorem Block.wordAt_setWord_same (s : Block cfg) (a : Nat) (v : Word) : (s.setWord a v).wordAt a = v := by
  have h0 := s.byteAt_setWord a v (j := 0) (by omega)
  have h1 := s.byteAt_setWord a v (j := 1) (by omega)
  have h2 := s.byteAt_setWord a v (j := 2) (by omega)
  have h3 := s.byteAt_setWord a v (j := 3) (by omega)
  simp only [Nat.add_zero] at h0
  simp only [Block.wordAt, h0, h1, h2, h3, wordOfBytes_wordByte]

/-- A word written changes no word disjoint from it. -/
theorem Block.wordAt_setWord_other (s : Block cfg) {a b : Nat} (v : Word) (h : b + 4 ≤ a ∨ a + 4 ≤ b) :
    (s.setWord a v).wordAt b = s.wordAt b := by
  simp only [Block.wordAt]
  rw [Block.byteAt_setWord_other _ _ (by omega), Block.byteAt_setWord_other _ _ (by omega),
    Block.byteAt_setWord_other _ _ (by omega), Block.byteAt_setWord_other _ _ (by omega)]

/-! ### Runs of bytes and of words -/

/-- Bytes written change the memory and nothing else. -/
theorem Block.setBytes_eq (s : Block cfg) (a : Nat) (bs : List Byte) :
    s.setBytes a bs = { s with mem := (s.setBytes a bs).mem } := by
  induction bs generalizing s a with
  | nil => rfl
  | cons b bs ih => simp only [Block.setBytes]; rw [ih]; rfl

/-- Words written change the memory and nothing else. -/
theorem Block.setWords_eq (s : Block cfg) (a : Nat) (ws : List Word) :
    s.setWords a ws = { s with mem := (s.setWords a ws).mem } := by
  induction ws generalizing s a with
  | nil => rfl
  | cons w ws ih => simp only [Block.setWords]; rw [ih]; simp only [Block.setWord, Block.setByte]

section
variable (s : Block cfg) (a : Nat) (bs : List Byte)

@[simp] theorem Block.setBytes_arg0 : (s.setBytes a bs).arg0 = s.arg0 := by rw [Block.setBytes_eq]
@[simp] theorem Block.setBytes_arg1 : (s.setBytes a bs).arg1 = s.arg1 := by rw [Block.setBytes_eq]
@[simp] theorem Block.setBytes_res0 : (s.setBytes a bs).res0 = s.res0 := by rw [Block.setBytes_eq]
@[simp] theorem Block.setBytes_res1 : (s.setBytes a bs).res1 = s.res1 := by rw [Block.setBytes_eq]
@[simp] theorem Block.setBytes_code : (s.setBytes a bs).code = s.code := by rw [Block.setBytes_eq]
@[simp] theorem Block.setBytes_lastOp : (s.setBytes a bs).lastOp = s.lastOp := by rw [Block.setBytes_eq]
@[simp] theorem Block.setBytes_ttValid : (s.setBytes a bs).ttValid = s.ttValid := by rw [Block.setBytes_eq]
@[simp] theorem Block.setBytes_cfgRes : (s.setBytes a bs).cfgRes = s.cfgRes := by rw [Block.setBytes_eq]
@[simp] theorem Block.setBytes_cfgMargin : (s.setBytes a bs).cfgMargin = s.cfgMargin := by rw [Block.setBytes_eq]
@[simp] theorem Block.setBytes_tt : (s.setBytes a bs).tt = s.tt := by rw [Block.setBytes_eq]
@[simp] theorem Block.setBytes_session : (s.setBytes a bs).session = s.session := by rw [Block.setBytes_eq]
@[simp] theorem Block.setBytes_seqTx : (s.setBytes a bs).seqTx = s.seqTx := by rw [Block.setBytes_eq]
@[simp] theorem Block.setBytes_seqNext : (s.setBytes a bs).seqNext = s.seqNext := by rw [Block.setBytes_eq]
@[simp] theorem Block.setBytes_dec : (s.setBytes a bs).dec = s.dec := by rw [Block.setBytes_eq]
@[simp] theorem Block.setBytes_porDraw : (s.setBytes a bs).porDraw = s.porDraw := by rw [Block.setBytes_eq]
@[simp] theorem Block.setBytes_hostData : (s.setBytes a bs).hostData = s.hostData := by rw [Block.setBytes_eq]
@[simp] theorem Block.setBytes_queue : (s.setBytes a bs).queue = s.queue := by rw [Block.setBytes_eq]

end

section
variable (s : Block cfg) (a : Nat) (ws : List Word)

@[simp] theorem Block.setWords_arg0 : (s.setWords a ws).arg0 = s.arg0 := by rw [Block.setWords_eq]
@[simp] theorem Block.setWords_arg1 : (s.setWords a ws).arg1 = s.arg1 := by rw [Block.setWords_eq]
@[simp] theorem Block.setWords_res0 : (s.setWords a ws).res0 = s.res0 := by rw [Block.setWords_eq]
@[simp] theorem Block.setWords_res1 : (s.setWords a ws).res1 = s.res1 := by rw [Block.setWords_eq]
@[simp] theorem Block.setWords_code : (s.setWords a ws).code = s.code := by rw [Block.setWords_eq]
@[simp] theorem Block.setWords_lastOp : (s.setWords a ws).lastOp = s.lastOp := by rw [Block.setWords_eq]
@[simp] theorem Block.setWords_ttValid : (s.setWords a ws).ttValid = s.ttValid := by rw [Block.setWords_eq]
@[simp] theorem Block.setWords_cfgRes : (s.setWords a ws).cfgRes = s.cfgRes := by rw [Block.setWords_eq]
@[simp] theorem Block.setWords_cfgMargin : (s.setWords a ws).cfgMargin = s.cfgMargin := by rw [Block.setWords_eq]
@[simp] theorem Block.setWords_tt : (s.setWords a ws).tt = s.tt := by rw [Block.setWords_eq]
@[simp] theorem Block.setWords_session : (s.setWords a ws).session = s.session := by rw [Block.setWords_eq]
@[simp] theorem Block.setWords_seqTx : (s.setWords a ws).seqTx = s.seqTx := by rw [Block.setWords_eq]
@[simp] theorem Block.setWords_seqNext : (s.setWords a ws).seqNext = s.seqNext := by rw [Block.setWords_eq]
@[simp] theorem Block.setWords_dec : (s.setWords a ws).dec = s.dec := by rw [Block.setWords_eq]
@[simp] theorem Block.setWords_porDraw : (s.setWords a ws).porDraw = s.porDraw := by rw [Block.setWords_eq]
@[simp] theorem Block.setWords_hostData : (s.setWords a ws).hostData = s.hostData := by rw [Block.setWords_eq]
@[simp] theorem Block.setWords_queue : (s.setWords a ws).queue = s.queue := by rw [Block.setWords_eq]

end

/-- Bytes written change no other byte. -/
theorem Block.byteAt_setBytes_other (s : Block cfg) {a b : Nat} (bs : List Byte) (h : b < a ∨ a + bs.length ≤ b) :
    (s.setBytes a bs).byteAt b = s.byteAt b := by
  induction bs generalizing s a with
  | nil => rfl
  | cons v bs ih =>
    simp only [List.length_cons] at h
    simp only [Block.setBytes]
    rw [ih _ (by omega), Block.byteAt_setByte_other _ _ (by omega)]

/-- Byte `i` of the bytes written reads back as written. -/
theorem Block.byteAt_setBytes (s : Block cfg) (a : Nat) (bs : List Byte) {i : Nat} (h : i < bs.length) :
    (s.setBytes a bs).byteAt (a + i) = bs[i] := by
  induction bs generalizing s a i with
  | nil => simp at h
  | cons v bs ih =>
    simp only [Block.setBytes]
    cases i with
    | zero => rw [Block.byteAt_setBytes_other _ _ (by omega)]; simp
    | succ i =>
      have hi : i < bs.length := by simpa using h
      rw [show a + (i + 1) = a + 1 + i by omega, ih _ _ hi]
      simp

/-- Words written change no other byte. -/
theorem Block.byteAt_setWords_other (s : Block cfg) {a b : Nat} (ws : List Word) (h : b < a ∨ a + 4 * ws.length ≤ b) :
    (s.setWords a ws).byteAt b = s.byteAt b := by
  induction ws generalizing s a with
  | nil => rfl
  | cons v ws ih =>
    simp only [List.length_cons] at h
    simp only [Block.setWords]
    rw [ih _ (by omega), Block.byteAt_setWord_other _ _ (by omega)]

/-- Word `i` of the words written reads back as written. -/
theorem Block.wordAt_setWords (s : Block cfg) (a : Nat) (ws : List Word) {i : Nat} (h : i < ws.length) :
    (s.setWords a ws).wordAt (a + 4 * i) = ws[i] := by
  induction ws generalizing s a i with
  | nil => simp at h
  | cons v ws ih =>
    simp only [Block.setWords]
    cases i with
    | zero =>
      simp only [Block.wordAt]
      rw [Block.byteAt_setWords_other _ _ (by omega), Block.byteAt_setWords_other _ _ (by omega),
        Block.byteAt_setWords_other _ _ (by omega), Block.byteAt_setWords_other _ _ (by omega)]
      exact s.wordAt_setWord_same a v
    | succ i =>
      have hi : i < ws.length := by simpa using h
      rw [show a + 4 * (i + 1) = a + 4 + 4 * i by omega, ih _ _ hi]
      simp

/-- A list of bytes written to PAYLOAD, DEST or elsewhere reads back as that list. -/
theorem Block.map_byteAt_setBytes (s : Block cfg) (a : Nat) (bs : List Byte) :
    (List.range bs.length).map (fun i => (s.setBytes a bs).byteAt (a + i)) = bs := by
  apply List.ext_getElem
  · simp
  · intro i h1 h2
    simp only [List.getElem_map, List.getElem_range]
    exact s.byteAt_setBytes a bs h2

/-- A list of symbol words written reads back as that list. -/
theorem Block.map_wordAt_setWords (s : Block cfg) (a : Nat) (ws : List Word) :
    (List.range ws.length).map (fun i => (s.setWords a ws).wordAt (a + 4 * i)) = ws := by
  apply List.ext_getElem
  · simp
  · intro i h1 h2
    simp only [List.getElem_map, List.getElem_range]
    exact s.wordAt_setWords a ws h2

/-! ### What the buffers read as depends on the memory and the draw alone -/

theorem Block.payloadList_congr {s t : Block cfg} (hm : s.mem = t.mem) (hd : s.porDraw = t.porDraw) (n : Nat) :
    s.payloadList n = t.payloadList n :=
  List.map_congr_left fun i _ => Block.byteAt_congr hm hd (payloadBase + i)

theorem Block.destList_congr {s t : Block cfg} (hm : s.mem = t.mem) (hd : s.porDraw = t.porDraw) (n : Nat) :
    s.destList n = t.destList n :=
  List.map_congr_left fun i _ => Block.byteAt_congr hm hd (destBase + i)

theorem Block.txsymList_congr {s t : Block cfg} (hm : s.mem = t.mem) (hd : s.porDraw = t.porDraw) (n : Nat) :
    s.txsymList n = t.txsymList n :=
  List.map_congr_left fun i _ => Block.wordAt_congr hm hd (txsymBase + 4 * i)

theorem Block.rxsymList_congr {s t : Block cfg} (hm : s.mem = t.mem) (hd : s.porDraw = t.porDraw) (n : Nat) :
    s.rxsymList n = t.rxsymList n :=
  List.map_congr_left fun i _ => Block.wordAt_congr hm hd (rxsymBase + 4 * i)

/-- The memory after bytes written depends on the memory before alone. -/
theorem Block.setBytes_mem_congr {s t : Block cfg} (hm : s.mem = t.mem) (a : Nat) (bs : List Byte) :
    (s.setBytes a bs).mem = (t.setBytes a bs).mem := by
  induction bs generalizing s t a with
  | nil => exact hm
  | cons b bs ih => exact ih (by simp only [Block.setByte, hm]) (a + 1)

/-- The memory after words written depends on the memory before alone. -/
theorem Block.setWords_mem_congr {s t : Block cfg} (hm : s.mem = t.mem) (a : Nat) (ws : List Word) :
    (s.setWords a ws).mem = (t.setWords a ws).mem := by
  induction ws generalizing s t a with
  | nil => exact hm
  | cons w ws ih =>
    rw [Block.setWords, Block.setWords]
    exact ih (by simp only [Block.setWord, Block.setByte, hm]) (a + 4)

/-! ### Every operation keeps the canonical form -/

theorem Block.wf_setByte {s : Block cfg} (a : Nat) (v : Byte) (h : s.mem.wf = true) : (s.setByte a v).mem.wf = true :=
  Memory.wf_write a v h

theorem Block.wf_setWord {s : Block cfg} (a : Nat) (v : Word) (h : s.mem.wf = true) :
    (s.setWord a v).mem.wf = true := by
  rw [Block.setWord]
  exact Block.wf_setByte _ _ (Block.wf_setByte _ _ (Block.wf_setByte _ _ (Block.wf_setByte _ _ h)))

theorem Block.wf_setBytes {s : Block cfg} (a : Nat) (bs : List Byte) (h : s.mem.wf = true) :
    (s.setBytes a bs).mem.wf = true := by
  induction bs generalizing s a with
  | nil => exact h
  | cons b bs ih => exact ih _ (Block.wf_setByte a b h)

theorem Block.wf_setWords {s : Block cfg} (a : Nat) (ws : List Word) (h : s.mem.wf = true) :
    (s.setWords a ws).mem.wf = true := by
  induction ws generalizing s a with
  | nil => exact h
  | cons w ws ih => rw [Block.setWords]; exact ih _ (Block.wf_setWord a w h)

/-- Reset's memory has the canonical form. -/
theorem Block.wf_reset : (Block.reset (cfg := cfg)).mem.wf = true := rfl

/-! ### Every operation lists buffer addresses only -/

theorem Block.all_setByte {p : Config.Params} {s : Block cfg} {a : Nat} (v : Byte) (ha : isBufferAddr p a = true)
    (h : s.mem.all (fun c => isBufferAddr p c.1) = true) :
    (s.setByte a v).mem.all (fun c => isBufferAddr p c.1) = true :=
  Memory.all_write (isBufferAddr p) s.mem a v ha h

theorem Block.all_setWord {p : Config.Params} {s : Block cfg} {a : Nat} (v : Word) (ha : ∀ j < 4,
    isBufferAddr p (a + j) = true)
    (h : s.mem.all (fun c => isBufferAddr p c.1) = true) :
    (s.setWord a v).mem.all (fun c => isBufferAddr p c.1) = true := by
  rw [Block.setWord]
  exact Block.all_setByte _ (ha 3 (by omega)) (Block.all_setByte _ (ha 2 (by omega)) (Block.all_setByte _ (ha 1 (by omega))
    (Block.all_setByte _ (ha 0 (by omega)) h)))

theorem Block.all_setBytes {p : Config.Params} {s : Block cfg} {a : Nat} (bs : List Byte) (ha : ∀ j < bs.length,
    isBufferAddr p (a + j) = true)
    (h : s.mem.all (fun c => isBufferAddr p c.1) = true) :
    (s.setBytes a bs).mem.all (fun c => isBufferAddr p c.1) = true := by
  induction bs generalizing s a with
  | nil => exact h
  | cons b bs ih =>
    refine ih (a := a + 1) (fun j hj => ?_) (Block.all_setByte b (ha 0 (by simp)) h)
    have := ha (j + 1) (by simp; omega)
    rwa [show a + 1 + j = a + (j + 1) by omega]

theorem Block.all_setWords {p : Config.Params} {s : Block cfg} {a : Nat} (ws : List Word)
    (ha : ∀ j < 4 * ws.length, isBufferAddr p (a + j) = true) (h : s.mem.all (fun c => isBufferAddr p c.1) = true) :
    (s.setWords a ws).mem.all (fun c => isBufferAddr p c.1) = true := by
  induction ws generalizing s a with
  | nil => exact h
  | cons w ws ih =>
    simp only [List.length_cons] at ha
    rw [Block.setWords]
    refine ih (a := a + 4) (fun j hj => ?_) (Block.all_setWord w (fun j hj => ha j (by omega)) h)
    have := ha (j + 4) (by omega)
    rwa [show a + 4 + j = a + (j + 4) by omega]

end Sys2Proof.Machine
end

