-- ==== Sys2Proof/Laws/Exec.lean ====
section
/-! SUPPORT. What each command, each host access and each step can do, said once: later proofs cite these and unfold no
meaning. -/

namespace Sys2Proof.Machine

variable {cfg : Config.Params}

/-- Everything CHAN_INIT can do (40_timing R130). -/
theorem execChanInit_cases (s : Block cfg) :
    (s.ttValid = true ∧ exec .chanInit ⟨cfg, s⟩ = .next ⟨cfg, s.raise 0x01 .alreadyInit⟩) ∨
      (s.ttValid = false ∧ tableValid cfg s.opRes s.opMargin = true ∧
        exec .chanInit ⟨cfg, s⟩ = .next ⟨cfg, s.initChannel.finish 0x01 .ok 0 0⟩) ∨
      (s.ttValid = false ∧ tableValid cfg s.opRes s.opMargin = false ∧
        exec .chanInit ⟨cfg, s⟩ = .next ⟨cfg, s.raise 0x01 .configInvalid⟩) := by
  simp only [exec, execChanInit, Block.chanInit, Instr.opcode]
  cases s.ttValid <;> cases tableValid cfg s.opRes s.opMargin <;> simp

/-- Everything ENCODE can do (41_encoder R150). -/
theorem execEncode_cases (s : Block cfg) :
    (s.ttValid = false ∧ exec .encode ⟨cfg, s⟩ = .next ⟨cfg, s.raise 0x02 .notInit⟩) ∨
      (s.ttValid = true ∧ s.encodeInRange = false ∧ exec .encode ⟨cfg, s⟩ = .next ⟨cfg, s.raise 0x02 .argRange⟩) ∨
      (s.ttValid = true ∧ s.encodeInRange = true ∧ s.opCapacity = 0 ∧
        exec .encode ⟨cfg, s⟩ = .next ⟨cfg, s.finish 0x02 .starved 0 0⟩) ∨
      (s.ttValid = true ∧ s.encodeInRange = true ∧ 1 ≤ s.opCapacity ∧
        exec .encode ⟨cfg, s⟩ = .next ⟨cfg, (s.commitEncode s.encodeStep).finish 0x02 .ok
          (BitVec.ofNat 32 s.encodeStep.syms.length) (flagWord s.encodeStep.complete)⟩) := by
  simp only [exec, execEncode, Block.encode, Instr.opcode]
  cases s.ttValid <;> cases s.encodeInRange <;> simp
  rcases Nat.eq_zero_or_pos s.opCapacity with h | h
  · exact .inl ⟨h, fun h' => absurd h h'⟩
  · exact .inr ⟨h, fun h' => by omega⟩

/-- Everything DECODE can do (42_decoder R180). -/
theorem execDecode_cases (s : Block cfg) :
    (s.ttValid = false ∧ exec .decode ⟨cfg, s⟩ = .next ⟨cfg, s.failDecode 0x03 .notInit⟩) ∨
      (s.ttValid = true ∧ s.decodeInRange = false ∧ exec .decode ⟨cfg, s⟩ = .next ⟨cfg, s.failDecode 0x03 .argRange⟩) ∨
      (∃ e, s.ttValid = true ∧ s.decodeInRange = true ∧ s.decodeBurst = .error e ∧
        exec .decode ⟨cfg, s⟩ = .next ⟨cfg, s.failDecode 0x03 e⟩) ∨
      (∃ bs, s.ttValid = true ∧ s.decodeInRange = true ∧ s.decodeBurst = .ok bs ∧
        exec .decode ⟨cfg, s⟩ = .next ⟨cfg,
            (s.commitDecode bs).finish 0x03 (decodeCode bs.length) (BitVec.ofNat 32 bs.length) 0⟩) := by
  simp only [exec, execDecode, Block.decode, Instr.opcode]
  cases s.ttValid <;> cases s.decodeInRange <;> cases s.decodeBurst <;> simp

/-- All SHOT_BUILD does (43_shot R211). -/
theorem execShotBuild_eq (s : Block cfg) :
    exec .shotBuild ⟨cfg, s⟩ =
      .next ⟨cfg,
        ({ s with seqTx := s.seqTx + 1 }.setBytes payloadBase (shotBytes s.seqTx)).finish 0x04 .ok s.seqTx 0⟩ :=
  rfl

/-- All SHOT_CLASSIFY does (43_shot R213). -/
theorem execShotClassify_eq (s : Block cfg) :
    exec .shotClassify ⟨cfg, s⟩ =
      .next ⟨cfg, { s with
          seqNext := s.seqNextAfter s.shotClass
          dec := { s.dec with fresh := false } }.finish 0x05 .ok s.shotClass.word (s.seqResult s.shotClass)⟩ :=
  rfl

/-- Every command answers a next state (60_exceptions R248, R258). -/
theorem exec_next (i : Instr) (s : Block cfg) : ∃ t, exec i ⟨cfg, s⟩ = .next ⟨cfg, t⟩ := by
  cases i with
  | chanInit => rcases execChanInit_cases s with ⟨_, h⟩ | ⟨_, _, h⟩ | ⟨_, _, h⟩ <;> exact ⟨_, h⟩
  | encode => rcases execEncode_cases s with ⟨_, h⟩ | ⟨_, _, h⟩ | ⟨_, _, _, h⟩ | ⟨_, _, _, h⟩ <;> exact ⟨_, h⟩
  | decode => rcases execDecode_cases s with ⟨_, h⟩ | ⟨_, _, h⟩ | ⟨_, _, _, _, h⟩ | ⟨_, _, _, _, h⟩ <;> exact ⟨_, h⟩
  | shotBuild => exact ⟨_, execShotBuild_eq s⟩
  | shotClassify => exact ⟨_, execShotClassify_eq s⟩

/-! ### The parts of ENCODE and DECODE that change the state -/

theorem Block.setWord_withSession (s : Block cfg) (e : EncodeSession cfg) (a : Nat) (w : Word) :
    { s with session := e }.setWord a w = { s.setWord a w with session := e } := rfl

theorem Block.setWords_withSession (s : Block cfg) (e : EncodeSession cfg) (a : Nat) (ws : List Word) :
    ({ s with session := e }.setWords a ws).mem = (s.setWords a ws).mem := by
  induction ws generalizing s a with
  | nil => rfl
  | cons w ws ih => rw [Block.setWords, Block.setWord_withSession, ih, Block.setWords]

theorem Block.commitEncode_eq (s : Block cfg) (r : EncodeStep) :
    s.commitEncode r =
      { s with
        session := r.session cfg
        mem := (s.setWords txsymBase r.syms).mem } := by
  unfold Block.commitEncode
  rw [Block.setWords_eq, Block.setWords_withSession]

theorem Block.commitDecode_eq (s : Block cfg) (bs : List Byte) :
    s.commitDecode bs =
      { s with
        dec := ⟨Fin.ofNat _ bs.length, decodeCode bs.length, 1 ≤ bs.length⟩
        mem := (s.setBytes destBase bs).mem } := by
  unfold Block.commitDecode
  rw [Block.setBytes_eq]
  rfl

/-! ### Command words -/

/-- A command word is its fields RSVD and OP (30_encoding R90). -/
theorem word_toNat_fields (w : Word) : w.toNat = (rsvdField w).toNat * 256 + (opField w).toNat := by
  have h1 : (rsvdField w).toNat = w.toNat / 256 := by
    have := w.isLt
    rw [rsvdField, BitVec.extractLsb'_toNat, Nat.shiftRight_eq_div_pow, Nat.mod_eq_of_lt]
    omega
  have h2 : (opField w).toNat = w.toNat % 256 := by
    rw [opField, BitVec.extractLsb'_toNat, Nat.shiftRight_zero]
  omega

/-- The words that decode are the five command words (30_encoding R91, R92). -/
theorem decodeCommand_eq_ok {w : Word} {i : Instr} : decodeCommand w = .ok i ↔ w = encodeCommand i := by
  constructor
  · intro h
    have hw := word_toNat_fields w
    unfold decodeCommand at h
    split at h
    · cases h
    · rename_i h0
      have hz : (rsvdField w).toNat = 0 := by rw [Decidable.not_not.mp h0]; rfl
      rw [hz] at hw
      split at h <;> first | (cases h; rename_i ho; rw [ho] at hw; exact BitVec.eq_of_toNat_eq hw) | cases h
  · rintro rfl
    cases i <;> rfl

/-! ### The host port -/

/-- The legal accesses (20_memory R62, R67). -/
theorem target_eq_none {p : Config.Params} {n a : Nat} :
    target p n a = none ↔ n ≠ 4 ∨ a % 4 ≠ 0 ∨ (regAt a = none ∧ isBufferAddr p a = false) := by
  unfold target
  split
  · rename_i h; simp; tauto
  · rename_i h
    push Not at h
    cases hr : regAt a with
    | some r => simp [h]
    | none => cases hb : isBufferAddr p a <;> simp [h]

/-- An address within the register window that is a multiple of 4 is a register (10_state R20), and no other is. -/
theorem regAt_isSome {a : Nat} (h4 : a % 4 = 0) : (regAt a).isSome = true ↔ a ≤ 0x44 := by
  constructor
  · intro h
    unfold regAt at h
    split at h <;> first | omega | simp at h
  · intro h
    obtain ⟨k, rfl⟩ : ∃ k, a = 4 * k := ⟨a / 4, by omega⟩
    have hk : k < 18 := by omega
    interval_cases k <;> rfl

/-- The offset of a register leads back to it (10_state R20). -/
@[simp] theorem regAt_regOffset (r : Reg) : regAt (regOffset r).toNat = some r := by
  cases r <;> rfl

/-- The register a legal access reaches is the register at its address. -/
theorem target_register {p : Config.Params} {n a : Nat} {r : Reg} (h : target p n a = some (.register r)) :
    regAt a = some r := by
  unfold target at h
  split at h
  · cases h
  · cases hr : regAt a with
    | some r' => simp [hr] at h; rw [h]
    | none => rw [hr] at h; simp at h

/-- CMD is at offset 0 and nowhere else (10_state R20). -/
theorem regAt_cmd {a : Nat} (h : regAt a = some .cmd) : a = 0 := by
  unfold regAt at h
  split at h <;> first | rfl | cases h

/-- A legal access that is no register access reaches a buffer word (20_memory R62). -/
theorem target_buffer {p : Config.Params} {n a : Nat} (h : target p n a = some .buffer) :
    n = 4 ∧ a % 4 = 0 ∧ isBufferAddr p a = true := by
  unfold target at h
  split at h
  · cases h
  · rename_i hn
    push Not at hn
    cases hr : regAt a with
    | some r' => simp [hr] at h
    | none => simp [hr] at h; exact ⟨hn.1, hn.2, h⟩

/-- The buffer addresses, written out (20_memory R62). -/
theorem isBufferAddr_iff {p : Config.Params} {a : Nat} :
    isBufferAddr p a = true ↔
      (0x0400 ≤ a ∧ a < 0x0400 + p.payloadMax) ∨ (0x0800 ≤ a ∧ a < 0x0800 + p.destMax) ∨
        (0x1000 ≤ a ∧ a < 0x1000 + 4 * p.txsymMax) ∨ (0x2000 ≤ a ∧ a < 0x2000 + 4 * p.rxsymMax) := by
  unfold isBufferAddr payloadBase destBase txsymBase rxsymBase
  rw [Bool.or_eq_true, Bool.or_eq_true, Bool.or_eq_true]
  repeat rw [Bool.and_eq_true, decide_eq_true_iff, decide_eq_true_iff]
  omega

/-- The buffers are whole words: with an aligned address of a buffer its next three bytes are of it too (20_memory
R62). -/
theorem isBufferAddr_word {p : Config.Params} (hp : p.wf = true) {a : Nat} (h4 : a % 4 = 0)
    (h : isBufferAddr p a = true) : ∀ j < 4, isBufferAddr p (a + j) = true := by
  intro j hj
  have := paramsWf_iff.mp hp
  rw [isBufferAddr_iff] at h ⊢
  omega

/-- Everything serving one access can do. -/
theorem serve_cases (h : HostAccess) (s t : Block cfg) (hs : serve h ⟨cfg, s⟩ = .next ⟨cfg, t⟩) :
    (∃ n a, h = .read n a ∧ ∃ d, t = { s with hostData := some d }) ∨
      (∃ w i, h = .write 4 0 w ∧ decodeCommand w = .ok i ∧ exec i ⟨cfg, s⟩ = .next ⟨cfg, t⟩) ∨
      (∃ w e, h = .write 4 0 w ∧ decodeCommand w = .error e ∧ t = s.illegalCommand w) ∨
      (∃ n a r v, h = .write n a v ∧ target cfg n a.toNat = some (.register r) ∧ r ≠ .cmd ∧ t = s.writeReg r v) ∨
      (∃ n a v, h = .write n a v ∧ target cfg n a.toNat = some .buffer ∧ t = s.setWord a.toNat v) ∨
      (h = .powerOn ∧ t = s.powerOnReset) := by
  cases h with
  | read n a =>
    refine .inl ⟨n, a, rfl, ?_⟩
    simp only [serve, hostRead] at hs
    split at hs <;> cases hs <;> exact ⟨_, rfl⟩
  | write n a v =>
    simp only [serve, hostWrite] at hs
    split at hs
    · cases hs
    · rename_i ht
      have hn : n = 4 := by
        unfold target at ht; split at ht
        · cases ht
        · rename_i hn; push Not at hn; exact hn.1
      have ha : a = 0 := BitVec.eq_of_toNat_eq (regAt_cmd (target_register ht))
      subst hn ha
      simp only [runCommand] at hs
      split at hs
      · exact .inr (.inl ⟨_, _, rfl, ‹_›, hs⟩)
      · cases hs; exact .inr (.inr (.inl ⟨_, _, rfl, ‹_›, rfl⟩))
    · rename_i hne ht; cases hs
      refine .inr (.inr (.inr (.inl ⟨_, _, _, _, rfl, ht, ?_, rfl⟩)))
      rintro rfl; exact hne rfl
    · rename_i ht; cases hs; exact .inr (.inr (.inr (.inr (.inl ⟨_, _, _, rfl, ht, rfl⟩))))
  | powerOn =>
    simp only [serve] at hs; cases hs
    exact .inr (.inr (.inr (.inr (.inr ⟨rfl, rfl⟩))))

end Sys2Proof.Machine
end

