-- ==== Sys2Proof/Laws/Decoder.lean ====
section
/-! SUPPORT. The decoder as a function of the burst: what its loop reads, when it stops, and when it fails
(42_decoder). -/

namespace Sys2Proof.Machine

variable {cfg : Config.Params}

theorem byteOfBits_lt (bs : List Bool) : byteOfBits bs < 2 ^ bs.length := by
  induction bs with
  | nil => simp [byteOfBits]
  | cons b bs ih =>
    simp only [byteOfBits, List.length_cons, pow_succ]
    have := b.toNat_lt
    omega

/-- Bit `i` of the byte of bits is the `i`-th bit (42_decoder R183). -/
theorem byteOfBits_testBit (bs : List Bool) (i : Nat) : (byteOfBits bs).testBit i = (bs[i]?).getD false := by
  induction bs generalizing i with
  | nil => simp [byteOfBits]
  | cons b bs ih =>
    cases i with
    | zero => cases b <;> simp [byteOfBits, Nat.testBit_zero]
    | succ i =>
      have : (b.toNat + 2 * byteOfBits bs) / 2 = byteOfBits bs := by cases b <;> simp <;> omega
      simp [byteOfBits, Nat.testBit_succ, this, ih]

/-- The bits of symbols that all classify (42_decoder R183). -/
theorem classifyBits_eq_some {t : TimingTable cfg} {ws : List Word} {bs : List Bool} :
    classifyBits t ws = some bs ↔ ws.map (classifyBit t) = bs.map some := by
  induction ws generalizing bs with
  | nil => cases bs <;> simp [classifyBits]
  | cons w ws ih =>
    unfold classifyBits
    cases hw : classifyBit t w with
    | none => cases bs <;> simp [hw]
    | some b =>
      cases bs with
      | nil => simp
      | cons c bs =>
        simp only [Option.map_eq_some_iff, List.map_cons, hw]
        constructor
        · rintro ⟨cs, h1, h2⟩
          cases h2
          rw [ih.mp h1]
        · intro h
          simp only [List.cons.injEq, Option.some.injEq] at h
          exact ⟨bs, ih.mpr h.2, by rw [h.1]⟩

/-- Classification fails exactly when some symbol is neither bit (42_decoder R183). -/
theorem classifyBits_eq_none {t : TimingTable cfg} {ws : List Word} :
    classifyBits t ws = none ↔ ∃ w ∈ ws, classifyBit t w = none := by
  induction ws with
  | nil => simp [classifyBits]
  | cons w ws ih =>
    unfold classifyBits
    cases hw : classifyBit t w with
    | none => simp [hw]
    | some b => simp [hw, ih]

/-- A group of eight reads as the byte whose bits its symbols classify as, least significant first (42_decoder R183). -/
theorem groupByte_eq_some {t : TimingTable cfg} {ws : List Word} {b : Byte} (h8 : ws.length = 8) :
    groupByte t ws = some b ↔ ∀ (i : Nat) (h : i < ws.length), classifyBit t ws[i] = some (b.getLsbD i) := by
  unfold groupByte
  rw [Option.map_eq_some_iff]
  constructor
  · rintro ⟨bs, h1, rfl⟩ i hi
    have hm := classifyBits_eq_some.mp h1
    have hl : bs.length = 8 := by have := congrArg List.length hm; simpa [h8] using this.symm
    have hget : (ws.map (classifyBit t))[i]? = (bs.map some)[i]? := by rw [hm]
    simp only [List.getElem?_map, List.getElem?_eq_getElem hi, Option.map_some] at hget
    have hi' : i < bs.length := by omega
    rw [List.getElem?_eq_getElem hi'] at hget
    simp only [Option.map_some, Option.some.injEq] at hget
    rw [hget, BitVec.getLsbD_ofNat, byteOfBits_testBit, List.getElem?_eq_getElem hi']
    simp; omega
  · intro h
    refine ⟨(List.range 8).map b.getLsbD, classifyBits_eq_some.mpr ?_, ?_⟩
    · apply List.ext_getElem
      · simp [h8]
      · intro i h1 h2
        simp only [List.getElem_map, List.getElem_range]
        exact h i (by simpa using h1)
    · apply BitVec.eq_of_getLsbD_eq
      intro i hi
      rw [BitVec.getLsbD_ofNat, byteOfBits_testBit]
      simp [hi]

theorem groupByte_eq_none {t : TimingTable cfg} {ws : List Word} :
    groupByte t ws = none ↔ ∃ w ∈ ws, classifyBit t w = none := by
  simp [groupByte, classifyBits_eq_none]

/-- The data loop that runs to its end (42_decoder R183, R184): it has read whole groups from the front, each symbol
classified as the bit it gives, and it stopped because the destination is full or fewer than nine symbols are left. -/
theorem decodeGroups_ok {t : TimingTable cfg} {room : Nat} {ws left : List Word} {bs : List Byte}
    (h : decodeGroups t room ws = .ok (bs, left)) :
    bs.length ≤ room ∧ left = ws.drop (8 * bs.length) ∧ (bs = [] ∨ 8 * bs.length < ws.length) ∧
      (bs.length = room ∨ left.length < 9) ∧
      ∀ (j b : Nat) (hj : j < bs.length), b < 8 →
        (ws[8 * j + b]?).bind (classifyBit t) = some (bs[j].getLsbD b) := by
  induction room generalizing ws left bs with
  | zero => simp only [decodeGroups, Except.ok.injEq, Prod.mk.injEq] at h; obtain ⟨rfl, rfl⟩ := h; simp
  | succ room ih =>
    unfold decodeGroups at h
    split at h
    · rename_i h9
      split at h
      · cases h
      · rename_i b hb
        split at h
        · cases h
        · rename_i bs' left' hr
          simp only [Except.ok.injEq, Prod.mk.injEq] at h
          obtain ⟨rfl, rfl⟩ := h
          obtain ⟨i1, i2, i3, i4, i5⟩ := ih hr
          have e8 : (ws.take 8).length = 8 := by simp; omega
          have hg := (groupByte_eq_some e8).mp hb
          simp only [List.length_cons, List.length_drop, List.drop_drop] at i2 i3 i4 ⊢
          refine ⟨by omega, ?_, .inr ?_, by omega, ?_⟩
          · rw [i2]; congr 1; omega
          · rcases i3 with rfl | i3
            · simp; omega
            · omega
          · intro j c hj hc
            cases j with
            | zero =>
              have := hg c (by omega)
              rw [List.getElem_take] at this
              rw [List.getElem?_eq_getElem (by omega)]
              simpa using this
            | succ j =>
              have := i5 j c (by omega) hc
              rw [List.getElem?_drop] at this
              rw [show 8 * (j + 1) + c = 8 + (8 * j + c) by omega]
              simpa using this
    · simp only [Except.ok.injEq, Prod.mk.injEq] at h; obtain ⟨rfl, rfl⟩ := h; simp; omega

/-- The data loop fails only with TIMING_VIOLATION, and only on a symbol that is neither bit in a group it reads
(42_decoder R183). -/
theorem decodeGroups_error {t : TimingTable cfg} {room : Nat} {ws : List Word} {e : StatusCode}
    (h : decodeGroups t room ws = .error e) :
    e = .timingViolation ∧
      ∃ j b, j < room ∧ 8 * j + 9 ≤ ws.length ∧ b < 8 ∧ (ws[8 * j + b]?).bind (classifyBit t) = none := by
  induction room generalizing ws with
  | zero => cases h
  | succ room ih =>
    unfold decodeGroups at h
    split at h
    · rename_i h9
      split at h
      · rename_i hn
        cases h
        obtain ⟨w, hw, hc⟩ := groupByte_eq_none.mp hn
        obtain ⟨i, hi, rfl⟩ := List.getElem_of_mem hw
        refine ⟨rfl, 0, i, by omega, by omega, by simp at hi; omega, ?_⟩
        have hi' : i < ws.length := by simp at hi; omega
        rw [List.getElem_take] at hc
        rw [show 8 * 0 + i = i by omega, List.getElem?_eq_getElem hi']
        exact hc
      · split at h
        · rename_i b hb e' hr
          cases h
          obtain ⟨h1, j, b, hj, hl, hb8, hn⟩ := ih hr
          simp only [List.length_drop] at hl
          refine ⟨h1, j + 1, b, by omega, by omega, hb8, ?_⟩
          rw [List.getElem?_drop] at hn
          rw [show 8 * (j + 1) + b = 8 + (8 * j + b) by omega]
          exact hn
        · cases h
    · cases h

/-- What a burst that decodes is (42_decoder R180): a leader, groups that classify as the bytes, and one ending. -/
theorem decodeBurst_eq_ok {t : TimingTable cfg} {cap : Nat} {ws : List Word} {bs : List Byte} :
    decodeBurst t cap ws = .ok bs ↔
      ∃ lead rest, ws = lead :: rest ∧ matchSym t lead t.leader = true ∧ bs.length ≤ cap ∧
        rest.length = 8 * bs.length + 1 ∧
        (∀ (j b : Nat) (_ : j < bs.length), b < 8 →
          (rest[8 * j + b]?).bind (classifyBit t) = some (bs[j].getLsbD b)) ∧
        ∃ last, rest[8 * bs.length]? = some last ∧ matchEnd t last = true := by
  constructor
  · intro h
    match ws, h with
    | lead :: w :: ws, h =>
      simp only [decodeBurst] at h
      split at h
      · cases h
      · rename_i hl
        split at h
        · cases h
        · rename_i bs' left hg
          split at h
          · cases h
          · rename_i ht
            cases h
            obtain ⟨g1, g2, g3, g4, g5⟩ := decodeGroups_ok hg
            unfold checkTail at ht
            split at ht
            · cases ht
            · split at ht
              · rename_i x _
                split at ht
                · rename_i hx
                  have hlen := congrArg List.length g2
                  simp only [List.length_cons, List.length_nil, List.length_drop] at hlen g3
                  refine ⟨lead, w :: ws, rfl, by simpa using hl, g1, ?_, g5, x, ?_, hx⟩
                  · simp only [List.length_cons]; omega
                  · have := congrArg (fun l => l[0]?) g2
                    simp only [List.getElem?_drop] at this
                    simpa using this.symm
                · cases ht
              · cases ht
  · rintro ⟨lead, rest, rfl, hl, hcap, hlen, hbits, last, hlast, hend⟩
    match rest, hlen with
    | w :: ws, hlen =>
      simp only [decodeBurst, hl, Bool.not_true, Bool.false_eq_true, if_false]
      cases hg : decodeGroups t cap (w :: ws) with
      | error e =>
        obtain ⟨-, j, b, hj, hjl, hb, hn⟩ := decodeGroups_error hg
        rw [hbits j b (by omega) hb] at hn
        cases hn
      | ok r =>
        obtain ⟨bs', left⟩ := r
        obtain ⟨g1, g2, g3, g4, g5⟩ := decodeGroups_ok hg
        have hleft := congrArg List.length g2
        simp only [List.length_drop] at hleft
        have hk : bs'.length = bs.length := by
          rcases g3 with rfl | g3
          · simp only [List.length_nil, List.length_cons] at g4 hleft hlen ⊢; omega
          · omega
        have hbs : bs' = bs := by
          apply List.ext_getElem hk
          intro j h1 h2
          apply BitVec.eq_of_getLsbD_eq
          intro b hb
          have a := g5 j b h1 hb
          rw [hbits j b h2 hb] at a
          exact (Option.some.inj a).symm
        subst hbs
        have hl1 : left = [last] := by
          have hlt : 8 * bs'.length < (w :: ws).length := by omega
          rw [List.getElem?_eq_getElem hlt] at hlast
          rw [g2, List.drop_eq_getElem_cons hlt, Option.some.inj hlast, List.drop_eq_nil_of_le (by omega)]
        subst hl1
        simp [checkTail, hend]

end Sys2Proof.Machine
end

