-- ==== Sys2Proof/Laws/Encoder.lean ====
section
/-! SUPPORT. Frames and the Data loop of the encoder: the position form of 41_encoder R155, on lists. -/

namespace Sys2Proof.Machine

variable {cfg : Config.Params}

@[simp] theorem byteSyms_length (t : TimingTable cfg) (b : Byte) : (byteSyms t b).length = 8 := by simp [byteSyms]

/-- The data symbols of a payload, eight a byte. -/
theorem length_flatMap_byteSyms (t : TimingTable cfg) (p : List Byte) :
    (p.flatMap (byteSyms t)).length = 8 * p.length := by
  induction p with
  | nil => rfl
  | cons b p ih => simp only [List.flatMap_cons, List.length_append, byteSyms_length, List.length_cons, ih]; omega

/-- `len(Frame(P)) = 2 + 8L` (30_encoding R107). -/
@[simp] theorem frame_length (t : TimingTable cfg) (p : List Byte) : (frame t p).length = 2 + 8 * p.length := by
  simp only [frame, List.length_cons, List.length_append, length_flatMap_byteSyms, List.length_nil]; omega

/-- Data symbol `8j+b` is the symbol of bit b of byte j (30_encoding R106). -/
theorem getElem?_flatMap_byteSyms (t : TimingTable cfg) (p : List Byte) {j b : Nat} (hj : j < p.length) (hb : b < 8) :
    (p.flatMap (byteSyms t))[8 * j + b]? = some (t.bitSym (p[j].getLsbD b)) := by
  induction p generalizing j with
  | nil => simp at hj
  | cons v p ih =>
    simp only [List.flatMap_cons]
    cases j with
    | zero =>
      rw [List.getElem?_append_left (by simp; omega)]
      simp [byteSyms, hb]
    | succ j =>
      rw [List.getElem?_append_right (by simp; omega)]
      have hj' : j < p.length := by simpa using hj
      have e : 8 * (j + 1) + b - (byteSyms t v).length = 8 * j + b := by simp; omega
      rw [e, ih hj']
      simp

/-- The cursors after one bit stand one position further (41_encoder R155). -/
theorem nextBit_pos {pc bc : Nat} (h : bc < 8) :
    8 * (nextBit pc bc).1 + (nextBit pc bc).2 = 8 * pc + bc + 1 ∧ (nextBit pc bc).2 < 8 := by
  unfold nextBit
  split <;> simp only <;> omega

/-- The Data loop emits the data symbols from its position on, as many as there is room for (41_encoder R155). -/
theorem dataLoop_syms (t : TimingTable cfg) (p : List Byte) (room pc bc : Nat) (hb : bc < 8)
    (hp : 8 * pc + bc ≤ 8 * p.length) :
    (dataLoop t p room pc bc).1 = ((p.flatMap (byteSyms t)).drop (8 * pc + bc)).take room := by
  induction room generalizing pc bc with
  | zero => simp [dataLoop]
  | succ room ih =>
    rcases Nat.lt_or_ge pc p.length with h | h
    · have hn := nextBit_pos (pc := pc) hb
      have hlt : 8 * pc + bc < (p.flatMap (byteSyms t)).length := by simp; omega
      have hget : (p.flatMap (byteSyms t))[8 * pc + bc] = t.bitSym (p[pc].getLsbD bc) := by
        have := getElem?_flatMap_byteSyms t p h hb
        rw [List.getElem?_eq_getElem hlt] at this
        exact Option.some.inj this
      rw [List.drop_eq_getElem_cons hlt, List.take_succ_cons, hget]
      simp only [dataLoop, List.getElem?_eq_getElem h]
      rw [ih _ _ hn.2 (by rw [hn.1]; omega), hn.1]
    · have e : 8 * pc + bc = 8 * p.length := by omega
      rw [e, List.drop_eq_nil_of_le (by rw [length_flatMap_byteSyms])]
      simp [dataLoop, List.getElem?_eq_none h]

/-- The Data loop leaves its cursors at the position it has reached (41_encoder R155). -/
theorem dataLoop_pos (t : TimingTable cfg) (p : List Byte) (room pc bc : Nat) (hb : bc < 8)
    (hp : 8 * pc + bc ≤ 8 * p.length) :
    8 * (dataLoop t p room pc bc).2.1 + (dataLoop t p room pc bc).2.2 = min (8 * pc + bc + room) (8 * p.length) ∧
      (dataLoop t p room pc bc).2.2 < 8 := by
  induction room generalizing pc bc with
  | zero => simp [dataLoop, hb]; omega
  | succ room ih =>
    rcases Nat.lt_or_ge pc p.length with h | h
    · have hn := nextBit_pos (pc := pc) hb
      have := ih _ _ hn.2 (by rw [hn.1]; omega)
      simp only [dataLoop, List.getElem?_eq_getElem h]
      rw [hn.1] at this
      omega
    · simp only [dataLoop, List.getElem?_eq_none h]
      omega

/-- The Data loop never emits more than it has room for. -/
theorem dataLoop_length_le (t : TimingTable cfg) (p : List Byte) (room pc bc : Nat) :
    (dataLoop t p room pc bc).1.length ≤ room := by
  induction room generalizing pc bc with
  | zero => simp [dataLoop]
  | succ room ih =>
    unfold dataLoop
    split
    · simp
    · simp only [List.length_cons]
      have := ih (nextBit pc bc).1 (nextBit pc bc).2
      omega

/-- With no byte at the cursor the Data loop does nothing (41_encoder R159). -/
theorem dataLoop_done (t : TimingTable cfg) (p : List Byte) (room : Nat) {pc : Nat} (bc : Nat) (h : p.length ≤ pc) :
    dataLoop t p room pc bc = ([], pc, bc) := by
  cases room <;> simp [dataLoop, List.getElem?_eq_none h]

/-- The cursors the Data loop leaves, whatever the payload: within the bounds of 10_state R32. -/
theorem dataLoop_bounds (t : TimingTable cfg) (p : List Byte) (room pc bc : Nat) (hb : bc < 8) :
    (dataLoop t p room pc bc).2.1 ≤ max pc p.length ∧ (dataLoop t p room pc bc).2.2 < 8 := by
  rcases Nat.lt_or_ge pc p.length with h | h
  · have := dataLoop_pos t p room pc bc hb (by omega)
    omega
  · rw [dataLoop_done _ _ _ _ h]; simp [hb]

/-! ### One ENCODE in the position form -/

/-- The Ending phase never goes beyond the capacity (41_encoder R153). -/
theorem endingPhase_length_le (t : TimingTable cfg) (c : Nat) (ss : List Word) (ph : Phase) (pc bc : Nat)
    (h : ss.length ≤ c) : (endingPhase t c ss ph pc bc).syms.length ≤ c := by
  unfold endingPhase; split
  · simp; omega
  · exact h

/-- The Data phase never goes beyond the capacity (41_encoder R152). -/
theorem dataPhase_length_le (t : TimingTable cfg) (p : List Byte) (c : Nat) (ss : List Word) (ph : Phase) (pc bc : Nat)
    (h : ss.length ≤ c) : (dataPhase t p c ss ph pc bc).syms.length ≤ c := by
  unfold dataPhase; split
  · apply endingPhase_length_le
    have := dataLoop_length_le t p (c - ss.length) pc bc
    simp; omega
  · exact endingPhase_length_le _ _ _ _ _ _ h

/-- One ENCODE never emits more than its capacity (41_encoder R154). -/
theorem encodeStep_length_le (t : TimingTable cfg) (p : List Byte) (c : Nat) (e : EncodeSession cfg) (h : 1 ≤ c) :
    (encodeStep t p c e).syms.length ≤ c := by
  unfold encodeStep; split <;> apply dataPhase_length_le <;> simp <;> omega

/-- The cursors after one ENCODE: `payloadCursor` is 0, where it was, or within the payload, and `bitCursor` is below 8
(10_state R32). -/
theorem encodeStep_cursors (t : TimingTable cfg) (p : List Byte) (c : Nat) (e : EncodeSession cfg) :
    (encodeStep t p c e).pcur ≤ max e.pcur.val p.length ∧ (encodeStep t p c e).bcur < 8 := by
  have hend : ∀ ss ph pc bc, bc < 8 →
      (endingPhase t c ss ph pc bc).pcur ≤ pc ∧ (endingPhase t c ss ph pc bc).bcur < 8 := by
    intro ss ph pc bc h; unfold endingPhase; split
    · exact ⟨Nat.zero_le _, by simp⟩
    · exact ⟨le_rfl, h⟩
  have hdata : ∀ ss ph, (dataPhase t p c ss ph e.pcur.val e.bcur.val).pcur ≤ max e.pcur.val p.length ∧
      (dataPhase t p c ss ph e.pcur.val e.bcur.val).bcur < 8 := by
    intro ss ph
    have hb := dataLoop_bounds t p (c - ss.length) e.pcur.val e.bcur.val e.bcur.isLt
    unfold dataPhase; split
    · exact ⟨(hend _ _ _ _ hb.2).1.trans hb.1, (hend _ _ _ _ hb.2).2⟩
    · exact ⟨(hend _ _ _ _ e.bcur.isLt).1.trans (le_max_left _ _), (hend _ _ _ _ e.bcur.isLt).2⟩
  unfold encodeStep; split <;> exact hdata _ _

/-- An ENCODE of a payload that fits PAYLOAD leaves its cursors as they are in the session: neither passes the bound of
its type (10_state R32, R41). -/
theorem encodeStep_session (t : TimingTable cfg) {p : List Byte} (c : Nat) (e : EncodeSession cfg)
    (hL : p.length ≤ cfg.payloadMax) :
    ((encodeStep t p c e).session cfg).pcur.val = (encodeStep t p c e).pcur ∧
      ((encodeStep t p c e).session cfg).bcur.val = (encodeStep t p c e).bcur := by
  have h := encodeStep_cursors t p c e
  have hp := e.pcur.isLt
  exact ⟨Nat.mod_eq_of_lt (by omega), Nat.mod_eq_of_lt h.2⟩

/-- The Data phase with `ss` already emitted, in the position form: the data symbols and the ending from its position
on, as many as there is room for, and the cursors it leaves (41_encoder R152, R153, R155). -/
theorem dataPhase_pos (t : TimingTable cfg) (p : List Byte) (c : Nat) (ss : List Word) (pc bc : Nat) (hs : ss.length ≤ c)
    (hb : bc < 8) (hp : 8 * pc + bc ≤ 8 * p.length) :
    (dataPhase t p c ss .data pc bc).syms =
        ss ++ ((p.flatMap (byteSyms t) ++ [t.ending]).drop (8 * pc + bc)).take (c - ss.length) ∧
      ((dataPhase t p c ss .data pc bc).complete = true ↔ 8 * p.length - (8 * pc + bc) < c - ss.length) ∧
      ((dataPhase t p c ss .data pc bc).complete = true →
        (dataPhase t p c ss .data pc bc).phase = .leader ∧ (dataPhase t p c ss .data pc bc).pcur = 0 ∧
          (dataPhase t p c ss .data pc bc).bcur = 0) ∧
      ((dataPhase t p c ss .data pc bc).complete = false →
        8 * (dataPhase t p c ss .data pc bc).pcur + (dataPhase t p c ss .data pc bc).bcur =
            8 * pc + bc + (c - ss.length) ∧
          (dataPhase t p c ss .data pc bc).bcur < 8 ∧
          (dataPhase t p c ss .data pc bc).phase =
            if 8 * pc + bc + (c - ss.length) = 8 * p.length then .ending else .data) := by
  have h1 := dataLoop_syms t p (c - ss.length) pc bc hb hp
  have h2 := dataLoop_pos t p (c - ss.length) pc bc hb hp
  have hl := length_flatMap_byteSyms t p
  unfold dataPhase
  simp only [if_true]
  generalize dataLoop t p (c - ss.length) pc bc = r at h1 h2
  obtain ⟨rs, rpc, rbc⟩ := r
  simp only at h1 h2 ⊢
  have hrl : rs.length = min (c - ss.length) (8 * p.length - (8 * pc + bc)) := by
      rw [h1]; simp only [List.length_take, List.length_drop, hl]
  have hdrop : (p.flatMap (byteSyms t) ++ [t.ending]).drop (8 * pc + bc) = (p.flatMap (byteSyms t)).drop (8*pc+bc) ++
      [t.ending] :=
    List.drop_append_of_le_length (by rw [hl]; exact hp)
  rw [hdrop]
  unfold endingPhase
  by_cases hc : 8 * p.length - (8 * pc + bc) < c - ss.length
  · have hge : rpc ≥ p.length := by omega
    have : (ss ++ rs).length < c := by simp only [List.length_append]; omega
    simp only [hge, if_true, this, and_self, hc]
    refine ⟨?_, by simp, by simp, by simp⟩
    rw [List.take_of_length_le (by simp only [List.length_append, List.length_drop, hl, List.length_singleton]; omega)]
    rw [h1, List.take_of_length_le (by simp only [List.length_drop, hl]; omega)]
    simp
  · have : ¬ (ss ++ rs).length < c := by simp only [List.length_append]; omega
    simp only [this, and_false, if_false, hc]
    refine ⟨?_, by simp, by simp, fun _ => ⟨by omega, h2.2, ?_⟩⟩
    · rw [List.take_append_of_le_length (by simp only [List.length_drop, hl]; omega), h1]
    · by_cases hq : 8 * pc + bc + (c - ss.length) = 8 * p.length
      · rw [if_pos hq, if_pos (by omega)]
      · rw [if_neg hq, if_neg (by omega)]

/-- One ENCODE on lists, in the position form: what it emits, when it completes, and the session it leaves (41_encoder
R155). -/
theorem encodeStep_pos (t : TimingTable cfg) (p : List Byte) (c : Nat) (e : EncodeSession cfg) (hc : 1 ≤ c)
    (hL : p.length ≤ cfg.payloadMax)
    (hi1 : e.phase = .leader → e.pcur = 0 ∧ e.bcur = 0) (hd : e.phase = .data → e.pcur.val ≤ p.length)
    (hpos : framePos p.length e < 2 + 8 * p.length) :
    (encodeStep t p c e).syms = ((frame t p).drop (framePos p.length e)).take c ∧
    ((encodeStep t p c e).complete = true ↔ 2 + 8 * p.length ≤ framePos p.length e + c) ∧
    ((encodeStep t p c e).complete = true → framePos p.length ((encodeStep t p c e).session cfg) = 0) ∧
    ((encodeStep t p c e).complete = false →
      framePos p.length ((encodeStep t p c e).session cfg) = framePos p.length e + c) ∧
    (((encodeStep t p c e).session cfg).phase = .data → ((encodeStep t p c e).session cfg).pcur.val < p.length) ∧
    (((encodeStep t p c e).session cfg).phase = .leader → ((encodeStep t p c e).session cfg).pcur = 0 ∧
        ((encodeStep t p c e).session cfg).bcur = 0) ∧
    (((encodeStep t p c e).session cfg).phase = .ending → ((encodeStep t p c e).session cfg).bcur = 0) := by
  obtain ⟨ph, pc, bc⟩ := e
  cases ph with
  | leader =>
    obtain ⟨h1, h2⟩ := hi1 rfl
    simp only at h1 h2
    subst h1 h2
    have hstep : encodeStep t p c ⟨.leader, 0, 0⟩ = dataPhase t p c [t.leader] .data 0 0 := by simp [encodeStep]
    rw [hstep]
    have := dataPhase_pos t p c [t.leader] 0 0 (by simpa using hc) (by omega) (by omega)
    generalize dataPhase t p c [t.leader] .data 0 0 = r at this
    obtain ⟨rs, rph, rpc, rbc, rc⟩ := r
    obtain ⟨a1, a2, a3, a4⟩ := this
    simp only [framePos, List.length_singleton] at *
    refine ⟨?_, ?_, ?_, ?_, ?_⟩
    · rw [a1]
      obtain ⟨k, rfl⟩ : ∃ k, c = k + 1 := ⟨c - 1, by omega⟩
      simp [frame]
    · rw [a2]; omega
    · intro h
      obtain ⟨rfl, rfl, rfl⟩ := a3 h
      simp [EncodeStep.session]
    · rintro rfl
      obtain ⟨b1, b2, b3⟩ := a4 rfl
      simp only [Bool.false_eq_true, false_iff] at a2
      by_cases hq : 8 * 0 + 0 + (c - 1) = 8 * p.length
      · rw [if_pos hq] at b3; subst b3; simp only [EncodeStep.session]; omega
      · rw [if_neg hq] at b3; subst b3
        simp only [EncodeStep.session, Fin.val_ofNat]; rw [Nat.mod_eq_of_lt (a := rpc) (by omega)]; omega
    · cases rc with
      | true =>
        obtain ⟨rfl, rfl, rfl⟩ := a3 rfl
        simp [EncodeStep.session]
      | false =>
        obtain ⟨b1, b2, b3⟩ := a4 rfl
        simp only [Bool.false_eq_true, false_iff] at a2
        simp only [EncodeStep.session, b3]
        split
        · simp; have : rbc = 0 := by omega
          simp [this]
        · simp; rw [Nat.mod_eq_of_lt (a := rpc) (by omega)]; omega
  | data =>
    have hd := hd rfl
    simp only at hd
    simp only [framePos] at hpos
    have hstep : encodeStep t p c ⟨.data, pc, bc⟩ = dataPhase t p c [] .data pc.val bc.val := by simp [encodeStep]
    rw [hstep]
    have := dataPhase_pos t p c [] pc.val bc.val (by simp) (by omega) (by omega)
    generalize dataPhase t p c [] .data pc.val bc.val = r at this
    obtain ⟨rs, rph, rpc, rbc, rc⟩ := r
    obtain ⟨a1, a2, a3, a4⟩ := this
    simp only [framePos, List.length_nil, Nat.sub_zero, List.nil_append] at *
    refine ⟨?_, ?_, ?_, ?_, ?_⟩
    · rw [a1, frame]
      rw [show 1 + 8 * pc.val + bc.val = (8 * pc.val + bc.val) + 1 by omega, List.drop_succ_cons]
    · rw [a2]; omega
    · intro h
      obtain ⟨rfl, rfl, rfl⟩ := a3 h
      simp [EncodeStep.session]
    · rintro rfl
      obtain ⟨b1, b2, b3⟩ := a4 rfl
      simp only [Bool.false_eq_true, false_iff] at a2
      by_cases hq : 8 * pc.val + bc.val + c = 8 * p.length
      · rw [if_pos hq] at b3; subst b3; simp only [EncodeStep.session]; omega
      · rw [if_neg hq] at b3; subst b3
        simp only [EncodeStep.session, Fin.val_ofNat]; rw [Nat.mod_eq_of_lt (a := rpc) (by omega)]; omega
    · cases rc with
      | true =>
        obtain ⟨rfl, rfl, rfl⟩ := a3 rfl
        simp [EncodeStep.session]
      | false =>
        obtain ⟨b1, b2, b3⟩ := a4 rfl
        simp only [Bool.false_eq_true, false_iff] at a2
        simp only [EncodeStep.session, b3]
        split
        · simp; have : rbc = 0 := by omega
          simp [this]
        · simp; rw [Nat.mod_eq_of_lt (a := rpc) (by omega)]; omega
  | ending =>
    have hstep : encodeStep t p c ⟨.ending, pc, bc⟩ = ⟨[t.ending], .leader, 0, 0, true⟩ := by
      simp [encodeStep, dataPhase, endingPhase]; omega
    rw [hstep]
    simp only [framePos]
    refine ⟨?_, by simp; omega, by simp [EncodeStep.session], by simp, by simp [EncodeStep.session],
      by simp [EncodeStep.session], by simp [EncodeStep.session]⟩
    · rw [frame, Nat.add_comm 1, List.drop_succ_cons, List.drop_left' (length_flatMap_byteSyms t p),
        List.take_of_length_le (by simpa using hc)]

/-! ### Buffers as lists -/

/-- The payload as a list has the length asked for. -/
@[simp] theorem Block.payloadList_length (s : Block cfg) (n : Nat) : (s.payloadList n).length = n := by
  simp [Block.payloadList]

@[simp] theorem Block.txsymList_length (s : Block cfg) (n : Nat) : (s.txsymList n).length = n := by
  simp [Block.txsymList]

@[simp] theorem Block.rxsymList_length (s : Block cfg) (n : Nat) : (s.rxsymList n).length = n := by
  simp [Block.rxsymList]

@[simp] theorem Block.destList_length (s : Block cfg) (n : Nat) : (s.destList n).length = n := by
  simp [Block.destList]

end Sys2Proof.Machine
end

