-- ==== Sys2Proof/Laws/Timing.lean ====
section
/-! SUPPORT. The timing table: its fields under valid operands, and its windows (40_timing). -/

namespace Sys2Proof.Machine

variable {cfg : Config.Params}

theorem durationMatch_iff {m d n : Nat} : durationMatch m d n = true ↔ n < d + m ∧ d < n + m := by
  simp [durationMatch]

/-- `ticks` is monotone. -/
theorem ticks_mono (p : Config.Params) (res : Nat) {u v : Nat} (h : u ≤ v) : ticks p res u ≤ ticks p res v :=
  Nat.div_le_div_right (Nat.mul_le_mul_right res h)

theorem tickGap_of_le (p : Config.Params) (res : Nat) {u v : Nat} (h : u ≤ v) :
    tickGap p res u v = ticks p res v - ticks p res u :=
  if_pos (ticks_mono p res h)

/-- The model's validity test is V1 to V4 of 40_timing R129. -/
theorem tableValid_iff {p : Config.Params} {res m : Nat} : tableValid p res m = true ↔ validOperands p res m := by
  have h1 := ticks_mono p res (u := 560) (v := 1690) (by omega)
  have h2 := ticks_mono p res (u := 1690) (v := 4500) (by omega)
  have h3 := ticks_mono p res (u := 4500) (v := 9000) (by omega)
  have e : ∀ v, v * res / p.refRate = ticks p res v := fun _ => rfl
  rw [tableValid, leastGap, tickGap_of_le _ _ (by omega), tickGap_of_le _ _ (by omega), tickGap_of_le _ _ (by omega),
    tickGap_of_le _ _ (by omega), tickGap_of_le _ _ (by omega), tickGap_of_le _ _ (by omega)]
  simp only [validOperands, Config.leaderAct, Bool.and_eq_true, decide_eq_true_eq, List.forall_mem_cons,
    List.not_mem_nil, false_implies, implies_true, Nat.reduceLT, Nat.lt_irrefl, forall_const, true_and, and_true, e]
  change _ ↔ _ ∧ _ ∧ _ ≤ p.durMax ∧ _
  omega

/-- V3 bounds every nominal (40_timing R129). -/
theorem ticks_le_durMax {p : Config.Params} {res m : Nat} (h : tableValid p res m = true) {v : Nat} (hv : v ≤ 9000) :
    ticks p res v ≤ p.durMax :=
  (ticks_mono p res hv).trans (tableValid_iff.mp h).2.2.1

/-- A duration of at most `DUR_MAX` fits its field (00_scope R8). -/
theorem mod_of_le_durMax {p : Config.Params} {v : Nat} (h : v ≤ p.durMax) : v % 2 ^ p.durW = v := by
  have := Nat.two_pow_pos p.durW
  unfold Config.Params.durMax at h
  exact Nat.mod_eq_of_lt (by omega)

/-- `DUR_MAX` is at most 65535 (log 6). -/
theorem durMax_le {p : Config.Params} (h : p.wf = true) : p.durMax ≤ 65535 := by
  have := Nat.pow_le_pow_right (n := 2) (by omega) (paramsWf_iff.mp h).2.2.1
  unfold Config.Params.durMax
  omega

/-- V2 and V4, on the tick counts (40_timing R129). -/
theorem margin_bounds {p : Config.Params} {res m : Nat} (h : tableValid p res m = true) :
    1 ≤ ticks p res m ∧ ticks p res 560 + 2 * ticks p res m < ticks p res 1690 ∧
      ticks p res 1690 + 2 * ticks p res m < ticks p res 4500 ∧
      ticks p res 4500 + 2 * ticks p res m < ticks p res 9000 := by
  obtain ⟨_, h2, _, h4⟩ := tableValid_iff.mp h
  have a := h4 560 (by simp) 1690 (by simp) (by omega)
  have b := h4 1690 (by simp) 4500 (by simp) (by omega)
  have c := h4 4500 (by simp) 9000 (by simp) (by omega)
  simp only [ticks]
  omega

/-- The table CHAN_INIT builds on valid operands, each register as the word of its two durations (40_timing R122,
30_encoding R100). -/
theorem buildTable_words {p : Config.Params} (hp : p.wf = true) {res m : Nat} (h : tableValid p res m = true) :
    (buildTable p res m).leader.toNat = ticks p res 4500 * 2 ^ p.durW + ticks p res 9000 ∧
      (buildTable p res m).bit0.toNat = ticks p res 560 * 2 ^ p.durW + ticks p res 560 ∧
      (buildTable p res m).bit1.toNat = ticks p res 1690 * 2 ^ p.durW + ticks p res 560 ∧
      (buildTable p res m).ending.toNat = p.endingIdle * 2 ^ p.durW + ticks p res 560 ∧
      (buildTable p res m).margin.toNat = ticks p res m := by
  have hd := (paramsWf_iff.mp hp).2.2.1
  have he := mod_of_le_durMax (paramsWf_iff.mp hp).2.2.2.1
  have ht : ∀ v, v ≤ 9000 → ticks p res v % 2 ^ p.durW = ticks p res v := fun v hv =>
    mod_of_le_durMax (ticks_le_durMax h hv)
  have hm : ticks p res m ≤ 65535 := by
    have h9 := ticks_le_durMax h (v := 9000) (by omega)
    have := durMax_le hp
    have := margin_bounds h
    omega
  simp only [buildTable, TimingTable.leader, TimingTable.bit0, TimingTable.bit1, TimingTable.ending, symWord_toNat hd,
    BitVec.toNat_ofNat, Config.leaderAct, Config.leaderIdle, Config.bit0Act, Config.bit0Idle,
    Config.bit1Act, Config.bit1Idle, Config.endAct, ht _ (show 9000 ≤ 9000 by omega), ht _ (show 4500 ≤ 9000 by omega),
    ht _ (show 560 ≤ 9000 by omega), ht _ (show 1690 ≤ 9000 by omega), he]
  refine ⟨trivial, trivial, trivial, trivial, Nat.mod_eq_of_lt (by omega)⟩

/-- The table CHAN_INIT builds on valid operands, field by field (40_timing R122). -/
theorem buildTable_fields {p : Config.Params} (hp : p.wf = true) {res m : Nat} (h : tableValid p res m = true) :
    symAct p.durW (buildTable p res m).leader = ticks p res 9000 ∧
      symIdle p.durW (buildTable p res m).leader = ticks p res 4500 ∧
      symAct p.durW (buildTable p res m).bit0 = ticks p res 560 ∧
      symIdle p.durW (buildTable p res m).bit0 = ticks p res 560 ∧
      symAct p.durW (buildTable p res m).bit1 = ticks p res 560 ∧
      symIdle p.durW (buildTable p res m).bit1 = ticks p res 1690 ∧
      symAct p.durW (buildTable p res m).ending = ticks p res 560 ∧
      symIdle p.durW (buildTable p res m).ending = p.endingIdle := by
  have hd := (paramsWf_iff.mp hp).2.2.1
  have ht : ∀ v, v ≤ 9000 → ticks p res v % 2 ^ p.durW = ticks p res v := fun v hv =>
    mod_of_le_durMax (ticks_le_durMax h hv)
  simp only [buildTable, TimingTable.leader, TimingTable.bit0, TimingTable.bit1, TimingTable.ending, BitVec.toNat_ofNat,
    Nat.mod_mod, symAct_symWord hd, symIdle_symWord hd, Config.leaderAct, Config.leaderIdle, Config.bit0Act,
    Config.bit0Idle, Config.bit1Act, Config.bit1Idle, Config.endAct]
  exact ⟨ht _ (by omega), ht _ (by omega), ht _ (by omega), ht _ (by omega), ht _ (by omega), ht _ (by omega),
    ht _ (by omega), mod_of_le_durMax (paramsWf_iff.mp hp).2.2.2.1⟩

/-- A nominal matches itself. -/
theorem durationMatch_self {m n : Nat} (h : 1 ≤ m) : durationMatch m n n = true := by
  rw [durationMatch_iff]; omega

theorem matchSym_self {t : TimingTable cfg} (h : 1 ≤ t.margin.toNat) (w : Word) : matchSym t w w = true := by
  simp [matchSym, durationMatch_self h]

theorem matchEnd_self {t : TimingTable cfg} (h : 1 ≤ t.margin.toNat) : matchEnd t t.ending = true := by
  simp [matchEnd, durationMatch_self h]

/-- A match, phase by phase (40_timing R127). -/
theorem matchSym_iff {t : TimingTable cfg} {s n : Word} :
    matchSym t s n = true ↔
      (symAct cfg.durW n < symAct cfg.durW s + t.margin.toNat ∧
          symAct cfg.durW s < symAct cfg.durW n + t.margin.toNat) ∧
        symIdle cfg.durW n < symIdle cfg.durW s + t.margin.toNat ∧
          symIdle cfg.durW s < symIdle cfg.durW n + t.margin.toNat := by
  simp only [matchSym, Bool.and_eq_true, durationMatch_iff]

/-- The facts about a valid table that the decoder's claims rest on: the margin is positive, bit 0 and bit 1 differ only
in their idle phase, by more than two margins, and the ending's active phase is theirs (40_timing R122, R129, R133). -/
theorem Block.table_facts {s : Block cfg} (hp : cfg.wf = true) (h : s.tableInv) (hv : s.ttValid = true) :
    1 ≤ s.tt.margin.toNat ∧ symAct cfg.durW s.tt.bit0 = symAct cfg.durW s.tt.bit1 ∧
      symAct cfg.durW s.tt.ending = symAct cfg.durW s.tt.bit0 ∧
      symIdle cfg.durW s.tt.bit0 = symAct cfg.durW s.tt.bit0 ∧
      symIdle cfg.durW s.tt.bit0 + 2 * s.tt.margin.toNat < symIdle cfg.durW s.tt.bit1 ∧
      symIdle cfg.durW s.tt.bit1 + 2 * s.tt.margin.toNat < symIdle cfg.durW s.tt.leader ∧
      symIdle cfg.durW s.tt.leader + 2 * s.tt.margin.toNat < symAct cfg.durW s.tt.leader := by
  obtain ⟨hval, htt⟩ := h.1 hv
  obtain ⟨f1, f2, f3, f4, f5, f6, f7, _⟩ := buildTable_fields hp hval
  have := margin_bounds hval
  rw [htt, f1, f2, f3, f4, f5, f6, f7, (buildTable_words hp hval).2.2.2.2]
  omega

/-- Under a valid table a bit's own symbol classifies as that bit (40_timing R128, R133). -/
theorem classifyBit_bitSym {s : Block cfg} (hp : cfg.wf = true) (h : s.tableInv) (hv : s.ttValid = true) (b : Bool) :
    classifyBit s.tt (s.tt.bitSym b) = some b := by
  have f := Block.table_facts hp h hv
  cases b with
  | false => simp [classifyBit, TimingTable.bitSym, matchSym_self f.1]
  | true =>
    have h0 : matchSym s.tt s.tt.bit1 s.tt.bit0 = false := by
      rw [Bool.eq_false_iff]
      intro hm
      have := matchSym_iff.mp hm
      omega
    simp [classifyBit, TimingTable.bitSym, matchSym_self f.1, h0]

end Sys2Proof.Machine
end

