-- ==== Sys2Proof/Laws/Words.lean ====
section
/-! SUPPORT. The packed words and byte orders as arithmetic: STATUS, ENC_STATE, DEC_RESULT, host words of buffer bytes,
sequence octets (10_state R27, R30, R37, 20_memory R64, 43_shot R210, R213). -/

namespace Sys2Proof.Machine

variable {cfg : Config.Params}

/-- A concatenation as a number. -/
theorem append_toNat {m n : Nat} (a : BitVec m) (b : BitVec n) : (a ++ b).toNat = a.toNat * 2 ^ n + b.toNat := by
  rw [BitVec.toNat_append, Nat.shiftLeft_eq, Nat.mul_comm, ← Nat.two_pow_add_eq_or_of_lt b.isLt]

/-- STATUS as a number (10_state R27). -/
theorem statusWord_toNat (c : StatusCode) (l : Byte) : (statusWord c l).toNat = l.toNat * 256 + c.bits.toNat := by
  have h : (statusWord c l).toNat = (0#16 ++ l ++ 0#4 ++ c.bits : BitVec (16 + 8 + 4 + 4)).toNat := rfl
  rw [h, append_toNat, append_toNat, append_toNat]
  simp; omega

/-- ENC_STATE as a number (10_state R30). -/
theorem encStateWord_toNat (hp : cfg.wf = true) (e : EncodeSession cfg) :
    (encStateWord e).toNat = e.pcur.val * 65536 + e.bcur.val * 16 + e.phase.bits.toNat := by
  have h : (encStateWord e).toNat =
      (BitVec.ofNat 16 e.pcur.val ++ 0#9 ++ BitVec.ofNat 3 e.bcur.val ++ 0#2 ++ e.phase.bits :
        BitVec (16 + 9 + 3 + 2 + 2)).toNat := rfl
  rw [h, append_toNat, append_toNat, append_toNat, append_toNat]
  have := e.pcur.isLt
  have := paramsWf_iff.mp hp
  have := e.bcur.isLt
  simp at *; omega

/-- DEC_RESULT as a number (10_state R37). -/
theorem decResultWord_toNat (hp : cfg.wf = true) (d : DecodeOutcome cfg) :
    (decResultWord d).toNat = d.fresh.toNat * 2 ^ 24 + d.code.bits.toNat * 65536 + d.count.val := by
  have h : (decResultWord d).toNat =
      (0#7 ++ BitVec.ofBool d.fresh ++ 0#4 ++ d.code.bits ++ BitVec.ofNat 16 d.count.val :
        BitVec (7 + 1 + 4 + 4 + 16)).toNat := rfl
  rw [h, append_toNat, append_toNat, append_toNat, append_toNat]
  have := d.count.isLt
  have := paramsWf_iff.mp hp
  have := d.fresh.toNat_lt
  simp at *; omega

/-- Byte `j` of a host word as a number (20_memory R64). -/
theorem wordByte_toNat (v : Word) (j : Nat) : (wordByte v j).toNat = v.toNat / 2 ^ (8 * j) % 256 := by
  rw [wordByte, BitVec.extractLsb'_toNat, Nat.shiftRight_eq_div_pow]

/-- A host word of four bytes as a number (20_memory R64). -/
theorem wordOfBytes_toNat (b0 b1 b2 b3 : Byte) :
    (wordOfBytes b0 b1 b2 b3).toNat = b0.toNat + b1.toNat * 256 + b2.toNat * 65536 + b3.toNat * 16777216 := by
  have h : (wordOfBytes b0 b1 b2 b3).toNat = (b3 ++ b2 ++ b1 ++ b0 : BitVec (8 + 8 + 8 + 8)).toNat := rfl
  rw [h, append_toNat, append_toNat, append_toNat]; omega

/-- The bytes of a host word of four bytes (20_memory R64). -/
theorem wordByte_wordOfBytes (b0 b1 b2 b3 : Byte) (j : Nat) (h : j < 4) :
    wordByte (wordOfBytes b0 b1 b2 b3) j = [b0, b1, b2, b3][j]'(by simpa using h) := by
  apply BitVec.eq_of_toNat_eq
  rw [wordByte_toNat, wordOfBytes_toNat]
  have := b0.isLt; have := b1.isLt; have := b2.isLt; have := b3.isLt
  obtain rfl | rfl | rfl | rfl : j = 0 ∨ j = 1 ∨ j = 2 ∨ j = 3 := by omega
  all_goals simp only [List.getElem_cons_zero, List.getElem_cons_succ]; omega

/-- An octet of a sequence number as a number (30_encoding R109). -/
theorem seqByte_toNat (q : Word) (n : Nat) : (seqByte q n).toNat = q.toNat / 2 ^ (8 * n) % 256 := by
  rw [seqByte, BitVec.truncate_eq_setWidth, BitVec.toNat_setWidth, BitVec.toNat_and, BitVec.toNat_ushiftRight,
    Nat.shiftRight_eq_div_pow]
  show (_ &&& (2 ^ 8 - 1)) % 2 ^ 8 = _
  rw [Nat.and_two_pow_sub_one_eq_mod]; omega

/-- A sequence number of four octets as a number (43_shot R213). -/
theorem seqOfBytes_toNat (a b c d : Byte) :
    (seqOfBytes a b c d).toNat = a.toNat * 2 ^ 24 + b.toNat * 2 ^ 16 + c.toNat * 2 ^ 8 + d.toNat := by
  have ha := a.isLt
  have hb := b.isLt
  have hc := c.isLt
  have hd := d.isLt
  have hz : ∀ x : Byte, (x.zeroExtend 32).toNat = x.toNat := by
    intro x; have := x.isLt
    show (x.setWidth 32).toNat = _; rw [BitVec.toNat_setWidth]; omega
  have sh : ∀ (x : Byte) k, k ≤ 24 → (x.zeroExtend 32 <<< k).toNat = 2 ^ k * x.toNat := by
    intro x k hk
    have := x.isLt
    rw [BitVec.toNat_shiftLeft, hz, Nat.shiftLeft_eq, Nat.mul_comm, Nat.mod_eq_of_lt]
    calc 2 ^ k * x.toNat ≤ 2 ^ 24 * x.toNat := Nat.mul_le_mul_right _ (Nat.pow_le_pow_right (by omega) hk)
      _ < 2 ^ 32 := by omega
  unfold seqOfBytes
  rw [BitVec.toNat_or, BitVec.toNat_or, BitVec.toNat_or, sh a 24 (by omega), sh b 16 (by omega), sh c 8 (by omega), hz,
    ← Nat.two_pow_add_eq_or_of_lt (i := 24) (by omega),
    show 2 ^ 24 * a.toNat + 2 ^ 16 * b.toNat = 2 ^ 16 * (2 ^ 8 * a.toNat + b.toNat) by omega,
    ← Nat.two_pow_add_eq_or_of_lt (i := 16) (by omega),
    show 2 ^ 16 * (2 ^ 8 * a.toNat + b.toNat) + 2 ^ 8 * c.toNat =
      2 ^ 8 * (2 ^ 8 * (2 ^ 8 * a.toNat + b.toNat) + c.toNat) by omega,
    ← Nat.two_pow_add_eq_or_of_lt (i := 8) (by omega)]
  omega

/-- Byte `j` of word `k` of the words written at an address. -/
theorem Block.byteAt_setWords (s : Block cfg) (a : Nat) (ws : List Word) {k j : Nat} (hk : k < ws.length) (hj : j < 4) :
    (s.setWords a ws).byteAt (a + 4 * k + j) = wordByte ws[k] j := by
  have h1 := Block.wordAt_setWords s a ws hk
  rw [← h1]
  unfold Block.wordAt
  rw [wordByte_wordOfBytes _ _ _ _ _ hj]
  obtain rfl | rfl | rfl | rfl : j = 0 ∨ j = 1 ∨ j = 2 ∨ j = 3 := by omega
  all_goals rfl

/-- A result that counts elements of a buffer, read back. -/
theorem ofNat_toNat_of_lt {n : Nat} (h : n < 2 ^ 32) : (BitVec.ofNat 32 n).toNat = n := by
  rw [BitVec.toNat_ofNat]; omega

end Sys2Proof.Machine
end

