-- ==== Sys2Proof/Laws/Commands.lean ====
section
/-! SUPPORT. The commands as claims use them: operand ranges, what every command leaves alone, and the elements ENCODE
and DECODE write. -/

namespace Sys2Proof.Machine

variable {cfg : Config.Params}

/-- The write-back changes no buffer (30_encoding R94). -/
@[simp] theorem Block.finish_byteAt (s : Block cfg) (op : Byte) (c : StatusCode) (r0 r1 : Word) (a : Nat) :
    (s.finish op c r0 r1).byteAt a = s.byteAt a := rfl

theorem Block.finish_destList (s : Block cfg) (op : Byte) (c : StatusCode) (r0 r1 : Word) (n : Nat) :
    (s.finish op c r0 r1).destList n = s.destList n := rfl

theorem Block.finish_txsymList (s : Block cfg) (op : Byte) (c : StatusCode) (r0 r1 : Word) (n : Nat) :
    (s.finish op c r0 r1).txsymList n = s.txsymList n := rfl

/-- ENCODE's operand ranges (30_encoding R93). -/
theorem Block.encodeInRange_iff (s : Block cfg) :
    s.encodeInRange = true ↔ s.arg0.toNat ≤ cfg.payloadMax ∧ s.arg1.toNat ≤ cfg.txsymMax := by
  unfold Block.encodeInRange; rw [Bool.and_eq_true, decide_eq_true_eq, decide_eq_true_eq]; rfl

/-- DECODE's operand ranges (30_encoding R93). -/
theorem Block.decodeInRange_iff (s : Block cfg) :
    s.decodeInRange = true ↔ s.arg0.toNat ≤ cfg.rxsymMax ∧ s.arg1.toNat ≤ cfg.destMax := by
  unfold Block.decodeInRange; rw [Bool.and_eq_true, decide_eq_true_eq, decide_eq_true_eq]; rfl

/-- What no command touches but for its own write-back: LAST_OP is the command's, and the operands, the queue and the
draw of the buffers stay. -/
theorem exec_common {i : Instr} {s t : Block cfg} (h : exec i ⟨cfg, s⟩ = .next ⟨cfg, t⟩) :
    t.lastOp = i.opcode ∧ t.queue = s.queue ∧ t.arg0 = s.arg0 ∧ t.arg1 = s.arg1 ∧ t.porDraw = s.porDraw := by
  cases i with
  | chanInit =>
    rcases execChanInit_cases s with ⟨_, h'⟩ | ⟨_, _, h'⟩ | ⟨_, _, h'⟩ <;> (rw [h'] at h; cases h; simp [Instr.opcode])
  | encode =>
    rcases execEncode_cases s with ⟨_, h'⟩ | ⟨_, _, h'⟩ | ⟨_, _, _, h'⟩ | ⟨_, _, _, h'⟩ <;>
      (rw [h'] at h; cases h; simp [Instr.opcode, Block.commitEncode_eq])
  | decode =>
    rcases execDecode_cases s with ⟨_, h'⟩ | ⟨_, _, h'⟩ | ⟨_, _, _, _, h'⟩ | ⟨_, _, _, _, h'⟩ <;>
      (rw [h'] at h; cases h; simp [Instr.opcode, Block.commitDecode_eq])
  | shotBuild => rw [execShotBuild_eq] at h; cases h; simp [Instr.opcode]
  | shotClassify => rw [execShotClassify_eq] at h; cases h; simp [Instr.opcode]

/-! ### ENCODE -/

/-- ENCODE with operands in range and capacity at least 1 (41_encoder R150). -/
theorem exec_encode_next {s : Block cfg} (hv : s.ttValid = true) (hL : s.arg0.toNat ≤ cfg.payloadMax)
    (h1 : 1 ≤ s.arg1.toNat) (h2 : s.arg1.toNat ≤ cfg.txsymMax) :
    exec .encode ⟨cfg, s⟩ = .next ⟨cfg,
        (s.commitEncode s.encodeStep).finish 0x02 .ok (BitVec.ofNat 32 s.encodeStep.syms.length)
      (flagWord s.encodeStep.complete)⟩ := by
  have hr : s.encodeInRange = true := s.encodeInRange_iff.mpr ⟨hL, h2⟩
  rcases execEncode_cases s with ⟨h, _⟩ | ⟨_, h, _⟩ | ⟨_, _, h, _⟩ | ⟨_, _, _, h'⟩
  · rw [hv] at h; cases h
  · rw [hr] at h; cases h
  · simp only [Block.opCapacity] at h; omega
  · exact h'

/-- The symbols an ENCODE writes stand in TXSYM from index 0 on (41_encoder R157). -/
theorem Block.commitEncode_txsymList (s : Block cfg) (r : EncodeStep) :
    (s.commitEncode r).txsymList r.syms.length = r.syms := Block.map_wordAt_setWords _ _ _

theorem Block.commitEncode_session (s : Block cfg) (r : EncodeStep) : (s.commitEncode r).session = r.session cfg := by
  simp [Block.commitEncode_eq]

/-- ENCODE writes no byte outside the symbols it emits. -/
theorem Block.commitEncode_byteAt_other (s : Block cfg) (r : EncodeStep) {a : Nat}
    (h : a < 0x1000 ∨ 0x1000 + 4 * r.syms.length ≤ a) : (s.commitEncode r).byteAt a = s.byteAt a := by
  unfold Block.commitEncode
  rw [Block.byteAt_setWords_other _ _ (by simpa [txsymBase] using h)]
  rfl

/-! ### DECODE -/

/-- DECODE of a burst that fails (42_decoder R180). -/
theorem exec_decode_error {s : Block cfg} {e : StatusCode} (hv : s.ttValid = true) (hr : s.decodeInRange = true)
    (h : s.decodeBurst = .error e) : exec .decode ⟨cfg, s⟩ = .next ⟨cfg, s.failDecode 0x03 e⟩ := by
  rcases execDecode_cases s with ⟨h1, _⟩ | ⟨_, h1, _⟩ | ⟨_, _, _, h1, h'⟩ | ⟨_, _, _, h1, _⟩
  · rw [hv] at h1; cases h1
  · rw [hr] at h1; cases h1
  · rw [h] at h1; cases h1; exact h'
  · rw [h] at h1; cases h1

/-- DECODE of a burst that reads as bytes (42_decoder R180). -/
theorem exec_decode_ok {s : Block cfg} {bs : List Byte} (hv : s.ttValid = true) (hr : s.decodeInRange = true)
    (h : s.decodeBurst = .ok bs) :
    exec .decode ⟨cfg, s⟩ =
      .next ⟨cfg, (s.commitDecode bs).finish 0x03 (decodeCode bs.length) (BitVec.ofNat 32 bs.length) 0⟩ := by
  rcases execDecode_cases s with ⟨h1, _⟩ | ⟨_, h1, _⟩ | ⟨_, _, _, h1, _⟩ | ⟨_, _, _, h1, h'⟩
  · rw [hv] at h1; cases h1
  · rw [hr] at h1; cases h1
  · rw [h] at h1; cases h1
  · rw [h] at h1; cases h1; exact h'

/-- A burst's symbol 0 and the rest. -/
theorem Block.rxsymList_succ (s : Block cfg) (n : Nat) :
    s.rxsymList (n + 1) = s.rxsym 0 :: (List.range n).map fun i => s.rxsym (i + 1) := by
  simp [Block.rxsymList, List.range_succ_eq_map]

theorem Block.getElem?_rxsym_tail (s : Block cfg) (n i : Nat) :
    ((List.range n).map fun i => s.rxsym (i + 1))[i]? = if i < n then some (s.rxsym (i + 1)) else none := by
  by_cases h : i < n
  · rw [if_pos h, List.getElem?_map, List.getElem?_range h]; rfl
  · rw [if_neg h, List.getElem?_eq_none (by simpa using h)]

/-- A decode that succeeds has at most as many bytes as DEST. -/
theorem Block.decodeBurst_length {s : Block cfg} {bs : List Byte} (hr : s.decodeInRange = true)
    (h : s.decodeBurst = .ok bs) : bs.length ≤ cfg.destMax := by
  obtain ⟨_, _, _, _, h3, -⟩ := decodeBurst_eq_ok.mp h
  exact le_trans h3 (s.decodeInRange_iff.mp hr).2

/-- A decode that succeeds has at most as many bytes as a register counts. -/
theorem Block.decodeBurst_length_lt {s : Block cfg} {bs : List Byte} (h : s.decodeBurst = .ok bs) :
    bs.length < 2 ^ 32 := by
  obtain ⟨_, _, _, _, h3, -⟩ := decodeBurst_eq_ok.mp h
  exact Nat.lt_of_le_of_lt h3 s.arg1.isLt

/-- A decode that fails ends in an error code (60_exceptions R243). -/
theorem Block.decodeBurst_isError {s : Block cfg} {e : StatusCode} (hb : s.decodeBurst = .error e) :
    e.isError = true := by
  unfold Block.decodeBurst at hb
  generalize s.rxsymList s.opSymbols = ws at hb
  match ws, hb with
  | [], hb => cases hb; rfl
  | [_], hb => cases hb; rfl
  | a :: b :: ws, hb =>
    simp only [Sys2Proof.Machine.decodeBurst] at hb
    split at hb
    · cases hb; rfl
    · split at hb
      · rename_i hg; rw [(decodeGroups_error hg).1] at hb; cases hb; rfl
      · split at hb
        · rename_i hct
          cases hb
          unfold checkTail at hct
          split at hct
          · cases hct; rfl
          · split at hct
            · split at hct
              · cases hct
              · cases hct; rfl
            · cases hct; rfl
        · cases hb

/-- The bytes a DECODE commits stand in DEST from index 0 on (42_decoder R188). -/
theorem Block.commitDecode_destList (s : Block cfg) (bs : List Byte) : (s.commitDecode bs).destList bs.length = bs := by
  unfold Block.destList Block.dest Block.commitDecode
  exact Block.map_byteAt_setBytes s destBase bs

/-- DECODE writes no byte outside those it commits. -/
theorem Block.commitDecode_byteAt_other (s : Block cfg) (bs : List Byte) {a : Nat}
    (h : a < 0x800 ∨ 0x800 + bs.length ≤ a) : (s.commitDecode bs).byteAt a = s.byteAt a := by
  unfold Block.commitDecode
  exact Block.byteAt_setBytes_other _ _ (by simpa [destBase] using h)

end Sys2Proof.Machine
end

