-- ==== Sys2Proof/Laws/Step.lean ====
section
/-! SUPPORT. Everything a step can do. -/

namespace Sys2Proof.Machine

variable {cfg : Config.Params}

/-- A step with no access pending leaves the state as it is (log 1). -/
theorem step_idle {s : Block cfg} (h : s.queue = []) : step ⟨cfg, s⟩ = .next ⟨cfg, s⟩ := by
  simp [step, serveOldest, h]

/-- A step with an access pending serves the oldest (20_memory R81). -/
theorem step_serve {s : Block cfg} {h : HostAccess} {rest : List HostAccess} (hq : s.queue = h :: rest) :
    step ⟨cfg, s⟩ = serve h ⟨cfg, { s with queue := rest }⟩ := by
  simp [step, serveOldest, hq]

/-- A step that answers a next state is idle or serves one access. -/
theorem step_cases {s t : Block cfg} (hs : step ⟨cfg, s⟩ = .next ⟨cfg, t⟩) :
    (s.queue = [] ∧ t = s) ∨
      (∃ h rest, s.queue = h :: rest ∧ serve h ⟨cfg, { s with queue := rest }⟩ = .next ⟨cfg, t⟩) := by
  cases hq : s.queue with
  | nil => rw [step_idle hq] at hs; cases hs; exact .inl ⟨rfl, rfl⟩
  | cons h rest => rw [step_serve hq] at hs; exact .inr ⟨h, rest, rfl, hs⟩

/-- The write of a word to CMD, served. -/
theorem serve_cmd (w : Word) (s : Block cfg) : serve (.write 4 0 w) ⟨cfg, s⟩ = runCommand w ⟨cfg, s⟩ := rfl

/-! ### The parameters -/

/-- A command keeps the parameters (10_state R41, log 6). -/
theorem exec_params {i : Instr} {s t : State} (h : exec i s = .next t) : t.params = s.params := by
  obtain ⟨u, hu⟩ := exec_next i s.block
  have : exec i s = .next ⟨s.params, u⟩ := hu
  rw [this] at h; cases h; rfl

/-- An access served keeps the parameters. -/
theorem serve_params {h : HostAccess} {s t : State} (hs : serve h s = .next t) : t.params = s.params := by
  cases h with
  | read n a =>
    simp only [serve, hostRead] at hs
    split at hs <;> cases hs <;> rfl
  | write n a v =>
    simp only [serve, hostWrite] at hs
    split at hs
    · cases hs
    · simp only [runCommand] at hs
      split at hs
      · exact exec_params hs
      · cases hs; rfl
    · cases hs; rfl
    · cases hs; rfl
  | powerOn => cases hs; rfl

/-- A step keeps the parameters. -/
theorem step_params {s t : State} (hs : step s = .next t) : t.params = s.params := by
  unfold step serveOldest at hs
  split at hs
  · cases hs; rfl
  · have hp := serve_params hs
    exact hp

/-- So what a step answers is a block with the same parameters. -/
theorem step_block {s : Block cfg} {t : State} (hs : step ⟨cfg, s⟩ = .next t) : ∃ u : Block cfg, t = ⟨cfg, u⟩ := by
  obtain ⟨c, u⟩ := t
  obtain rfl : c = cfg := step_params hs
  exact ⟨u, rfl⟩

/-! ### Runs -/

/-- No step leaves the state as it is. -/
@[simp] theorem runSteps_zero (s : State) : runSteps 0 s = .next s := rfl

/-- A run goes on from the state its first step answers. -/
theorem coreRun_next {M : Host.Core} {k : Nat} {s t : M.State} (h : M.step s = .next t) :
    M.run (k + 1) s = M.run k t := by
  rw [Host.Core.run, h]

/-- A run of one step is that step. -/
theorem coreRun_one {M : Host.Core} (s : M.State) : M.run 1 s = M.step s := by
  rw [Host.Core.run]; cases M.step s <;> rfl

/-- A run goes on from the state its first step answers. -/
theorem runSteps_next {s t : State} (h : step s = .next t) (k : Nat) : runSteps (k + 1) s = runSteps k t :=
  coreRun_next (M := Sys2Proof.core) h

/-- A run of one step is that step. -/
theorem runSteps_one (s : State) : runSteps 1 s = step s := coreRun_one (M := Sys2Proof.core) s

end Sys2Proof.Machine
end

