-- ==== Sys2Proof/Laws/Host.lean ====
section
/-! SUPPORT. The host port as claims use it: which accesses are bus errors, and what an access of a buffer does
(20_memory R62, R66, R67). -/

namespace Sys2Proof.Machine

variable {cfg : Config.Params}

/-- OP of a command word, `w[7:0]` (30_encoding R90). -/
theorem opField_eq (w : Word) : opField w = BitVec.ofNat 8 w.toNat := by
  apply BitVec.eq_of_toNat_eq
  rw [opField, BitVec.extractLsb'_toNat, Nat.shiftRight_zero, BitVec.toNat_ofNat]

/-- The words that do not decode (30_encoding R92). -/
theorem decodeCommand_error_iff (w : Word) :
    (∃ e, decodeCommand w = .error e) ↔ (w.toNat / 256 ≠ 0 ∨ w.toNat % 256 = 0 ∨ 6 ≤ w.toNat % 256) := by
  constructor
  · rintro ⟨e, h⟩
    by_contra hc
    push Not at hc
    have hlt := w.isLt
    have hw : w.toNat = 1 ∨ w.toNat = 2 ∨ w.toNat = 3 ∨ w.toNat = 4 ∨ w.toNat = 5 := by omega
    have hh : ∃ i, w = encodeCommand i := by
      rcases hw with h | h | h | h | h
      · exact ⟨.chanInit, BitVec.eq_of_toNat_eq h⟩
      · exact ⟨.encode, BitVec.eq_of_toNat_eq h⟩
      · exact ⟨.decode, BitVec.eq_of_toNat_eq h⟩
      · exact ⟨.shotBuild, BitVec.eq_of_toNat_eq h⟩
      · exact ⟨.shotClassify, BitVec.eq_of_toNat_eq h⟩
    obtain ⟨i, hi⟩ := hh
    rw [decodeCommand_eq_ok.mpr hi] at h
    cases h
  · intro h
    cases hd : decodeCommand w with
    | error e => exact ⟨e, rfl⟩
    | ok i =>
      exfalso
      rw [decodeCommand_eq_ok.mp hd] at h
      cases i <;> simp [encodeCommand, Instr.opcode] at h

/-- A multiple of 4 above the registers holds no register (10_state R20). -/
theorem regAt_eq_none {a : Nat} (h4 : a % 4 = 0) : regAt a = none ↔ 0x44 < a := by
  have := regAt_isSome h4
  cases h : regAt a <;> simp [h] at this ⊢ <;> omega

/-- The accesses that go nowhere, by the map of 20_memory R62. -/
theorem target_eq_none_iff_reserved {p : Config.Params} (hp : p.wf = true) (n : Nat) (a : Addr) :
    target p n a.toNat = none ↔ n ≠ 4 ∨ a.toNat % 4 ≠ 0 ∨ reservedAddr p a.toNat := by
  rw [target_eq_none]
  by_cases h4 : a.toNat % 4 = 0
  · rw [regAt_eq_none h4, Bool.eq_false_iff, show (isBufferAddr p a.toNat ≠ true) =
      ¬ (isBufferAddr p a.toNat = true) from rfl,
      isBufferAddr_iff]
    have := paramsWf_iff.mp hp
    unfold reservedAddr
    omega
  · simp [h4]

/-- A buffer word's address goes to a buffer (20_memory R62). -/
theorem target_bufferWord {p : Config.Params} {a : Addr} (h : bufferWordAddr a p = true) :
    target p 4 a.toNat = some .buffer := by
  have h' : a.toNat % 4 = 0 ∧ isBufferAddr p a.toNat = true := by
    rw [isBufferAddr_iff]
    simp [bufferWordAddr] at h
    omega
  have hr : regAt a.toNat = none := by
    rw [regAt_eq_none h'.1]
    have := isBufferAddr_iff.mp h'.2; omega
  simp [target, h', hr]

/-- A word written to a buffer (20_memory R66). -/
theorem serve_write_buffer {a : Addr} (v : Word) (s : Block cfg) (h : bufferWordAddr a cfg = true) :
    serve (.write 4 a v) ⟨cfg, s⟩ = .next ⟨cfg, s.setWord a.toNat v⟩ := by
  simp [serve, hostWrite, target_bufferWord h]

/-- A word read from a buffer (20_memory R66, R68). -/
theorem serve_read_buffer {a : Addr} (s : Block cfg) (h : bufferWordAddr a cfg = true) :
    serve (.read 4 a) ⟨cfg, s⟩ = .next ⟨cfg, { s with hostData := some (s.wordAt a.toNat) }⟩ := by
  simp [serve, hostRead, target_bufferWord h]

/-- Serving an access never touches the rest of the queue. -/
theorem serve_queue {h : HostAccess} {s t : Block cfg} (hs : serve h ⟨cfg, s⟩ = .next ⟨cfg, t⟩) :
    t.queue = s.queue := by
  rcases serve_cases _ _ _ hs with ⟨_, _, _, _, rfl⟩ | ⟨_, _, _, _, hx⟩ | ⟨_, _, _, _, rfl⟩ | ⟨_, _, _, _, _, _, _,
      rfl⟩ |
    ⟨_, _, _, _, _, rfl⟩ | ⟨_, rfl⟩
  · rfl
  · exact (exec_common hx).2.1
  · rfl
  · unfold Block.writeReg; split <;> rfl
  · rfl
  · rfl

/-- A host access of the queue does not look at the rest of the queue when it writes a buffer. -/
theorem Block.setWord_withQueue (s : Block cfg) (q : List HostAccess) (a : Nat) (w : Word) :
    { s.setWord a w with queue := q } = { s with queue := q }.setWord a w := rfl

end Sys2Proof.Machine
end

