-- ==== Sys2Proof/Laws/PerInstr.lean ====
section
/-! SUPPORT. Per-command lemmas: the command word of each command (30_encoding R90, R91). -/

namespace Sys2Proof.Laws

/-- The full word of a command has RSVD zero and is, in spec/opcode_table.json's numbering, a word the decoder reads as
that command. -/
def CommandWord.Statement (i : Instr) : Prop :=
  rsvdField (encodeCommand i) = 0 ∧ opField (encodeCommand i) = i.opcode ∧
    decodeTableWord 32 (encodeCommand i).toNat = some i

theorem CommandWord.chanInit : CommandWord.Statement .chanInit := ⟨rfl, rfl, rfl⟩
theorem CommandWord.encode : CommandWord.Statement .encode := ⟨rfl, rfl, rfl⟩
theorem CommandWord.decode : CommandWord.Statement .decode := ⟨rfl, rfl, rfl⟩
theorem CommandWord.shotBuild : CommandWord.Statement .shotBuild := ⟨rfl, rfl, rfl⟩
theorem CommandWord.shotClassify : CommandWord.Statement .shotClassify := ⟨rfl, rfl, rfl⟩

end Sys2Proof.Laws
end

