-- ==== Sys2Proof/Tests/Slice0.lean ====
section
/-! SUPPORT. Tests, on fixed values: ill-formed terms, command words, small steps with the results of
spec/95_test_vectors.md, and for each statement with hypotheses a concrete state that meets them. -/

namespace Sys2Proof.Machine.Tests

variable {cfg : Config.Params}

/-! ### Helpers -/

/-- The parameters with the defaults of 00_scope R8. -/
abbrev base : Config.Params := {}

/-- The block right after power-on reset. -/
abbrev fresh : Block base := Block.reset

/-- The block after `INIT 1000000, 200` (V1), written out. -/
def ready : Block base :=
  { fresh with
    ttValid := true, cfgRes := 1000000, cfgMargin := 200, tt := ⟨9000, 4500, 560, 560, 560, 1690, 560, 200⟩ }

/-- A block with operands. -/
def args (a b : Word) (s : Block cfg) : Block cfg := { s with arg0 := a, arg1 := b }

/-- A block with accesses of the host waiting. -/
def waits (q : List HostAccess) (s : Block cfg) : Block cfg := { s with queue := q }

/-- The block a command leaves, and that it leaves one. -/
def after (i : Instr) (s : Block cfg) : Block cfg :=
  match i with
  | .chanInit => s.chanInit
  | .encode => s.encode
  | .decode => s.decode
  | .shotBuild => s.shotBuild
  | .shotClassify => s.shotClassify

theorem exec_after (i : Instr) (s : Block cfg) : exec i ⟨_, s⟩ = .next ⟨_, after i s⟩ := by
  cases i <;> rfl

/-- A burst in RXSYM and DECODE's operands. -/
def received (ws : List Word) (cap : Word) : Block base :=
  (args (BitVec.ofNat 32 ws.length) cap ready).setWords rxsymBase ws

theorem received_rxsymList (ws : List Word) (cap : Word) : (received ws cap).rxsymList ws.length = ws :=
  Block.map_wordAt_setWords _ _ _

/-- `Frame([0xAA])` at 1 MHz (E1, V80). -/
def frameAA : List Word := frame ready.tt [0xAA]

/-- The payload 0xAA in PAYLOAD and ENCODE's operands. -/
def sends (l c : Word) : Block base := (args l c ready).setByte payloadBase 0xAA

/-- A decoded frame in DEST. -/
def decoded (bs : List Byte) (next : Word) : Block base :=
  { ready with seqNext := next, dec := ⟨Fin.ofNat _ bs.length, .ok, true⟩ }.setBytes destBase bs

/-! ### Ill-formed terms -/

theorem test_wf_access_width : (HostAccess.read 2 0x0004).wf = false ∧
  (HostAccess.write 1 0x0004 0).wf = false := by decide
theorem test_wf_access_alignment :
    (HostAccess.read 4 0x0402).wf = false ∧ (HostAccess.write 4 0x0001 0).wf = false := by decide
theorem test_wf_wrw_outside_buffers : (Stmt.wrw 0x0500 0).wf = false ∧ (Stmt.wrw 0x0402 0).wf = false := by decide
theorem test_wf_rdw_outside_buffers : (Stmt.rdw 0x0000).wf = false ∧ (Stmt.rdw 0x2200).wf = false := by decide
theorem test_wf_loadpay_lengths :
    (Stmt.loadpay []).wf = false ∧ (Stmt.loadpay (List.replicate 257 0)).wf = false :=
  ⟨rfl, by unfold Stmt.wf; simp only [List.length_replicate]; rfl⟩
theorem test_wf_loadrx_lengths :
    (Stmt.loadrx []).wf = false ∧ (Stmt.loadrx (List.replicate 129 0)).wf = false :=
  ⟨rfl, by unfold Stmt.wf; simp only [List.length_replicate]; rfl⟩

/-! ### Command words, written out from 30_encoding R90, R91, R92 -/

theorem test_decode_words :
    decodeCommand 0b00000000000000000000000000000001#32 = .ok .chanInit ∧
      decodeCommand 0b00000000000000000000000000000010#32 = .ok .encode ∧
      decodeCommand 0b00000000000000000000000000000011#32 = .ok .decode ∧
      decodeCommand 0b00000000000000000000000000000100#32 = .ok .shotBuild ∧
      decodeCommand 0b00000000000000000000000000000101#32 = .ok .shotClassify :=
  ⟨rfl, rfl, rfl, rfl, rfl⟩

/-- V160 to V164. -/
theorem test_decode_illegal :
    decodeTableWord 32 0 = none ∧ decodeTableWord 32 6 = none ∧ decodeTableWord 32 0xFF = none ∧
      decodeTableWord 32 0x102 = none ∧ decodeTableWord 32 0x80000001 = none := by decide

/-! ### Parameters -/

/-- Parameters no instance can have: a field wider than half a word, a buffer that reaches into the next, and an RXSYM
too small for a shot frame (00_scope R9). -/
theorem test_params_refused :
    ({ durW := 17 } : Config.Params).wf = false ∧ ({ payloadMax := 0x404 } : Config.Params).wf = false ∧
      ({ rxsymMax := 57 } : Config.Params).wf = false := by decide

/-- In an instance with `TXSYM_MAX` 64, ENCODE takes a capacity of 64 and reports ARG_RANGE at 65 (30_encoding R93), and
the word past TXSYM is reserved (20_memory R63). -/
theorem test_params_of_instance_used :
    let s (c : Word) : Block { txsymMax := 64 } := { Block.reset with ttValid := true, arg1 := c }
    (after .encode (s 64)).code = .ok ∧ (after .encode (s 65)).code = .argRange ∧
      (serve (.read 4 0x10FC) ⟨_, s 0⟩ matches .next _) ∧ serve (.read 4 0x1100) ⟨_, s 0⟩ = .fault .busError :=
  ⟨by decide, by decide, rfl, rfl⟩

/-! ### One step each, results from spec/95_test_vectors.md -/

/-- V1. -/
theorem test_chanInit_table :
    [Reg.ttLeader, .ttBit0, .ttBit1, .ttEnding, .ttMargin, .status].map
        (after .chanInit (args 1000000 200 fresh)).readReg =
      [0x11942328, 0x02300230, 0x069A0230, 0xFFFF0230, 200, 0x00000100] := by decide

/-- Before a table is built TT_ENDING reads 0 (10_state R34, R40); `ready` is the block V1 leaves. -/
theorem test_ttEnding_reset :
    fresh.readReg .ttEnding = 0 ∧ (after .chanInit (args 1000000 200 fresh)).tt = ready.tt := by decide

/-- V12. -/
theorem test_chanInit_invalid :
    (after .chanInit (args 1000000 565 fresh)).readReg .status = 0x00000109 ∧
      (after .chanInit (args 1000000 565 fresh)).ttValid = false := by decide

/-- V50 (E1). -/
theorem test_encode_whole :
    (after .encode (sends 1 16)).txsymList 10 =
        [0x11942328, 0x02300230, 0x069A0230, 0x02300230, 0x069A0230, 0x02300230, 0x069A0230, 0x02300230, 0x069A0230,
          0xFFFF0230] ∧
      (after .encode (sends 1 16)).res1 = 1 := by decide

/-- V51, the first slice. -/
theorem test_encode_slice :
    (after .encode (sends 1 4)).readReg .encState = 0x00000031 ∧ (after .encode (sends 1 4)).res0 = 4 := by decide

/-- V80. -/
theorem test_decode_ok :
    (after .decode (received frameAA 4)).readReg .decResult = 0x01000001 ∧
      (after .decode (received frameAA 4)).dest 0 = 0xAA := by decide

/-- V30: the idle phase of symbol 1 exactly a margin from its nominal. -/
theorem test_decode_boundary :
    (after .decode (received (frameAA.set 1 0x01680230) 4)).readReg .status = 0x00000303 := by decide

/-- V121. -/
theorem test_shotBuild_bytes :
    (after .shotBuild { ready with seqTx := 0x01020304 }).payloadList 7 = [0x4C, 0x54, 0x00, 0x01, 0x02, 0x03, 0x04] ∧
      (after .shotBuild { ready with seqTx := 0x01020304 }).seqTx = 0x01020305 := by decide

/-- V122. -/
theorem test_shotBuild_wraps : (after .shotBuild { ready with seqTx := 0xFFFFFFFF }).seqTx = 0 := by decide

/-- V140. -/
theorem test_shotClassify_hit :
    (after .shotClassify (decoded [0x4C, 0x54, 0, 0, 0, 0, 5] 5)).res0 = 1 ∧
      (after .shotClassify (decoded [0x4C, 0x54, 0, 0, 0, 0, 5] 5)).seqNext = 6 := by decide

/-- V145. -/
theorem test_shotClassify_version :
    (after .shotClassify (decoded [0x4C, 0x54, 1, 0, 0, 0, 7] 7)).res0 = 0 ∧
      (after .shotClassify (decoded [0x4C, 0x54, 1, 0, 0, 0, 7] 7)).seqNext = 7 := by decide

/-- V163: the word runs no command, and LAST_OP is its bits 7:0. -/
theorem test_illegal_status :
    step ⟨_, waits [.write 4 0x0000 0x00000102] ready⟩ =
        .next ⟨_, { ready with code := .illegalCommand, lastOp := 0x02 }⟩ := rfl

/-- V171. -/
theorem test_bus_errors :
    step ⟨_, waits [.read 4 0x0048] ready⟩ = .fault .busError ∧
      step ⟨_, waits [.read 2 0x0004] ready⟩ = .fault .busError ∧
      step ⟨_, waits [.read 4 0x0402] ready⟩ = .fault .busError := ⟨rfl, rfl, rfl⟩

/-- The host places a command word and the very next step runs it (log 1). -/
theorem test_withFetchWord : step (State.reset.withFetchWord 32 4) = exec .shotBuild .reset := rfl

/-! ### Witnesses: for each statement with hypotheses, a concrete state and operands that meet them, clause by clause -/

theorem ready_inv : ready.Inv := by decide

theorem witness_DecodeInvertsEncode : Instr.encode.wf = true ∧ decodeCommand 0x00000005 = .ok .shotClassify :=
  ⟨rfl, rfl⟩

theorem witness_IllegalCommandReported :
    (0x00000100#32).toNat / 256 ≠ 0 ∧ (0x00000000#32).toNat % 256 = 0 ∧ 6 ≤ (0x00000006#32).toNat % 256 ∧
      6 ≤ (0x000000FF#32).toNat % 256 := by decide

theorem witness_StepRunsDecodedCommand :
    (waits [.write 4 0x0000 0x00000002, .powerOn] ready).queue = .write 4 0x0000 0x00000002 :: [.powerOn] ∧
      decodeCommand 0x00000002 = .ok .encode ∧ Instr.encode.wf = true := ⟨rfl, rfl, rfl⟩

theorem witness_StepServesOldestAccess :
    ready.queue = [] ∧ (waits [.write 4 0x0000 0xFFFFFFFF] ready).queue = .write 4 0x0000 0xFFFFFFFF :: [] := ⟨rfl, rfl⟩

theorem witness_ErrorWritesBackOnly :
    (serve (.write 4 0x0000 0x00000003) ⟨_, fresh⟩ = .next ⟨_, after .decode fresh⟩ ∧
        (after .decode fresh).code.isError = true) ∧
      serve (.write 4 0x0000 0x00000001) ⟨_, ready⟩ = .next ⟨_, after .chanInit ready⟩ ∧
        (after .chanInit ready).code.isError = true :=
  ⟨⟨rfl, rfl⟩, rfl, rfl⟩

/-- One command of each kind, with an address next to the elements it writes. -/
theorem witness_CommandsChangeOnlyTheirOwn :
    exec .chanInit ⟨_, args 1000000 200 fresh⟩ = .next ⟨_, after .chanInit (args 1000000 200 fresh)⟩ ∧
      (exec .encode ⟨_, sends 1 16⟩ = .next ⟨_, after .encode (sends 1 16)⟩ ∧
        0x1000 + 4 * (after .encode (sends 1 16)).res0.toNat ≤ 0x1028) ∧
      (exec .decode ⟨_, received frameAA 4⟩ = .next ⟨_, after .decode (received frameAA 4)⟩ ∧
        0x0800 + (after .decode (received frameAA 4)).res0.toNat ≤ 0x0801) ∧
      exec .shotBuild ⟨_, ready⟩ = .next ⟨_, after .shotBuild ready⟩ ∧
      exec .shotClassify ⟨_, ready⟩ = .next ⟨_, after .shotClassify ready⟩ :=
  ⟨exec_after _ _, ⟨exec_after _ _, by decide⟩, ⟨exec_after _ _, by decide⟩, exec_after _ _, exec_after _ _⟩

/-- The boundary addresses: the last register is not reserved, the next word is; so at each end of each buffer. -/
theorem witness_BusErrorExactly :
    base.wf = true ∧ ¬ reservedAddr {} 0x0044 ∧ reservedAddr {} 0x0048 ∧
      reservedAddr {} 0x03FC ∧ ¬ reservedAddr {} 0x0400 ∧ ¬ reservedAddr {} 0x04FC ∧ reservedAddr {} 0x0500 ∧
        reservedAddr {} 0x1200 ∧
      ¬ reservedAddr {} 0x21FC ∧ reservedAddr {} 0x2200 := by
  refine ⟨?_, ?_, ?_, ?_, ?_, ?_, ?_, ?_, ?_, ?_⟩ <;> decide

theorem witness_LegalAccessCompletes :
    base.wf = true ∧ ((waits [.read 4 0x0044] ready).queue = .read 4 0x0044 :: [] ∧ (0x0044#16).toNat % 4 = 0 ∧
        ¬ reservedAddr {} (0x0044#16).toNat) ∧
      (waits [.write 4 0x21FC 7] ready).queue = .write 4 0x21FC 7 :: [] ∧ (0x21FC#16).toNat % 4 = 0 ∧
        ¬ reservedAddr {} (0x21FC#16).toNat := by decide

theorem witness_HostReadHasNoSideEffect :
    (waits [.read 4 0x0024] ready).queue = .read 4 0x0024 :: [] ∧
      step ⟨_, waits [.read 4 0x0024] ready⟩ = .next ⟨_, { ready with hostData := some 0x11942328 }⟩ := ⟨rfl, rfl⟩

theorem witness_PackedRegistersRead :
    (waits [.read 4 0x0000] ready).queue = .read 4 0x0000 :: [] ∧
      (waits [.read 4 0x0014] ready).queue = .read 4 0x0014 :: [] ∧
      (waits [.read 4 0x0018] ready).queue = .read 4 0x0018 :: [] ∧
      (waits [.read 4 0x0038] ready).queue = .read 4 0x0038 :: [] ∧
      (waits [.read 4 0x0044] ready).queue = .read 4 0x0044 :: [] := ⟨rfl, rfl, rfl, rfl, rfl⟩

theorem witness_PlainRegistersRead :
    ((0x0040 : Addr), ready.seqNext) ∈ [((0x0004 : Addr), ready.arg0), (0x0008, ready.arg1), (0x000C, ready.res0),
        (0x0010, ready.res1), (0x001C, ready.cfgRes), (0x0020, ready.cfgMargin), (0x0024, ready.tt.leader),
        (0x0028, ready.tt.bit0), (0x002C, ready.tt.bit1), (0x0030, ready.tt.ending), (0x0034, ready.tt.margin),
        (0x003C, ready.seqTx), (0x0040, ready.seqNext)] ∧
      (waits [.read 4 0x0040] ready).queue = .read 4 0x0040 :: [] := by decide

theorem witness_RegisterWrites :
    (0x000C ≤ (0x000C#16).toNat ∧ (0x0044#16).toNat ≤ 0x0044 ∧ (0x0044#16).toNat % 4 = 0 ∧
        (waits [.write 4 0x0044 9] ready).queue = .write 4 0x0044 9 :: []) ∧
      (waits [.write 4 0x0004 9] ready).queue = .write 4 0x0004 9 :: [] ∧
      (waits [.write 4 0x0008 9] ready).queue = .write 4 0x0008 9 :: [] := by decide

theorem witness_BufferWordReadsBack :
    bufferWordAddr 0x0400 base = true ∧ bufferWordAddr 0x21FC base = true ∧
      (waits [.write 4 0x21FC 9, .read 4 0x21FC] ready).queue = .write 4 0x21FC 9 :: .read 4 0x21FC :: [] := by decide

theorem witness_HostWordPacksBytes :
    base.wf = true ∧
      (((0x0400 : Nat) = 0x0400 ∧ 4 * 0 < base.payloadMax ∨ (0x0400 : Nat) = 0x0800 ∧
        4 * 0 < base.destMax) ∧
        0 < 4) ∧
      ((0x0800 : Nat) = 0x0400 ∧ 4 * 63 < base.payloadMax ∨
        (0x0800 : Nat) = 0x0800 ∧ 4 * 63 < base.destMax) ∧ 3 < 4 := by decide

theorem witness_PowerOnResetsRegisters :
    (waits [.powerOn, .read 4 0x003C] ready).queue = .powerOn :: [.read 4 0x003C] := rfl

theorem witness_PowerOnDrawsBuffers : (waits [.powerOn] (sends 1 16)).queue = .powerOn :: [] := rfl

/-- V1, and the corners V6 and V11 of the acceptable operands. -/
theorem witness_ChanInitBuildsTable :
    base.wf = true ∧
      (args 1000000 200 fresh).ttValid = false ∧ validOperands {} 1000000 200 ∧ validOperands {} 7281777 200 ∧
      validOperands {} 1000000 564 := by decide

/-- V13, V7, V9 and V12. -/
theorem witness_ChanInitErrors :
    ready.ttValid = true ∧ (args 7281778 200 fresh).ttValid = false ∧ ¬ validOperands {} 7281778 200 ∧
      ¬ validOperands {} 0 200 ∧ ¬ validOperands {} 1000000 565 := by decide

theorem witness_ChanInitCornerCases :
    ((args 5000 200 fresh).ttValid = false ∧ (args 5000 200 fresh).arg1 = 200 ∧
        exec .chanInit ⟨_, args 5000 200 fresh⟩ = .next ⟨_, after .chanInit (args 5000 200 fresh)⟩) ∧
      (args 1000000 564 fresh).ttValid = false ∧ (args 1000000 564 fresh).arg0 = 1000000 ∧
        exec .chanInit ⟨_, args 1000000 564 fresh⟩ = .next ⟨_, after .chanInit (args 1000000 564 fresh)⟩ :=
  ⟨⟨rfl, rfl, exec_after _ _⟩, rfl, rfl, exec_after _ _⟩

theorem witness_TableReadOnlyUntilPowerOn :
    ready.ttValid = true ∧ (HostAccess.write 4 0x0024 9) ≠ .powerOn ∧
      serve (.write 4 0x0024 9) ⟨_, ready⟩ = .next ⟨_, ready⟩ :=
  ⟨rfl, by decide, rfl⟩

theorem witness_WindowsDisjoint : base.wf = true ∧ ready.tableInv ∧ ready.ttValid = true :=
  ⟨ready_inv.1, ready_inv.2.1, rfl⟩

theorem witness_FrameSymbols : 0 < ([0xAA] : List Byte).length ∧ 7 < 8 := by decide

theorem witness_EncodeErrors :
    fresh.ttValid = false ∧ ready.ttValid = true ∧ base.payloadMax < (args 257 4 ready).arg0.toNat ∧
      base.txsymMax < (args 1 129 ready).arg1.toNat := by decide

theorem witness_EncodeZeroCapacity :
    (ready.ttValid = true ∧ (args 256 0 ready).arg0.toNat ≤ base.payloadMax ∧ (args 256 0 ready).arg1 = 0) ∧
      ready.ttValid = true ∧ (args 256 1 ready).arg0.toNat ≤ base.payloadMax ∧
        1 ≤ (args 256 1 ready).arg1.toNat ∧
      (args 256 128 ready).arg1.toNat ≤ base.txsymMax := by decide

/-- A session in the middle of a frame. -/
def midFrame (ph : Phase) (pc : Fin (base.payloadMax + 1)) (bc : Fin 8) (l c : Word) : Block base :=
  { args l c ready with session := ⟨ph, pc, bc⟩ }

/-- In Leader, in Data with one bit left, and in Ending. -/
theorem witness_EncodePositionForm :
    ∀ s ∈ [midFrame .leader 0 0 0 128, midFrame .data 1 7 2 1, midFrame .ending 2 0 2 1],
      base.wf = true ∧ s.ttValid = true ∧ s.arg0.toNat ≤ base.payloadMax ∧ 1 ≤ s.arg1.toNat ∧
        s.arg1.toNat ≤ base.txsymMax ∧ s.sessionInv ∧
        (s.session.phase = .data → s.session.pcur.val ≤ s.arg0.toNat) ∧
        framePos s.arg0.toNat s.session < 2 + 8 * s.arg0.toNat := by decide

/-- What a run of ENCODE commands emits and the block it leaves, and that it leaves one. -/
def ran : List Word → Block cfg → List Word × Block cfg
  | [], s => ([], s)
  | c :: cs, s =>
    let t := after .encode { s with arg1 := c }
    let r := ran cs t
    (t.txsymList t.res0.toNat ++ r.1, r.2)

theorem encodeRun_ran (cs : List Word) (s : Block cfg) :
    encodeRun cs ⟨_, s⟩ = some ((ran cs s).1, ⟨_, (ran cs s).2⟩) := by
  induction cs generalizing s with
  | nil => rfl
  | cons c cs ih => simp only [encodeRun, exec_after, ih, Option.map_some, ran]

/-- V52: the capacities 0, 1, 0, 8, 0 and then 1. -/
theorem witness_EncodeResumable :
    base.wf = true ∧ (sends 1 0).ttValid = true ∧ (sends 1 0).arg0.toNat ≤ base.payloadMax ∧
      (sends 1 0).session = ⟨.leader, 0, 0⟩ ∧
      (∀ d ∈ ([0, 1, 0, 8, 0] : List Word) ++ [1], d.toNat ≤ base.txsymMax) ∧
      (∀ k, 1 ≤ k → k ≤ ([0, 1, 0, 8, 0] : List Word).length →
        ∃ out u, encodeRun (([0, 1, 0, 8, 0] : List Word).take k) ⟨_, sends 1 0⟩ = some (out, ⟨base, u⟩) ∧
          u.res1 = 0) ∧
      encodeRun (([0, 1, 0, 8, 0] : List Word) ++ [1]) ⟨_, sends 1 0⟩ =
        some ((ran [0, 1, 0, 8, 0, 1] (sends 1 0)).1, ⟨_, (ran [0, 1, 0, 8, 0, 1] (sends 1 0)).2⟩) ∧
      (ran [0, 1, 0, 8, 0, 1] (sends 1 0)).2.res1 = 1 ∧ 2 + 8 * (sends 1 0).arg0.toNat ≤ (10 : Word).toNat ∧
      (10 : Word).toNat ≤ base.txsymMax := by
  refine ⟨rfl, rfl, by decide, rfl, by simp, fun k h1 h5 => ⟨_, _,
    encodeRun_ran _ _, ?_⟩, encodeRun_ran _ _, by decide,
    by decide, by decide⟩
  have h5' : k ≤ 5 := h5
  obtain rfl | rfl | rfl | rfl | rfl : k = 1 ∨ k = 2 ∨ k = 3 ∨ k = 4 ∨ k = 5 := by omega
  all_goals decide

/-- V51: capacity 4, the third of three commands. -/
theorem witness_EncodeCallCount :
    base.wf = true ∧ (sends 1 4).ttValid = true ∧ (sends 1 4).arg0.toNat ≤ base.payloadMax ∧
      (sends 1 4).session = ⟨.leader, 0, 0⟩ ∧
      1 ≤ (4 : Word).toNat ∧ (4 : Word).toNat ≤ base.txsymMax ∧ 1 ≤ 3 ∧
      3 ≤ (2 + 8 * (sends 1 4).arg0.toNat + ((4 : Word).toNat - 1)) / (4 : Word).toNat := by decide

theorem witness_EncodeEmptyPayload :
    base.wf = true ∧ (args 0 2 ready).ttValid = true ∧ (args 0 2 ready).arg0 = 0 ∧
      (args 0 2 ready).session = ⟨.leader, 0, 0⟩ ∧
      2 ≤ (args 0 2 ready).arg1.toNat ∧ (args 0 128 ready).arg1.toNat ≤ base.txsymMax ∧
        (args 0 1 ready).arg1 = 1 := by decide

/-- V60: PCUR 0 and the payload shortened to nothing; and PCUR at its end with bits of a byte begun. -/
theorem witness_EncodeShortenedPayload :
    ∀ s ∈ [midFrame .data 0 4 0 5, midFrame .data 256 7 256 128],
      s.ttValid = true ∧ s.session.phase = .data ∧ s.arg0.toNat ≤ base.payloadMax ∧
        s.arg0.toNat ≤ s.session.pcur.val ∧ 1 ≤ s.arg1.toNat ∧ s.arg1.toNat ≤ base.txsymMax := by decide

theorem witness_FrameCompleteMeansEndingSent :
    (exec .encode ⟨_, sends 1 10⟩ = .next ⟨_, after .encode (sends 1 10)⟩ ∧ (after .encode (sends 1 10)).res1 = 1) ∧
      exec .encode ⟨_, sends 1 9⟩ = .next ⟨_, after .encode (sends 1 9)⟩ ∧ (after .encode (sends 1 9)).res1 ≠ 1 ∧
        (after .encode (sends 1 9)).code = .ok :=
  ⟨⟨exec_after _ _, by decide⟩, exec_after _ _, by decide, by decide⟩

theorem witness_FrameNeverCancelled :
    let s := waits [.write 4 0x0000 0x00000002] (midFrame .ending 0 0 0 1)
    s.Inv ∧ s.session.phase ≠ .leader ∧ s.queue.head? ≠ some .powerOn ∧
        step ⟨_, s⟩ = .next ⟨_, after .encode (waits [] s)⟩ ∧
      (after .encode (waits [] s)).session.phase = .leader :=
  ⟨by decide, by decide, by decide, rfl, by decide⟩

theorem witness_DecodeEarlyErrors :
    base.wf = true ∧ fresh.ttValid = false ∧ ready.ttValid = true ∧
      base.rxsymMax < (args 129 16 ready).arg0.toNat ∧
      base.destMax < (args 10 257 ready).arg1.toNat ∧ (args 1 256 ready).arg0.toNat < 2 ∧
      (args 1 256 ready).arg1.toNat ≤ base.destMax := by decide

/-- V100. -/
theorem witness_DecodeLeaderMismatch :
    let s := received (frameAA.set 0 0x11940064) 16
    s.ttValid = true ∧ 2 ≤ s.arg0.toNat ∧ s.arg0.toNat ≤ base.rxsymMax ∧ s.arg1.toNat ≤ base.destMax ∧
      matchSym s.tt (s.rxsym 0) s.tt.leader = false := by decide

/-- V37: an idle between the windows, in the group the loop reads. -/
theorem witness_DecodeTimingViolation :
    let s := received (frameAA.set 1 0x044C0230) 4
    s.ttValid = true ∧ s.arg0.toNat ≤ base.rxsymMax ∧ s.arg1.toNat ≤ base.destMax ∧
      matchSym s.tt (s.rxsym 0) s.tt.leader = true ∧
      0 < s.arg1.toNat ∧ 8 * 0 + 10 ≤ s.arg0.toNat ∧ 0 < 8 ∧ classifyBit s.tt (s.rxsym (1 + 8 * 0 + 0)) = none := by
  decide

/-- V82, V92 and V95: no room for the group, a partial group, and a last symbol that is no ending. -/
theorem witness_DecodeTailErrors :
    let good (s : Block base) (k : Nat) : Prop := s.ttValid = true ∧ s.arg0.toNat ≤ base.rxsymMax ∧
      s.arg1.toNat ≤ base.destMax ∧
      matchSym s.tt (s.rxsym 0) s.tt.leader = true ∧ k ≤ s.arg1.toNat ∧ 8 * k + 2 ≤ s.arg0.toNat ∧
      ∀ i, i < 8 * k → classifyBit s.tt (s.rxsym (1 + i)) ≠ none
    (good (received frameAA 0) 0 ∧ 0 = (received frameAA 0).arg1.toNat ∧
        8 * 0 + 10 ≤ (received frameAA 0).arg0.toNat) ∧
      (good (received [0x11942328, 0x02300230, 0xFFFF0230] 16) 0 ∧
        8 * 0 + 3 ≤ (received [0x11942328, 0x02300230, 0xFFFF0230] 16).arg0.toNat ∧
        (received [0x11942328, 0x02300230, 0xFFFF0230] 16).arg0.toNat ≤ 8 * 0 + 9) ∧
      good (received (frameAA.set 9 0x11942328) 16) 1 ∧
      (received (frameAA.set 9 0x11942328) 16).arg0.toNat = 8 * 1 + 2 ∧
        matchEnd ready.tt ((received (frameAA.set 9 0x11942328) 16).rxsym 9) = false := by
  simp only
  refine ⟨?_, ?_, ?_⟩ <;> decide

theorem witness_DecodeAcceptsExactlyFrames :
    (received frameAA 4).ttValid = true ∧ (received frameAA 4).arg0.toNat ≤ base.rxsymMax ∧
      (received frameAA 4).arg1.toNat ≤ base.destMax := by
  decide

/-- V80. -/
theorem witness_DecodeRoundTrip :
    base.wf = true ∧ (received frameAA 1).tableInv ∧ (received frameAA 1).ttValid = true ∧
      1 ≤ ([0xAA] : List Byte).length ∧
      (received frameAA 1).arg0.toNat = 2 + 8 * ([0xAA] : List Byte).length ∧
      (received frameAA 1).arg0.toNat ≤ base.rxsymMax ∧
      ([0xAA] : List Byte).length ≤ (received frameAA 1).arg1.toNat ∧
        (received frameAA 1).arg1.toNat ≤ base.destMax ∧
      (received frameAA 1).rxsymList (received frameAA 1).arg0.toNat = frame (received frameAA 1).tt [0xAA] := by
  decide

/-- V90. -/
theorem witness_DecodeEmptyFrame :
    let s := received [0x11942328, 0xFFFF0230] 0
    base.wf = true ∧ s.ttValid = true ∧ s.arg0 = 2 ∧ s.arg1.toNat ≤ base.destMax ∧
      matchSym s.tt (s.rxsym 0) s.tt.leader = true ∧
      matchEnd s.tt (s.rxsym 1) = true := by decide

/-- A decode that succeeds, one that is empty and one that fails. -/
theorem witness_DecodeAllOrNothing :
    (exec .decode ⟨_, received frameAA 4⟩ = .next ⟨_, after .decode (received frameAA 4)⟩ ∧
        (after .decode (received frameAA 4)).code = .ok ∧
          0x0801 ≥ 0x0800 + (after .decode (received frameAA 4)).res0.toNat) ∧
      exec .decode ⟨_, received frameAA 0⟩ = .next ⟨_, after .decode (received frameAA 0)⟩ ∧
        (after .decode (received frameAA 0)).code ≠ .ok ∧ (after .decode (received frameAA 0)).code ≠ .emptyFrame ∧
        (after .decode (received frameAA 0)).code.isError = true :=
  ⟨⟨exec_after _ _, by decide, by decide⟩, exec_after _ _, by decide, by decide, by decide⟩

theorem witness_DecodeWritesDecResult :
    base.wf = true ∧
      (exec .decode ⟨_, received frameAA 4⟩ = .next ⟨_, after .decode (received frameAA 4)⟩ ∧
        (after .decode (received frameAA 4)).code.isError = false) ∧
      (exec .decode ⟨_, received frameAA 0⟩ = .next ⟨_, after .decode (received frameAA 0)⟩ ∧
        (after .decode (received frameAA 0)).code.isError = true) ∧
      Instr.shotClassify ≠ .decode ∧ exec .shotClassify ⟨_, ready⟩ = .next ⟨_, after .shotClassify ready⟩ :=
  ⟨rfl, ⟨exec_after _ _, by decide⟩, ⟨exec_after _ _, by decide⟩, by decide, exec_after _ _⟩

/-- Two states that differ in the framing and encoder state, in DEST and elsewhere, and hold the same burst. -/
theorem witness_DecodeIsPure :
    let s := received frameAA 4
    let r := { received frameAA 4 with session := ⟨.ending, 1, 0⟩, seqTx := 7, seqNext := 9, res0 := 3 }
    let s' := r.setByte destBase 1
    s.arg0 = s'.arg0 ∧ s.arg1 = s'.arg1 ∧ s.ttValid = s'.ttValid ∧ s.tt = s'.tt ∧
      s.rxsymList s.arg0.toNat = s'.rxsymList s.arg0.toNat ∧ exec .decode ⟨_, s⟩ = .next ⟨_, after .decode s⟩ ∧
      exec .decode ⟨_, s'⟩ = .next ⟨_, after .decode s'⟩ :=
  ⟨by decide, by decide, by decide, by decide, by decide, exec_after _ _, exec_after _ _⟩

/-- V36: the ending's idle 65535 and 0. -/
theorem witness_DecodeIgnoresEndingIdle :
    let s := received frameAA 4
    let s' := received (frameAA.set 9 0x00000230) 4
    s.arg0.toNat = 9 + 1 ∧ s.arg0 = s'.arg0 ∧ s.arg1 = s'.arg1 ∧ s.ttValid = s'.ttValid ∧
      s.tt = s'.tt ∧
      s.rxsymList 9 = s'.rxsymList 9 ∧ symAct 16 (s.rxsym 9) = symAct 16 (s'.rxsym 9) ∧
      exec .decode ⟨_, s⟩ = .next ⟨_, after .decode s⟩ ∧ exec .decode ⟨_, s'⟩ = .next ⟨_, after .decode s'⟩ :=
  ⟨by decide, by decide, by decide, by decide, by decide, by decide, by decide, exec_after _ _, exec_after _ _⟩

/-- V30 and V35, each side: the idle of symbol 1 at 360 and at 361, and the ending's active phase at 760 and at 759. -/
theorem witness_DecodeToleranceBoundary :
    ∀ x ∈ ([(1, 360, 560, true, false), (1, 361, 560, true, true), (9, 760, 560, false, false),
        (9, 759, 560, false, true)] :
        List (Nat × Nat × Nat × Bool × Bool)),
      let w := frameAA.getD x.1 0
      let s := received (frameAA.set x.1 (if x.2.2.2.1 then symWord 16 (symAct 16 w) x.2.1
        else symWord 16 x.2.1 (symIdle 16 w))) 4
      base.wf = true ∧ s.tableInv ∧ s.ttValid = true ∧ 1 ≤ ([0xAA] : List Byte).length ∧
        s.arg0.toNat = 2 + 8 * ([0xAA] : List Byte).length ∧ s.arg0.toNat ≤ base.rxsymMax ∧
        ([0xAA] : List Byte).length ≤ s.arg1.toNat ∧ s.arg1.toNat ≤ base.destMax ∧
          (frame s.tt [0xAA])[x.1]? = some w ∧
        x.2.1 ≤ base.durMax ∧
        ((x.2.2.1 = symAct 16 w ∧ s.rxsymList s.arg0.toNat =
            (frame s.tt [0xAA]).set x.1 (symWord 16 x.2.1 (symIdle 16 w))) ∨
          (x.2.2.1 = symIdle 16 w ∧ x.1 < 1 + 8 * ([0xAA] : List Byte).length ∧ s.rxsymList s.arg0.toNat =
            (frame s.tt [0xAA]).set x.1 (symWord 16 (symAct 16 w) x.2.1))) ∧
        exec .decode ⟨_, s⟩ = .next ⟨_, after .decode s⟩ ∧
        (if x.2.2.2.2 then x.2.1 + (s.tt.margin.toNat - 1) = x.2.2.1 ∨ x.2.1 = x.2.2.1 + (s.tt.margin.toNat - 1)
          else x.2.1 + s.tt.margin.toNat = x.2.2.1 ∨ x.2.1 = x.2.2.1 + s.tt.margin.toNat) := by
  simp only [List.forall_mem_cons, List.not_mem_nil, false_implies, implies_true, and_true]
  refine ⟨?_, ?_, ?_, ?_⟩ <;>
    refine ⟨by decide, by decide, by decide, by decide, by decide, by decide, by decide, by decide, by decide,
      by decide,
      by decide, exec_after _ _, by decide⟩

/-- A fresh shot frame with the number expected (V140), with another (V142), and no shot frame (V145). -/
theorem witness_ShotClassifyOutcome :
    let fits (s : Block base) : Prop :=
      s.dec.fresh = true ∧ s.dec.count.val = 7 ∧ s.dest 0 = 0x4C ∧ s.dest 1 = 0x54 ∧ s.dest 2 = 0x00
    let seq (s : Block base) : Nat :=
      (s.dest 3).toNat * 2 ^ 24 + (s.dest 4).toNat * 2 ^ 16 + (s.dest 5).toNat * 2 ^ 8 + (s.dest 6).toNat
    (fits (decoded [0x4C, 0x54, 0, 0, 0, 0, 5] 5) ∧ seq (decoded [0x4C, 0x54, 0, 0, 0, 0, 5] 5) = (5#32).toNat) ∧
      (fits (decoded [0x4C, 0x54, 0, 0, 0, 0, 9] 7) ∧ seq (decoded [0x4C, 0x54, 0, 0, 0, 0, 9] 7) ≠ (7#32).toNat) ∧
      ¬ fits (decoded [0x4C, 0x54, 1, 0, 0, 0, 7] 7) := by
  simp only
  refine ⟨?_, ?_, ?_⟩ <;> decide

theorem witness_ShotClassifiedAtMostOnce :
    exec .shotClassify ⟨_, decoded [0x4C, 0x54, 0, 0, 0, 0, 5] 5⟩ =
        .next ⟨_, after .shotClassify (decoded [0x4C, 0x54, 0, 0, 0, 0, 5] 5)⟩ ∧
      ready.dec.fresh = false ∧ Instr.encode ≠ .decode ∧ exec .encode ⟨_, ready⟩ = .next ⟨_, after .encode ready⟩ :=
  ⟨exec_after _ _, rfl, by decide, exec_after _ _⟩

/-- The sender of the link, and a receiver that holds what it sent. -/
theorem witness_ShotLinkEndToEnd :
    let s2 := after .encode (args 7 128 (after .shotBuild ready))
    let r := (args 58 7 ready).setWords rxsymBase (s2.txsymList 58)
    (ready.Inv ∧ ready.ttValid = true ∧ ready.session.phase = .leader ∧ 58 ≤ (128 : Word).toNat ∧
        (128 : Word).toNat ≤ base.txsymMax) ∧
      r.ttValid = true ∧ r.tt = ready.tt ∧ r.arg0 = 58 ∧ 7 ≤ r.arg1.toNat ∧
      r.arg1.toNat ≤ base.destMax ∧ r.rxsymList 58 = s2.txsymList 58 := by
  refine ⟨⟨ready_inv, rfl, rfl, by decide, by decide⟩, by simp [args, ready], by simp [args],
    by simp [args], by simp [args], by simp [args], ?_⟩
  have h := Block.map_wordAt_setWords (args 58 7 ready) rxsymBase
    ((after .encode (args 7 128 (after .shotBuild ready))).txsymList 58)
  rw [Block.txsymList_length] at h
  exact h

theorem witness_LineTimeOfPayload :
    8 = (([0xAA, 0x00, 0x0F] : List Byte).flatMap fun b => (List.range 8).map b.getLsbD).count true ∧
      16 = (([0xAA, 0x00, 0x0F] : List Byte).flatMap fun b => (List.range 8).map b.getLsbD).count false := by decide

theorem witness_StepKeepsInvariant :
    (waits [.write 4 0x0000 0x00000004] ready).Inv ∧
      step ⟨_, waits [.write 4 0x0000 0x00000004] ready⟩ = .next ⟨_, after .shotBuild ready⟩ := ⟨by decide, rfl⟩

/-- An instance with parameters of its own. -/
theorem witness_ResetHasInvariant :
    ({ txsymMax := 64, durW := 12, payloadMax := 64 } : Config.Params).wf = true := by decide

theorem witness_ParametersKeepTheirValues :
    step ⟨_, waits [.powerOn] ready⟩ = .next ⟨_, ready.powerOnReset⟩ := rfl

theorem witness_OnlyShotBuildMovesSeqTx :
    step ⟨_, waits [.write 4 0x0000 0x00000004] ready⟩ = .next ⟨_, after .shotBuild ready⟩ ∧
      (after .shotBuild ready).seqTx ≠ ready.seqTx := ⟨rfl, by decide⟩

theorem witness_OnlyHitMovesSeqNext :
    let s := decoded [0x4C, 0x54, 0, 0, 0, 0, 5] 5
    step ⟨_, waits [.write 4 0x0000 0x00000005] s⟩ = .next ⟨_, after .shotClassify s⟩ ∧
      (after .shotClassify s).seqNext ≠ s.seqNext := ⟨rfl, by decide⟩

theorem witness_LegalHostNeverFaults :
    (waits [.write 4 0x0004 9, .read 4 0x21FC, .powerOn] ready).hostIsLegal = true := by decide

theorem witness_PseudoInstructionsRun : ready.queue = [] := rfl

/-- The shortest and the longest lists. -/
theorem witness_LoadStatementsFillBuffers :
    base.wf = true ∧ ready.queue = [] ∧ (Stmt.loadpay [1]).wf base = true ∧
      (Stmt.loadpay (List.replicate 256 1)).wf base = true ∧ (Stmt.loadrx [1]).wf base = true ∧
      (Stmt.loadrx (List.replicate 128 1)).wf base = true := by
  refine ⟨rfl, rfl, rfl, ?_, rfl, ?_⟩ <;> (unfold Stmt.wf; simp only [List.length_replicate]; rfl)

end Sys2Proof.Machine.Tests
end

section
/-! The parameters of the instance (00_scope R8, 10_state R41, log 6): the values the machine resets with, and that
they stay. -/

namespace Sys2Proof.Machine

/-- Reset builds an instance with the parameters it is given (log 6). -/
@[simp] theorem State.resetWith_params (cfg : Config.Params) : (State.resetWith cfg).params = cfg := rfl

/-- The machine of the spec is the instance of the defaults (00_scope R8). -/
@[simp] theorem State.reset_params : State.reset.params = {} := State.resetWith_params {}

/-- Settles O54: at reset the parameters are the defaults of the record, whose values R8 gives, and a step keeps them
because every command and every access served does (`step_params`). -/
theorem parametersKeepTheirValues : Obligations.ParametersKeepTheirValues := by
  refine ⟨?defaults, ?durMax, ?kept⟩
  case defaults => simp
  case durMax => simp [Config.Params.durMax]
  case kept =>
    intro s t hs
    exact step_params hs

end Sys2Proof.Machine
end

section
/-! The invariant of the block (10_state R32, R34, R37, 20_memory R62): reset has it and every step keeps it. -/

namespace Sys2Proof.Machine

variable {cfg : Config.Params}

/-! ### What the invariant does not read -/

section
variable (s : Block cfg)

/-- The write-back of a command touches no piece of the invariant (30_encoding R94). -/
theorem Block.inv_finish (op : Byte) (c : StatusCode) (r0 r1 : Word) : (s.finish op c r0 r1).Inv ↔ s.Inv := Iff.rfl

theorem Block.inv_raise (op : Byte) (e : StatusCode) : (s.raise op e).Inv ↔ s.Inv := Iff.rfl

theorem Block.inv_illegalCommand (w : Word) : (s.illegalCommand w).Inv ↔ s.Inv := Iff.rfl

theorem Block.inv_withQueue (q : List HostAccess) : { s with queue := q }.Inv ↔ s.Inv := Iff.rfl

theorem Block.inv_withHostData (d : Option Word) : { s with hostData := d }.Inv ↔ s.Inv := Iff.rfl

theorem Block.inv_withSeqTx (q : Word) : { s with seqTx := q }.Inv ↔ s.Inv := Iff.rfl

/-- The registers a host can write are the operands, which the invariant does not read (10_state R23, R24). -/
theorem Block.inv_writeReg (r : Reg) (v : Word) : (s.writeReg r v).Inv ↔ s.Inv := by
  cases r <;> exact Iff.rfl

end

/-! ### Buffers -/

section
variable {s : Block cfg}

/-- A word the host writes to a buffer keeps the invariant (20_memory R62). -/
theorem Block.inv_setWord (hs : s.Inv) {a : Nat} (v : Word) (h4 : a % 4 = 0) (ha : isBufferAddr cfg a = true) :
    (s.setWord a v).Inv := by
  obtain ⟨hp, htable, hsession, hdec, hwf, hall⟩ := hs
  refine ⟨hp, ?_, ?_, ?_, Block.wf_setWord a v hwf, Block.all_setWord v (isBufferAddr_word hp h4 ha) hall⟩
  all_goals simpa only [Block.tableInv, Block.sessionInv, Block.decInv, Block.setWord_ttValid, Block.setWord_tt,
    Block.setWord_cfgRes, Block.setWord_cfgMargin, Block.setWord_session, Block.setWord_dec]

/-- Bytes written within a buffer keep the memory's form. -/
theorem Block.memInv_setBytes (hs : s.memInv) {a : Nat} {bs : List Byte}
    (ha : ∀ j < bs.length, isBufferAddr cfg (a + j) = true) : (s.setBytes a bs).memInv :=
  ⟨Block.wf_setBytes a bs hs.1, Block.all_setBytes bs ha hs.2⟩

/-- Words written within a buffer keep the memory's form. -/
theorem Block.memInv_setWords (hs : s.memInv) {a : Nat} {ws : List Word}
    (ha : ∀ j < 4 * ws.length, isBufferAddr cfg (a + j) = true) : (s.setWords a ws).memInv :=
  ⟨Block.wf_setWords a ws hs.1, Block.all_setWords ws ha hs.2⟩

end

/-! ### Power-on reset -/

/-- The registers and the empty buffers of power-on reset meet the invariant (10_state R40). -/
theorem Block.inv_reset (hp : cfg.wf = true) : (Block.reset (cfg := cfg)).Inv := by
  refine ⟨hp, ⟨?_, ?_⟩, ⟨?_, ?_, ?_⟩, ⟨?_, ?_⟩, Block.wf_reset, ?_⟩ <;> simp [Block.reset]

theorem Block.inv_powerOnReset (s : Block cfg) (hp : cfg.wf = true) : s.powerOnReset.Inv := Block.inv_reset hp

/-! ### CHAN_INIT -/

/-- The table CHAN_INIT builds is the one of the operands it latches, and the session starts again (40_timing R130). -/
theorem Block.inv_initChannel {s : Block cfg} (hs : s.Inv) (hv : tableValid cfg s.opRes s.opMargin = true) :
    s.initChannel.Inv := by
  obtain ⟨hp, -, -, hdec, hmem⟩ := hs
  refine ⟨hp, ⟨fun _ => ⟨hv, rfl⟩, ?_⟩, ⟨?_, ?_, ?_⟩, hdec, hmem⟩ <;> simp

/-! ### ENCODE -/

/-- What ENCODE has to leave for its session to be legal (10_state R32). -/
def EncodeStep.CursorsLegal (r : EncodeStep) : Prop :=
  (r.phase = .leader → r.pcur = 0 ∧ r.bcur = 0) ∧ (r.phase = .ending → r.bcur = 0)

/-- When the Data loop, started within the payload, comes to its end, no bit is in progress (41_encoder R152). -/
theorem dataLoop_bcur_at_end (t : TimingTable cfg) (p : List Byte) (room : Nat) {pc bc : Nat} (hb : bc < 8)
    (hp : 8 * pc + bc ≤ 8 * p.length) (h : p.length ≤ (dataLoop t p room pc bc).2.1) :
    (dataLoop t p room pc bc).2.2 = 0 := by
  have := dataLoop_pos t p room pc bc hb hp
  omega

/-- The Ending phase leaves legal cursors when it is entered with no bit in progress or with room for the ending
(41_encoder R153). -/
theorem endingPhase_cursorsLegal (t : TimingTable cfg) (c : Nat) (ss : List Word) {ph : Phase} (pc : Nat) {bc : Nat}
    (hph : ph ≠ .leader) (h : ph = .ending → bc = 0 ∨ ss.length < c) : (endingPhase t c ss ph pc bc).CursorsLegal := by
  unfold endingPhase
  split
  · simp [EncodeStep.CursorsLegal]
  · rename_i hroom
    refine ⟨fun hl => absurd hl hph, fun he => ?_⟩
    rcases h he with h0 | hlt
    · exact h0
    · exact absurd ⟨he, hlt⟩ hroom

/-- The Data phase leaves legal cursors. A cursor beyond the payload (41_encoder R159, a shorter L in the middle of a
frame) stops the loop at once, so the ending's room is there when nothing was emitted before. -/
theorem dataPhase_cursorsLegal (t : TimingTable cfg) (p : List Byte) {c : Nat} (ss : List Word) {pc bc : Nat}
    (hb : bc < 8) (h : 8 * pc + bc ≤ 8 * p.length ∨ ss.length < c) :
    (dataPhase t p c ss .data pc bc).CursorsLegal := by
  rw [dataPhase, if_pos rfl]
  refine endingPhase_cursorsLegal t c _ _ (by split <;> decide) fun hend => ?_
  have hdone : p.length ≤ (dataLoop t p (c - ss.length) pc bc).2.1 := by
    by_contra hlt
    rw [if_neg hlt] at hend
    cases hend
  by_cases hin : 8 * pc + bc ≤ 8 * p.length
  · exact .inl (dataLoop_bcur_at_end t p _ hb hin hdone)
  · rw [dataLoop_done t p _ bc (by omega), List.append_nil]
    exact .inr (h.resolve_left hin)

/-- One ENCODE of capacity at least 1 leaves legal cursors, whatever its payload (41_encoder R150). -/
theorem encodeStep_cursorsLegal (t : TimingTable cfg) (p : List Byte) {c : Nat} {e : EncodeSession cfg} (hc : 1 ≤ c)
    (hlead : e.phase = .leader → e.pcur = 0 ∧ e.bcur = 0) : (encodeStep t p c e).CursorsLegal := by
  unfold encodeStep
  split
  · rename_i hl
    obtain ⟨hpc, hbc⟩ := hlead hl
    exact dataPhase_cursorsLegal t p _ e.bcur.isLt (.inl (by simp [hpc, hbc]))
  · rename_i hl
    cases hph : e.phase with
    | leader => exact absurd hph hl
    | data => exact dataPhase_cursorsLegal t p _ e.bcur.isLt (.inr hc)
    | ending =>
      rw [dataPhase, if_neg (by decide)]
      exact endingPhase_cursorsLegal t c _ _ (by decide) fun _ => .inr hc

/-- Legal cursors make a legal session once a table is built (10_state R32). -/
theorem EncodeStep.CursorsLegal.session {r : EncodeStep} (hr : r.CursorsLegal) :
    ((r.session cfg).phase = .leader → (r.session cfg).pcur = 0 ∧ (r.session cfg).bcur = 0) ∧
      ((r.session cfg).phase = .ending → (r.session cfg).bcur = 0) := by
  refine ⟨fun hl => ?_, fun he => ?_⟩
  · obtain ⟨hpc, hbc⟩ := hr.1 hl
    simp [EncodeStep.session, hpc, hbc]
  · simp [EncodeStep.session, hr.2 he]

/-- What ENCODE writes keeps the invariant: a legal session, and no more symbols than TXSYM holds (41_encoder R150,
R154). -/
theorem Block.inv_commitEncode {s : Block cfg} (hs : s.Inv) (hv : s.ttValid = true) (hr : s.encodeInRange = true)
    (hc : 1 ≤ s.opCapacity) : (s.commitEncode s.encodeStep).Inv := by
  obtain ⟨hp, htable, ⟨hlead, -, -⟩, hdec, hmem⟩ := hs
  obtain ⟨hl, he⟩ := (encodeStep_cursorsLegal s.tt (s.payloadList s.opLength) hc hlead).session (cfg := cfg)
  have hlen : s.encodeStep.syms.length ≤ cfg.txsymMax :=
    (encodeStep_length_le _ _ _ _ hc).trans (s.encodeInRange_iff.mp hr).2
  have hmem' : (s.setWords txsymBase s.encodeStep.syms).memInv := by
    refine Block.memInv_setWords hmem fun j hj => isBufferAddr_iff.mpr ?_
    simp only [txsymBase]
    omega
  rw [Block.commitEncode_eq]
  exact ⟨hp, htable, ⟨hl, he, fun h => absurd (hv.symm.trans h) (by decide)⟩, hdec, hmem'⟩

/-! ### DECODE -/

/-- A DECODE that fails leaves no count and no fresh frame (42_decoder R192). -/
theorem Block.inv_failDecode {s : Block cfg} (hs : s.Inv) (op : Byte) (e : StatusCode) : (s.failDecode op e).Inv := by
  obtain ⟨hp, htable, hsession, -, hmem⟩ := hs
  refine ⟨hp, htable, hsession, ⟨?_, ?_⟩, hmem⟩ <;> simp

/-- The code of a decode is OK exactly when it has a byte (42_decoder R189). -/
theorem decodeCode_eq_ok {k : Nat} : decodeCode k = .ok ↔ 1 ≤ k := by
  unfold decodeCode
  split <;> simp <;> omega

/-- What a successful DECODE writes keeps the invariant: DEC_RESULT agrees with the bytes, and they fit DEST (42_decoder
R188, R192). -/
theorem Block.inv_commitDecode {s : Block cfg} (hs : s.Inv) {bs : List Byte} (hlen : bs.length ≤ cfg.destMax) :
    (s.commitDecode bs).Inv := by
  obtain ⟨hp, htable, hsession, -, hmem⟩ := hs
  have hcount : (Fin.ofNat (cfg.destMax + 1) bs.length).val = bs.length := Nat.mod_eq_of_lt (by omega)
  have hmem' : (s.setBytes destBase bs).memInv := by
    refine Block.memInv_setBytes hmem fun j hj => isBufferAddr_iff.mpr ?_
    simp only [destBase]
    omega
  rw [Block.commitDecode_eq]
  refine ⟨hp, htable, hsession, ⟨fun hfresh => ?_, fun hcode => ?_⟩, hmem'⟩
  · have h1 : 1 ≤ bs.length := by simpa using hfresh
    exact ⟨decodeCode_eq_ok.mpr h1, hcount.symm ▸ h1⟩
  · have h0 : ¬ 1 ≤ bs.length := fun h1 => hcode (decodeCode_eq_ok.mpr h1)
    exact Fin.ext (hcount.trans (by simpa using h0))

/-! ### Shots -/

/-- The seven bytes of a shot frame fit PAYLOAD (43_shot R211). -/
theorem Block.inv_setShotBytes {s : Block cfg} (hs : s.Inv) (q : Word) :
    (s.setBytes payloadBase (shotBytes q)).Inv := by
  obtain ⟨hp, htable, hsession, hdec, hmem⟩ := hs
  have hmem' : (s.setBytes payloadBase (shotBytes q)).memInv := by
    refine Block.memInv_setBytes hmem fun j hj => isBufferAddr_iff.mpr ?_
    have := paramsWf_iff.mp hp
    simp only [shotBytes, List.length_cons, List.length_nil] at hj
    simp only [payloadBase]
    omega
  rw [Block.setBytes_eq]
  exact ⟨hp, htable, hsession, hdec, hmem'⟩

/-- A frame consumed is not fresh; its count and its code stay (43_shot R218). -/
theorem Block.inv_consume {s : Block cfg} (hs : s.Inv) (q : Word) :
    { s with seqNext := q, dec := { s.dec with fresh := false } }.Inv := by
  obtain ⟨hp, htable, hsession, ⟨-, hcount⟩, hmem⟩ := hs
  exact ⟨hp, htable, hsession, ⟨nofun, hcount⟩, hmem⟩

/-! ### Every command, every access, every step -/

/-- Every command keeps the invariant. -/
theorem exec_keeps_inv {i : Instr} {s t : Block cfg} (hs : s.Inv) (h : exec i ⟨cfg, s⟩ = .next ⟨cfg, t⟩) : t.Inv := by
  cases i with
  | chanInit =>
    rcases execChanInit_cases s with ⟨_, h'⟩ | ⟨_, hv, h'⟩ | ⟨_, _, h'⟩ <;> (rw [h'] at h; cases h)
    · exact (s.inv_raise _ _).mpr hs
    · exact (Block.inv_finish _ _ _ _ _).mpr (Block.inv_initChannel hs hv)
    · exact (s.inv_raise _ _).mpr hs
  | encode =>
    rcases execEncode_cases s with ⟨_, h'⟩ | ⟨_, _, h'⟩ | ⟨_, _, _, h'⟩ | ⟨hv, hr, hc, h'⟩ <;> (rw [h'] at h; cases h)
    · exact (s.inv_raise _ _).mpr hs
    · exact (s.inv_raise _ _).mpr hs
    · exact (s.inv_finish _ _ _ _).mpr hs
    · exact (Block.inv_finish _ _ _ _ _).mpr (Block.inv_commitEncode hs hv hr hc)
  | decode =>
    rcases execDecode_cases s with ⟨_, h'⟩ | ⟨_, _, h'⟩ | ⟨e, _, _, _, h'⟩ | ⟨bs, _, hr, hb, h'⟩ <;>
      (rw [h'] at h; cases h)
    · exact Block.inv_failDecode hs _ _
    · exact Block.inv_failDecode hs _ _
    · exact Block.inv_failDecode hs _ _
    · exact (Block.inv_finish _ _ _ _ _).mpr (Block.inv_commitDecode hs (Block.decodeBurst_length hr hb))
  | shotBuild =>
    rw [execShotBuild_eq] at h
    cases h
    exact (Block.inv_finish _ _ _ _ _).mpr (Block.inv_setShotBytes ((s.inv_withSeqTx _).mpr hs) _)
  | shotClassify =>
    rw [execShotClassify_eq] at h
    cases h
    exact (Block.inv_finish _ _ _ _ _).mpr (Block.inv_consume hs _)

/-- Every access served keeps the invariant. -/
theorem serve_keeps_inv {h : HostAccess} {s t : Block cfg} (hs : s.Inv) (hserve : serve h ⟨cfg, s⟩ = .next ⟨cfg, t⟩) :
    t.Inv := by
  rcases serve_cases _ _ _ hserve with ⟨_, _, _, _, rfl⟩ | ⟨_, _, _, _, hx⟩ | ⟨_, _, _, _, rfl⟩ |
    ⟨_, _, r, v, _, _, _, rfl⟩ | ⟨_, _, v, _, ht, rfl⟩ | ⟨_, rfl⟩
  case inl => exact (s.inv_withHostData _).mpr hs
  case inr.inl => exact exec_keeps_inv hs hx
  case inr.inr.inl => exact (s.inv_illegalCommand _).mpr hs
  case inr.inr.inr.inl => exact (s.inv_writeReg r v).mpr hs
  case inr.inr.inr.inr.inl =>
    obtain ⟨-, h4, ha⟩ := target_buffer ht
    exact Block.inv_setWord hs v h4 ha
  case inr.inr.inr.inr.inr => exact s.inv_powerOnReset hs.1

/-- Every step keeps the invariant: it is idle, or it serves one access. -/
theorem step_keeps_inv {s t : Block cfg} (hs : s.Inv) (h : step ⟨cfg, s⟩ = .next ⟨cfg, t⟩) : t.Inv := by
  rcases step_cases h with ⟨-, rfl⟩ | ⟨_, rest, -, hserve⟩
  · exact hs
  · exact serve_keeps_inv ((s.inv_withQueue rest).mpr hs) hserve

/-- Settles O55: no command, no access and no power-on leaves the invariant (`exec_keeps_inv`, `serve_keeps_inv`). -/
theorem stepKeepsInvariant : Obligations.StepKeepsInvariant := by
  rintro ⟨cfg, s⟩ t hs h
  obtain ⟨u, rfl⟩ := step_block h
  exact step_keeps_inv hs h

/-- Settles O53: the reset state has the invariant under any parameters there can be, the defaults among them
(`Block.inv_reset`). -/
theorem resetHasInvariant : Obligations.ResetHasInvariant :=
  ⟨Block.inv_reset (by decide), fun _ hp => Block.inv_reset hp⟩

end Sys2Proof.Machine
end

section
/-! The registers through the host port: a step that reads or writes one, and their values after power-on reset
(10_state R20 to R42, 20_memory R68, 70_reset R280). -/

namespace Sys2Proof.Machine

variable {cfg : Config.Params}

/-! ### Where a register stands -/

/-- An address holds a register exactly when it is that register's offset (10_state R20). -/
theorem regAt_eq_some {a : Nat} {r : Reg} : regAt a = some r ↔ a = (regOffset r).toNat := by
  constructor
  · intro h
    unfold regAt at h
    split at h <;> cases h <;> rfl
  · rintro rfl
    exact regAt_regOffset r

/-- A word access at a register's offset reaches it (20_memory R62). -/
@[simp] theorem target_regOffset (p : Config.Params) (r : Reg) :
    target p 4 (regOffset r).toNat = some (.register r) := by
  have h4 : (regOffset r).toNat % 4 = 0 := by cases r <;> rfl
  simp [target, h4]

/-- The registers from 0x0C on are those that are neither CMD nor an operand (10_state R20). -/
theorem exists_readOnly_reg {a : Addr} (hlo : 0x000C ≤ a.toNat) (hhi : a.toNat ≤ 0x0044) (h4 : a.toNat % 4 = 0) :
    ∃ r, a = regOffset r ∧ r ≠ .cmd ∧ r ≠ .arg0 ∧ r ≠ .arg1 := by
  obtain ⟨r, hr⟩ := Option.isSome_iff_exists.mp ((regAt_isSome h4).mpr hhi)
  have ha : a = regOffset r := BitVec.eq_of_toNat_eq (regAt_eq_some.mp hr)
  refine ⟨r, ha, ?_, ?_, ?_⟩ <;> (rintro rfl; subst ha; exact absurd hlo (by decide))

/-! ### Reads and writes of registers -/

section
variable (s : Block cfg)

/-- No register's value depends on the accesses that wait (log 1). -/
@[simp] theorem Block.readReg_withQueue (q : List HostAccess) (r : Reg) :
    { s with queue := q }.readReg r = s.readReg r := by
  cases r <;> rfl

@[simp] theorem Block.writeReg_arg0 (v : Word) : s.writeReg .arg0 v = { s with arg0 := v } := rfl

@[simp] theorem Block.writeReg_arg1 (v : Word) : s.writeReg .arg1 v = { s with arg1 := v } := rfl

/-- A write of a read-only register is ignored (20_memory R68). -/
theorem Block.writeReg_readOnly {r : Reg} (h0 : r ≠ .arg0) (h1 : r ≠ .arg1) (v : Word) : s.writeReg r v = s := by
  cases r with
  | arg0 => exact absurd rfl h0
  | arg1 => exact absurd rfl h1
  | _ => rfl

/-- A host read of a register returns its value (20_memory R66, R68). -/
theorem serve_read_reg (r : Reg) :
    serve (.read 4 (regOffset r)) ⟨cfg, s⟩ = .next ⟨cfg, { s with hostData := some (s.readReg r) }⟩ := by
  simp [serve, hostRead]

/-- A host write of a register other than CMD (20_memory R66, R68). -/
theorem serve_write_reg {r : Reg} (hr : r ≠ .cmd) (v : Word) :
    serve (.write 4 (regOffset r) v) ⟨cfg, s⟩ = .next ⟨cfg, s.writeReg r v⟩ := by
  cases r with
  | cmd => exact absurd rfl hr
  | _ => rfl

end

section
variable {s : Block cfg} {rest : List HostAccess}

/-- A step that serves a read of a register. -/
theorem step_read_reg (r : Reg) (hq : s.queue = .read 4 (regOffset r) :: rest) :
    step ⟨cfg, s⟩ = .next ⟨cfg, { s with queue := rest, hostData := some (s.readReg r) }⟩ := by
  rw [step_serve hq, serve_read_reg, Block.readReg_withQueue]

/-- A step that serves a write of a register other than CMD. -/
theorem step_write_reg {r : Reg} (hr : r ≠ .cmd) {v : Word} (hq : s.queue = .write 4 (regOffset r) v :: rest) :
    step ⟨cfg, s⟩ = .next ⟨cfg, { s with queue := rest }.writeReg r v⟩ := by
  rw [step_serve hq, serve_write_reg _ hr]

/-- A command word that decodes, written to CMD, is that command run (10_state R28, 20_memory R80). -/
theorem serve_cmd_of_decode {w : Word} {i : Instr} (s : Block cfg) (h : decodeCommand w = .ok i) :
    serve (.write 4 0 w) ⟨cfg, s⟩ = exec i ⟨cfg, s⟩ := by
  rw [serve_cmd, runCommand, h]

end

/-- CFG_STATE as a number (10_state R29). -/
theorem cfgStateWord_toNat (b : Bool) : (cfgStateWord b).toNat = b.toNat := by
  cases b <;> rfl

/-! ### Power-on reset -/

/-- A symbol word of two zero durations is 0 (30_encoding R100). -/
theorem symWord_zero (dw : Nat) : symWord dw 0 0 = 0 := by
  simp [symWord]

/-- ENC_STATE of a session at the start of a frame is 0 (10_state R30, R40). -/
theorem encStateWord_start : encStateWord (⟨.leader, 0, 0⟩ : EncodeSession cfg) = 0 := by
  simp only [encStateWord, Fin.val_zero]
  decide

/-- DEC_RESULT with no decode is 0 (10_state R37, R40). -/
theorem decResultWord_none : decResultWord (⟨0, .ok, false⟩ : DecodeOutcome cfg) = 0 := by
  simp only [decResultWord, Fin.val_zero]
  decide

/-- The reset values (10_state R40). -/
theorem Block.reset_readReg (r : Reg) :
    (Block.reset (cfg := cfg)).readReg r = if r = .seqTx ∨ r = .seqNext then 1 else 0 := by
  have hzero : symWord cfg.durW (0 : Duration cfg).toNat (0 : Duration cfg).toNat = 0 := symWord_zero cfg.durW
  cases r with
  | ttLeader => exact hzero
  | ttBit0 => exact hzero
  | ttBit1 => exact hzero
  | status => exact (by decide : statusWord .ok 0 = 0)
  | encState => exact encStateWord_start
  | decResult => exact decResultWord_none
  | _ => rfl

/-- Power-on reset leaves no register as it was (70_reset R280). -/
theorem Block.powerOnReset_readReg (s : Block cfg) (r : Reg) :
    s.powerOnReset.readReg r = (Block.reset (cfg := cfg)).readReg r := by
  cases r <;> rfl

/-! ### The statements -/

/-- Settles O4: serving the write of a word that decodes is `exec` (`serve_cmd_of_decode`). -/
theorem stepRunsDecodedCommand : Obligations.StepRunsDecodedCommand := by
  intro cfg s w i rest hq hdecode _
  rw [step_serve hq, serve_cmd_of_decode _ hdecode]

/-- Settles O12: the numbers are the tables' own, and each read is `step_read_reg` with its word as a number. -/
theorem packedRegistersRead : Obligations.PackedRegistersRead := by
  refine ⟨by decide, by decide, fun cfg s rest => ⟨?cmd, ?status, ?cfgState, ?encState, ?decResult⟩⟩
  case cmd => exact step_read_reg .cmd
  case status => exact fun hq => ⟨_, step_read_reg .status hq, statusWord_toNat _ _⟩
  case cfgState => exact fun hq => ⟨_, step_read_reg .cfgState hq, cfgStateWord_toNat _⟩
  case encState => exact fun hq hp => ⟨_, step_read_reg .encState hq, encStateWord_toNat hp _⟩
  case decResult => exact fun hq hp => ⟨_, step_read_reg .decResult hq, decResultWord_toNat hp _⟩

/-- Settles O13: each row of the list is a register's offset with the value its read returns. -/
theorem plainRegistersRead : Obligations.PlainRegistersRead := by
  intro cfg s rest a v hmem hq
  have hreg : ∃ r, a = regOffset r ∧ v = s.readReg r := by
    simp only [List.mem_cons, Prod.mk.injEq, List.not_mem_nil, or_false] at hmem
    rcases hmem with h | h | h | h | h | h | h | h | h | h | h | h | h
    · exact ⟨.arg0, h⟩
    · exact ⟨.arg1, h⟩
    · exact ⟨.res0, h⟩
    · exact ⟨.res1, h⟩
    · exact ⟨.cfgRes, h⟩
    · exact ⟨.cfgMargin, h⟩
    · exact ⟨.ttLeader, h⟩
    · exact ⟨.ttBit0, h⟩
    · exact ⟨.ttBit1, h⟩
    · exact ⟨.ttEnding, h⟩
    · exact ⟨.ttMargin, h⟩
    · exact ⟨.seqTx, h⟩
    · exact ⟨.seqNext, h⟩
  obtain ⟨r, rfl, rfl⟩ := hreg
  exact step_read_reg r hq

/-- Settles O14: from 0x0C on stand read-only registers alone (`exists_readOnly_reg`), whose writes are ignored. -/
theorem registerWrites : Obligations.RegisterWrites := by
  intro cfg s v rest
  refine ⟨fun a hlo hhi h4 hq => ?readOnly, step_write_reg (r := .arg0) nofun, step_write_reg (r := .arg1) nofun⟩
  obtain ⟨r, rfl, hcmd, h0, h1⟩ := exists_readOnly_reg hlo hhi h4
  rw [step_write_reg hcmd hq, Block.writeReg_readOnly _ h0 h1]

/-- Settles O17: power-on leaves each register at its value in the reset state (`Block.powerOnReset_readReg`). -/
theorem powerOnResetsRegisters : Obligations.PowerOnResetsRegisters := by
  refine ⟨Block.reset_readReg, fun _ => Block.reset_readReg, fun cfg s rest hq => ?_⟩
  refine ⟨_, step_serve hq, rfl, fun r => ?_⟩
  rw [Block.powerOnReset_readReg, Block.reset_readReg]

end Sys2Proof.Machine
end

section
/-! The sequence numbers: what moves SEQ_TX and SEQ_NEXT (10_state R35, R36). -/

namespace Sys2Proof.Machine

variable {cfg : Config.Params}

/-- SEQ_TX after a command: SHOT_BUILD adds 1, and no other touches it (43_shot R211). -/
theorem exec_seqTx {i : Instr} {s t : Block cfg} (h : exec i ⟨cfg, s⟩ = .next ⟨cfg, t⟩) :
    t.seqTx = if i = .shotBuild then s.seqTx + 1 else s.seqTx := by
  cases i with
  | chanInit =>
    rcases execChanInit_cases s with ⟨_, h'⟩ | ⟨_, _, h'⟩ | ⟨_, _, h'⟩ <;> (rw [h'] at h; cases h; simp)
  | encode =>
    rcases execEncode_cases s with ⟨_, h'⟩ | ⟨_, _, h'⟩ | ⟨_, _, _, h'⟩ | ⟨_, _, _, h'⟩ <;>
      (rw [h'] at h; cases h; simp [Block.commitEncode_eq])
  | decode =>
    rcases execDecode_cases s with ⟨_, h'⟩ | ⟨_, _, h'⟩ | ⟨_, _, _, _, h'⟩ | ⟨_, _, _, _, h'⟩ <;>
      (rw [h'] at h; cases h; simp [Block.commitDecode_eq])
  | shotBuild => rw [execShotBuild_eq] at h; cases h; simp
  | shotClassify => rw [execShotClassify_eq] at h; cases h; simp

/-- A class as RES0 tells a HIT from the others (43_shot R222). -/
theorem ShotClass.word_eq_one {c : ShotClass} : c.word = 1 ↔ c = .hit := by
  cases c <;> decide

/-- SEQ_NEXT advances on a HIT alone (43_shot R216, R219). -/
theorem Block.seqNextAfter_eq (s : Block cfg) (c : ShotClass) :
    s.seqNextAfter c = if c = .hit then s.seqNext + 1 else s.seqNext := by
  cases c <;> rfl

/-- SEQ_NEXT after a command: a SHOT_CLASSIFY that answers HIT adds 1, and nothing else touches it (43_shot R220). -/
theorem exec_seqNext {i : Instr} {s t : Block cfg} (h : exec i ⟨cfg, s⟩ = .next ⟨cfg, t⟩) :
    t.seqNext = if i = .shotClassify ∧ t.res0 = 1 then s.seqNext + 1 else s.seqNext := by
  cases i with
  | chanInit =>
    rcases execChanInit_cases s with ⟨_, h'⟩ | ⟨_, _, h'⟩ | ⟨_, _, h'⟩ <;> (rw [h'] at h; cases h; simp)
  | encode =>
    rcases execEncode_cases s with ⟨_, h'⟩ | ⟨_, _, h'⟩ | ⟨_, _, _, h'⟩ | ⟨_, _, _, h'⟩ <;>
      (rw [h'] at h; cases h; simp [Block.commitEncode_eq])
  | decode =>
    rcases execDecode_cases s with ⟨_, h'⟩ | ⟨_, _, h'⟩ | ⟨_, _, _, _, h'⟩ | ⟨_, _, _, _, h'⟩ <;>
      (rw [h'] at h; cases h; simp [Block.commitDecode_eq])
  | shotBuild => rw [execShotBuild_eq] at h; cases h; simp
  | shotClassify =>
    rw [execShotClassify_eq] at h
    cases h
    simp only [Block.finish_seqNext, Block.finish_res0, Block.seqNextAfter_eq, ShotClass.word_eq_one, true_and]

/-- A write of a register that is no command leaves the sequence numbers (10_state R35, R36). -/
theorem Block.writeReg_seq (s : Block cfg) (r : Reg) (v : Word) :
    (s.writeReg r v).seqTx = s.seqTx ∧ (s.writeReg r v).seqNext = s.seqNext := by
  cases r <;> exact ⟨rfl, rfl⟩

/-- What a step can do to the sequence numbers: nothing, run a command, or reset them. -/
theorem step_seq_cases {s t : Block cfg} (hs : step ⟨cfg, s⟩ = .next ⟨cfg, t⟩) :
    (t.seqTx = s.seqTx ∧ t.seqNext = s.seqNext) ∨
      (∃ i rest, s.queue = .write 4 0 (encodeCommand i) :: rest ∧
        exec i ⟨cfg, { s with queue := rest }⟩ = .next ⟨cfg, t⟩) ∨
      ((∃ rest, s.queue = .powerOn :: rest) ∧ t.seqTx = 1 ∧ t.seqNext = 1) := by
  rcases step_cases hs with ⟨-, rfl⟩ | ⟨_, rest, hq, hserve⟩
  · exact .inl ⟨rfl, rfl⟩
  rcases serve_cases _ _ _ hserve with ⟨_, _, _, _, rfl⟩ | ⟨_, i, rfl, hd, hx⟩ | ⟨_, _, _, _, rfl⟩ |
    ⟨_, _, r, v, _, _, _, rfl⟩ | ⟨_, _, _, _, _, rfl⟩ | ⟨rfl, rfl⟩
  case inl => exact .inl ⟨rfl, rfl⟩
  case inr.inl =>
    rw [decodeCommand_eq_ok.mp hd] at hq
    exact .inr (.inl ⟨i, rest, hq, hx⟩)
  case inr.inr.inl => exact .inl ⟨rfl, rfl⟩
  case inr.inr.inr.inl => exact .inl (Block.writeReg_seq _ r v)
  case inr.inr.inr.inr.inl => exact .inl (by simp)
  case inr.inr.inr.inr.inr => exact .inr (.inr ⟨⟨rest, hq⟩, rfl, rfl⟩)

/-- Settles O56: of the commands a step can run only SHOT_BUILD moves SEQ_TX (`exec_seqTx`). -/
theorem onlyShotBuildMovesSeqTx : Obligations.OnlyShotBuildMovesSeqTx := by
  intro cfg s t hs hne
  rcases step_seq_cases hs with ⟨hsame, -⟩ | ⟨i, rest, hq, hx⟩ | ⟨hq, hone, -⟩
  · exact absurd hsame hne
  · have hseq := exec_seqTx hx
    split at hseq
    · rename_i hi
      subst hi
      exact .inl ⟨⟨rest, hq⟩, hseq⟩
    · exact absurd hseq hne
  · exact .inr ⟨hq, hone⟩

/-- Settles O57: of the commands a step can run only a SHOT_CLASSIFY that is a HIT moves SEQ_NEXT (`exec_seqNext`). -/
theorem onlyHitMovesSeqNext : Obligations.OnlyHitMovesSeqNext := by
  intro cfg s t hs hne
  rcases step_seq_cases hs with ⟨-, hsame⟩ | ⟨i, rest, hq, hx⟩ | ⟨hq, -, hone⟩
  · exact absurd hsame hne
  · have hseq := exec_seqNext hx
    split at hseq
    · rename_i hi
      obtain ⟨rfl, hhit⟩ := hi
      exact .inl ⟨⟨rest, hq⟩, hhit, hseq⟩
    · exact absurd hseq hne
  · exact .inr ⟨hq, hone⟩

end Sys2Proof.Machine
end

section
/-! The host port: which accesses are bus errors, that every other access completes, and what the words of the buffers
hold (20_memory R62 to R70, R81). -/

namespace Sys2Proof.Machine

variable {cfg : Config.Params}

/-! ### Bus errors -/

section
variable (s : Block cfg) {n : Nat} {a : Addr}

/-- A command word written to CMD completes, legal or not (60_exceptions R248, R258). -/
theorem runCommand_next (w : Word) : ∃ t, runCommand w ⟨cfg, s⟩ = .next ⟨cfg, t⟩ := by
  unfold runCommand
  split
  case h_1 i _ => exact exec_next i s
  case h_2 => exact ⟨_, rfl⟩

/-- A read that goes nowhere is a bus error (20_memory R67). -/
theorem serve_read_of_no_target (h : target cfg n a.toNat = none) :
    serve (.read n a) ⟨cfg, s⟩ = .fault .busError := by
  simp [serve, hostRead, h]

/-- A write that goes nowhere is a bus error (20_memory R67). -/
theorem serve_write_of_no_target (v : Word) (h : target cfg n a.toNat = none) :
    serve (.write n a v) ⟨cfg, s⟩ = .fault .busError := by
  simp [serve, hostWrite, h]

/-- A read that goes somewhere completes (20_memory R66). -/
theorem serve_read_of_target (h : (target cfg n a.toNat).isSome = true) :
    ∃ t, serve (.read n a) ⟨cfg, s⟩ = .next ⟨cfg, t⟩ := by
  simp only [serve, hostRead]
  split
  case h_1 hnone => simp [hnone] at h
  case h_2 => exact ⟨_, rfl⟩
  case h_3 => exact ⟨_, rfl⟩

/-- A write that goes somewhere completes: at CMD the command runs, elsewhere the word is stored or ignored (20_memory
R66, R68, R80). -/
theorem serve_write_of_target (v : Word) (h : (target cfg n a.toNat).isSome = true) :
    ∃ t, serve (.write n a v) ⟨cfg, s⟩ = .next ⟨cfg, t⟩ := by
  simp only [serve, hostWrite]
  split
  case h_1 hnone => simp [hnone] at h
  case h_2 => exact runCommand_next s v
  case h_3 => exact ⟨_, rfl⟩
  case h_4 => exact ⟨_, rfl⟩

/-- The reads that are bus errors are those that go nowhere. -/
theorem serve_read_busError_iff : serve (.read n a) ⟨cfg, s⟩ = .fault .busError ↔ target cfg n a.toNat = none := by
  refine ⟨fun hfault => ?_, serve_read_of_no_target s⟩
  by_contra hsome
  obtain ⟨t, hnext⟩ := serve_read_of_target s (Option.isSome_iff_ne_none.mpr hsome)
  cases hfault.symm.trans hnext

/-- The writes that are bus errors are those that go nowhere. -/
theorem serve_write_busError_iff (v : Word) :
    serve (.write n a v) ⟨cfg, s⟩ = .fault .busError ↔ target cfg n a.toNat = none := by
  refine ⟨fun hfault => ?_, serve_write_of_no_target s v⟩
  by_contra hsome
  obtain ⟨t, hnext⟩ := serve_write_of_target s v (Option.isSome_iff_ne_none.mpr hsome)
  cases hfault.symm.trans hnext

end

/-- The reserved addresses of the instance of the defaults, as 20_memory R62 lists them. -/
theorem reservedAddr_default_iff (a : Addr) : reservedAddr {} a.toNat ↔
    (0x0048 ≤ a.toNat ∧ a.toNat ≤ 0x03FF) ∨ (0x0500 ≤ a.toNat ∧ a.toNat ≤ 0x07FF) ∨
      (0x0900 ≤ a.toNat ∧ a.toNat ≤ 0x0FFF) ∨ (0x1200 ≤ a.toNat ∧ a.toNat ≤ 0x1FFF) ∨
      (0x2200 ≤ a.toNat ∧ a.toNat ≤ 0xFFFF) := by
  have := a.isLt
  simp only [reservedAddr]
  omega

/-- Settles O9: an access is a bus error exactly when it goes nowhere, which the map says for which addresses
(`target_eq_none_iff_reserved`). -/
theorem busErrorExactly : Obligations.BusErrorExactly := by
  refine ⟨fun cfg s n a hp => ⟨?read, fun v => ?write⟩, reservedAddr_default_iff⟩
  case read => rw [serve_read_busError_iff, target_eq_none_iff_reserved hp]
  case write => rw [serve_write_busError_iff, target_eq_none_iff_reserved hp]

/-! ### Accesses that complete -/

/-- An access that is no bus error (20_memory R67): power-on, or a read or write that goes somewhere. -/
def accessLegal (p : Config.Params) : HostAccess → Bool
  | .read n a => (target p n a.toNat).isSome
  | .write n a _ => (target p n a.toNat).isSome
  | .powerOn => true

/-- The host is legal when every access that waits is. -/
theorem Block.hostIsLegal_iff (s : Block cfg) :
    s.hostIsLegal = true ↔ ∀ h ∈ s.queue, accessLegal cfg h = true := List.all_eq_true

/-- A legal access completes. -/
theorem serve_of_legal {h : HostAccess} (s : Block cfg) (hl : accessLegal cfg h = true) :
    ∃ t, serve h ⟨cfg, s⟩ = .next ⟨cfg, t⟩ := by
  cases h with
  | read n a => exact serve_read_of_target s hl
  | write n a v => exact serve_write_of_target s v hl
  | powerOn => exact ⟨_, rfl⟩

/-- A step whose oldest access is legal answers a next state and takes the access off the queue. -/
theorem step_of_legal {s : Block cfg} {h : HostAccess} {rest : List HostAccess} (hq : s.queue = h :: rest)
    (hl : accessLegal cfg h = true) : ∃ t, step ⟨cfg, s⟩ = .next ⟨cfg, t⟩ ∧ t.queue = rest := by
  obtain ⟨t, ht⟩ := serve_of_legal { s with queue := rest } hl
  exact ⟨t, (step_serve hq).trans ht, serve_queue ht⟩

/-- A word access of an aligned address that is not reserved goes somewhere (20_memory R62, R67). -/
theorem target_isSome_of_not_reserved {p : Config.Params} {a : Addr} (hp : p.wf = true) (h4 : a.toNat % 4 = 0)
    (ha : ¬ reservedAddr p a.toNat) : (target p 4 a.toNat).isSome = true := by
  rw [Option.isSome_iff_ne_none, Ne, target_eq_none_iff_reserved hp]
  tauto

/-- Settles O10: such an access is legal, so the step that serves it completes (`step_of_legal`). -/
theorem legalAccessCompletes : Obligations.LegalAccessCompletes := by
  refine ⟨fun cfg s a rest hp hq h4 ha => ?read, fun cfg s a v rest hp hq h4 ha => ?write⟩
  case read => exact step_of_legal hq (target_isSome_of_not_reserved hp h4 ha)
  case write => exact step_of_legal hq (target_isSome_of_not_reserved hp h4 ha)

/-- A step under a legal host answers a next state, its host legal again, with the oldest access, if any, off the
queue. -/
theorem step_of_hostIsLegal {s : Block cfg} (hl : s.hostIsLegal = true) :
    ∃ t, step ⟨cfg, s⟩ = .next ⟨cfg, t⟩ ∧ t.hostIsLegal = true ∧ t.queue = s.queue.tail := by
  cases hq : s.queue with
  | nil => exact ⟨s, step_idle hq, hl, hq⟩
  | cons h rest =>
    rw [Block.hostIsLegal_iff, hq, List.forall_mem_cons] at hl
    obtain ⟨hlegal, hrest⟩ := hl
    obtain ⟨t, ht, hqt⟩ := step_of_legal hq hlegal
    exact ⟨t, ht, t.hostIsLegal_iff.mpr (hqt ▸ hrest), hqt⟩

/-- Settles O58, by induction on the number of steps: a step under a legal host leaves it legal
(`step_of_hostIsLegal`). -/
theorem legalHostNeverFaults : Obligations.LegalHostNeverFaults := by
  intro cfg s k
  induction k generalizing s with
  | zero => exact fun _ => ⟨s, rfl, rfl⟩
  | succ k ih =>
    intro hl
    obtain ⟨t, ht, hlt, hqt⟩ := step_of_hostIsLegal hl
    obtain ⟨u, hu, hqu⟩ := ih t hlt
    exact ⟨u, (runSteps_next ht k).trans hu, by rw [hqu, hqt, List.drop_tail]⟩

/-! ### Reads -/

/-- A read changes nothing but the word handed to the host (20_memory R68). -/
theorem serve_read_frame {n : Nat} {a : Addr} {s t : Block cfg} (h : serve (.read n a) ⟨cfg, s⟩ = .next ⟨cfg, t⟩) :
    t = { s with hostData := t.hostData } := by
  rcases serve_cases _ _ _ h with ⟨_, _, _, _, rfl⟩ | ⟨_, _, hw, _⟩ | ⟨_, _, hw, _⟩ | ⟨_, _, _, _, hw, _⟩ |
    ⟨_, _, _, hw, _⟩ | ⟨hw, _⟩
  case inl => rfl
  all_goals cases hw

/-- Settles O11: the step serves the read (`serve_read_frame`). -/
theorem hostReadHasNoSideEffect : Obligations.HostReadHasNoSideEffect := by
  intro cfg s t n a rest hq hs
  exact serve_read_frame ((step_serve hq).symm.trans hs)

/-! ### Words of the buffers -/

/-- No word of a buffer depends on the accesses that wait (log 1). -/
@[simp] theorem Block.wordAt_withQueue (s : Block cfg) (q : List HostAccess) (a : Nat) :
    { s with queue := q }.wordAt a = s.wordAt a := Block.wordAt_congr rfl rfl a

section
variable {s : Block cfg} {a : Addr} {rest : List HostAccess}

/-- A step that serves a write of a buffer word. -/
theorem step_write_buffer {v : Word} (ha : bufferWordAddr a cfg = true) (hq : s.queue = .write 4 a v :: rest) :
    step ⟨cfg, s⟩ = .next ⟨cfg, { s.setWord a.toNat v with queue := rest }⟩ := by
  rw [step_serve hq, serve_write_buffer v _ ha, Block.setWord_withQueue]

/-- A step that serves a read of a buffer word. -/
theorem step_read_buffer (ha : bufferWordAddr a cfg = true) (hq : s.queue = .read 4 a :: rest) :
    step ⟨cfg, s⟩ = .next ⟨cfg, { s with queue := rest, hostData := some (s.wordAt a.toNat) }⟩ := by
  rw [step_serve hq, serve_read_buffer _ ha, Block.wordAt_withQueue]

end

/-- Settles O15: the read finds the word written (`Block.wordAt_setWord_same`), which is all that changed
(`Block.setWord_eq`, `Block.byteAt_setWord_other`). -/
theorem bufferWordReadsBack : Obligations.BufferWordReadsBack := by
  intro cfg s a v rest ha hq
  refine ⟨{ s.setWord a.toNat v with queue := .read 4 a :: rest },
    { s.setWord a.toNat v with queue := rest, hostData := some v }, step_write_buffer ha hq, ?read, ?registers,
    fun b hb => ?frame⟩
  case read => rw [step_read_buffer ha rfl, Block.wordAt_withQueue, Block.wordAt_setWord_same]
  case registers => rw [Block.setWord_eq]
  case frame =>
    calc _ = (s.setWord a.toNat v).byteAt b := Block.byteAt_congr rfl rfl b
      _ = s.byteAt b := Block.byteAt_setWord_other s v hb

/-- Byte `j` of a buffer word is the byte at its `j`-th address (20_memory R64). -/
theorem Block.wordByte_wordAt (s : Block cfg) (a : Nat) {j : Nat} (hj : j < 4) :
    wordByte (s.wordAt a) j = s.byteAt (a + j) := by
  rw [Block.wordAt, wordByte_wordOfBytes _ _ _ _ _ hj]
  obtain rfl | rfl | rfl | rfl : j = 0 ∨ j = 1 ∨ j = 2 ∨ j = 3 := by omega
  all_goals rfl

section
variable {p : Config.Params} {base k : Nat}

/-- The host words of PAYLOAD and DEST are within the 16 bits of a block address (20_memory R60, R62). -/
theorem byteBufferAddr_toNat (hp : p.wf = true)
    (hk : base = 0x0400 ∧ 4 * k < p.payloadMax ∨ base = 0x0800 ∧ 4 * k < p.destMax) :
    (BitVec.ofNat 16 (base + 4 * k)).toNat = base + 4 * k := by
  obtain ⟨-, -, -, -, ⟨-, hpayload, -⟩, ⟨hdest, -⟩, -⟩ := paramsWf_iff.mp hp
  rw [BitVec.toNat_ofNat]
  omega

/-- The host words of PAYLOAD and DEST are buffer words (20_memory R62). -/
theorem bufferWordAddr_byteBuffer (hp : p.wf = true)
    (hk : base = 0x0400 ∧ 4 * k < p.payloadMax ∨ base = 0x0800 ∧ 4 * k < p.destMax) :
    bufferWordAddr (BitVec.ofNat 16 (base + 4 * k)) p = true := by
  simp only [bufferWordAddr, byteBufferAddr_toNat hp hk, Bool.and_eq_true, Bool.or_eq_true, beq_iff_eq,
    decide_eq_true_eq]
  omega

end

/-- Settles O16: both halves are byte `j` of the word at that address, written (`Block.byteAt_setWord`) or read
(`Block.wordByte_wordAt`). -/
theorem hostWordPacksBytes : Obligations.HostWordPacksBytes := by
  intro cfg s base k j hp hk hj
  have haddr := byteBufferAddr_toNat hp hk
  have hword := bufferWordAddr_byteBuffer hp hk
  refine ⟨fun v => ⟨_, serve_write_buffer v s hword, ?write⟩, ⟨_, _, serve_read_buffer s hword, rfl, ?read⟩⟩
  case write => rw [haddr, ← Nat.add_assoc, Block.byteAt_setWord _ _ _ hj, wordByte_toNat]
  case read => rw [haddr, ← Nat.add_assoc, ← wordByte_toNat, Block.wordByte_wordAt _ _ hj]

end Sys2Proof.Machine
end

section
/-! Command words (30_encoding R90 to R92, R95): decode and encode are inverse, and every other word is reported. -/

namespace Sys2Proof.Machine

/-- The decoder reads each command's word as that command (30_encoding R91). -/
@[simp] theorem decodeCommand_encodeCommand (i : Instr) : decodeCommand (encodeCommand i) = .ok i :=
  decodeCommand_eq_ok.mpr rfl

/-- Settles O2: the words that decode are the command words (`decodeCommand_eq_ok`). -/
theorem decodeInvertsEncode : Obligations.DecodeInvertsEncode := by
  refine ⟨fun i _ => ?decode, fun w i h => ?encode⟩
  case decode => exact decodeCommand_encodeCommand i
  case encode => exact (decodeCommand_eq_ok.mp h).symm

/-- Settles O1: each literal word is its command's word, and so decodes (`decodeCommand_encodeCommand`). -/
theorem commandWordsDecode : Obligations.CommandWordsDecode :=
  ⟨⟨decodeCommand_encodeCommand .chanInit, decodeCommand_encodeCommand .encode, decodeCommand_encodeCommand .decode,
    decodeCommand_encodeCommand .shotBuild, decodeCommand_encodeCommand .shotClassify⟩, rfl, rfl, rfl, rfl, rfl⟩

/-- A word written to CMD that does not decode is reported (30_encoding R92). -/
theorem serve_cmd_of_error {cfg : Config.Params} {w : Word} {e : DecodeError} (s : Block cfg)
    (h : decodeCommand w = .error e) : serve (.write 4 0 w) ⟨cfg, s⟩ = .next ⟨cfg, s.illegalCommand w⟩ := by
  rw [serve_cmd, runCommand, h]

/-- Settles O3: the words of R92 are those that do not decode (`decodeCommand_error_iff`). -/
theorem illegalCommandReported : Obligations.IllegalCommandReported := by
  intro cfg s w hw
  obtain ⟨e, he⟩ := (decodeCommand_error_iff w).mpr hw
  rw [serve_cmd_of_error s he, Block.illegalCommand, opField_eq]
  rfl

end Sys2Proof.Machine
end

section
/-! The frames of the five commands (30_encoding R94, 20_memory R69), and the errors of ENCODE (60_exceptions R245). -/

namespace Sys2Proof.Machine

variable {cfg : Config.Params}

/-- ENCODE before a table is built (60_exceptions R245). -/
theorem exec_encode_notInit {s : Block cfg} (hv : s.ttValid = false) :
    exec .encode ⟨cfg, s⟩ = .next ⟨cfg, s.raise 0x02 .notInit⟩ := by
  rcases execEncode_cases s with ⟨_, h⟩ | ⟨h, _⟩ | ⟨h, _⟩ | ⟨h, _⟩
  case inl => exact h
  all_goals rw [hv] at h; cases h

/-- ENCODE with an operand beyond its buffer (60_exceptions R245, 30_encoding R93). -/
theorem exec_encode_argRange {s : Block cfg} (hv : s.ttValid = true) (hr : s.encodeInRange = false) :
    exec .encode ⟨cfg, s⟩ = .next ⟨cfg, s.raise 0x02 .argRange⟩ := by
  rcases execEncode_cases s with ⟨h, _⟩ | ⟨_, _, h⟩ | ⟨_, h, _⟩ | ⟨_, h, _⟩
  · rw [hv] at h; cases h
  · exact h
  all_goals rw [hr] at h; cases h

/-- Settles O26: the two errors are the first two cases of ENCODE (`execEncode_cases`). -/
theorem encodeErrors : Obligations.EncodeErrors := by
  refine ⟨fun cfg s hv => ?notInit, fun cfg s hv hbig => ?argRange⟩
  case notInit => exact exec_encode_notInit hv
  case argRange =>
    refine exec_encode_argRange hv (Bool.eq_false_iff.mpr fun hr => ?_)
    obtain ⟨hlen, hcap⟩ := s.encodeInRange_iff.mp hr
    omega

/-- An ENCODE with capacity emits no more symbols than a register counts. -/
theorem Block.encodeStep_length_lt {s : Block cfg} (hc : 1 ≤ s.opCapacity) : s.encodeStep.syms.length < 2 ^ 32 :=
  Nat.lt_of_le_of_lt (encodeStep_length_le _ _ _ _ hc) s.arg1.isLt

section
variable {s t : Block cfg}

/-- The frame of CHAN_INIT: no buffer byte changes (40_timing R130). -/
theorem execChanInit_frame (h : exec .chanInit ⟨cfg, s⟩ = .next ⟨cfg, t⟩) :
    t = { s with
      res0 := t.res0, res1 := t.res1, code := t.code, lastOp := t.lastOp, ttValid := t.ttValid, cfgRes := t.cfgRes,
      cfgMargin := t.cfgMargin, tt := t.tt, session := t.session } := by
  rcases execChanInit_cases s with ⟨_, h'⟩ | ⟨_, _, h'⟩ | ⟨_, _, h'⟩ <;> (rw [h'] at h; cases h; rfl)

/-- The frame of ENCODE: only the symbol words it emits are stored (41_encoder R150, R157). -/
theorem execEncode_frame (h : exec .encode ⟨cfg, s⟩ = .next ⟨cfg, t⟩) :
    t = { s with
      res0 := t.res0, res1 := t.res1, code := t.code, lastOp := t.lastOp, session := t.session, mem := t.mem } ∧
    ∀ a, (a < 0x1000 ∨ 0x1000 + 4 * t.res0.toNat ≤ a) → t.byteAt a = s.byteAt a := by
  rcases execEncode_cases s with ⟨_, h'⟩ | ⟨_, _, h'⟩ | ⟨_, _, _, h'⟩ | ⟨_, _, hc, h'⟩ <;> (rw [h'] at h; cases h)
  case inr.inr.inr =>
    refine ⟨by rw [Block.commitEncode_eq]; rfl, fun a ha => ?_⟩
    rw [Block.finish_res0, ofNat_toNat_of_lt (Block.encodeStep_length_lt hc)] at ha
    exact Block.commitEncode_byteAt_other _ _ ha
  all_goals exact ⟨rfl, fun _ _ => rfl⟩

/-- The frame of DECODE: only the bytes it commits are stored (42_decoder R180, R188). -/
theorem execDecode_frame (h : exec .decode ⟨cfg, s⟩ = .next ⟨cfg, t⟩) :
    t = { s with res0 := t.res0, res1 := t.res1, code := t.code, lastOp := t.lastOp, dec := t.dec, mem := t.mem } ∧
    ∀ a, (a < 0x0800 ∨ 0x0800 + t.res0.toNat ≤ a) → t.byteAt a = s.byteAt a := by
  rcases execDecode_cases s with ⟨_, h'⟩ | ⟨_, _, h'⟩ | ⟨_, _, _, _, h'⟩ | ⟨_, _, _, hb, h'⟩ <;> (rw [h'] at h; cases h)
  case inr.inr.inr =>
    refine ⟨by rw [Block.commitDecode_eq]; rfl, fun a ha => ?_⟩
    rw [Block.finish_res0, ofNat_toNat_of_lt (Block.decodeBurst_length_lt hb)] at ha
    exact Block.commitDecode_byteAt_other _ _ ha
  all_goals exact ⟨rfl, fun _ _ => rfl⟩

/-- The frame of SHOT_BUILD: only the seven bytes of the shot frame are stored (43_shot R211). -/
theorem execShotBuild_frame (h : exec .shotBuild ⟨cfg, s⟩ = .next ⟨cfg, t⟩) :
    t = { s with
      res0 := t.res0, res1 := t.res1, code := t.code, lastOp := t.lastOp, seqTx := t.seqTx, mem := t.mem } ∧
    ∀ a, (a < 0x0400 ∨ 0x0407 ≤ a) → t.byteAt a = s.byteAt a := by
  rw [execShotBuild_eq] at h
  cases h
  refine ⟨by rw [Block.setBytes_eq]; rfl, fun a ha => ?_⟩
  rw [Block.finish_byteAt, Block.byteAt_setBytes_other _ _ (by simpa [payloadBase, shotBytes] using ha)]
  rfl

/-- The frame of SHOT_CLASSIFY: no buffer byte changes, and of DEC_RESULT only DEC_FRESH (43_shot R213, R218). -/
theorem execShotClassify_frame (h : exec .shotClassify ⟨cfg, s⟩ = .next ⟨cfg, t⟩) :
    t = { s with
      res0 := t.res0, res1 := t.res1, code := t.code, lastOp := t.lastOp, seqNext := t.seqNext,
      dec := { s.dec with fresh := t.dec.fresh } } := by
  rw [execShotClassify_eq] at h
  cases h
  rfl

end

/-- Settles O8: the frames of the five commands; what a command that stores nothing leaves alone holds the buffers
too (`Block.byteAt_congr`). -/
theorem commandsChangeOnlyTheirOwn : Obligations.CommandsChangeOnlyTheirOwn := by
  refine ⟨fun cfg s t h => ⟨execChanInit_frame h, ?chanInit⟩, fun _ _ _ => execEncode_frame,
    fun _ _ _ => execDecode_frame, fun _ _ _ => execShotBuild_frame,
    fun cfg s t h => ⟨execShotClassify_frame h, ?shotClassify⟩⟩
  case chanInit => rw [execChanInit_frame h]; exact Block.byteAt_congr rfl rfl
  case shotClassify => rw [execShotClassify_frame h]; exact Block.byteAt_congr rfl rfl

end Sys2Proof.Machine
end

section
/-! Frames symbol by symbol, their time on the line, and the octets of a sequence number (30_encoding R104 to R109,
70_reset R301). -/

namespace Sys2Proof.Machine

variable {cfg : Config.Params}

/-- Bit `b` of a byte as arithmetic (30_encoding R106). -/
theorem bitSym_getLsbD (t : TimingTable cfg) (v : Byte) (b : Nat) :
    t.bitSym (v.getLsbD b) = if v.toNat / 2 ^ b % 2 = 0 then t.bit0 else t.bit1 := by
  have hbit : v.getLsbD b = decide (v.toNat / 2 ^ b % 2 = 1) := by
    rw [BitVec.getLsbD, Nat.testBit_eq_decide_div_mod_eq]
  rcases Nat.mod_two_eq_zero_or_one (v.toNat / 2 ^ b) with h | h <;> simp [hbit, h, TimingTable.bitSym]

/-- Data symbol `k` stands at position `k + 1` of the frame, after the leader (30_encoding R105). -/
theorem frame_getElem?_data (t : TimingTable cfg) (p : List Byte) {k : Nat} (hk : k < 8 * p.length) :
    (frame t p)[k + 1]? = (p.flatMap (byteSyms t))[k]? := by
  rw [frame, List.getElem?_cons_succ, List.getElem?_append_left (by rwa [length_flatMap_byteSyms])]

/-- The ending stands after the data symbols (30_encoding R105). -/
theorem frame_getElem?_ending (t : TimingTable cfg) (p : List Byte) :
    (frame t p)[8 * p.length + 1]? = some t.ending := by
  rw [frame, List.getElem?_cons_succ, ← length_flatMap_byteSyms t p, List.getElem?_concat_length]

/-- Settles O25: the data symbols are bit for bit those of the payload (`getElem?_flatMap_byteSyms`), between the leader
and the ending. -/
theorem frameSymbols : Obligations.FrameSymbols := by
  intro cfg t p
  refine ⟨frame_length t p, rfl, fun j b hj hb => ?data, frame_getElem?_ending t p⟩
  case data =>
    calc (frame t p)[8 * j + 1 + b]? = (frame t p)[8 * j + b + 1]? := by rw [Nat.add_right_comm]
      _ = (p.flatMap (byteSyms t))[8 * j + b]? := frame_getElem?_data t p (by omega)
      _ = some (t.bitSym (p[j].getLsbD b)) := getElem?_flatMap_byteSyms t p hj hb
      _ = _ := by rw [bitSym_getLsbD]

/-- Settles O50: as numbers, the four octets are the base-256 digits of the sequence number (`seqByte_toNat`,
`seqOfBytes_toNat`). -/
theorem sequenceOctetsRoundTrip : Obligations.SequenceOctetsRoundTrip := by
  intro seq
  apply BitVec.eq_of_toNat_eq
  have hlt := seq.isLt
  simp only [seqOfBytes_toNat, seqByte_toNat]
  omega

/-! ### The time on the line -/

/-- The bits of a payload in the order of their symbols (30_encoding R106). -/
def payloadBits (p : List Byte) : List Bool := p.flatMap fun b => (List.range 8).map b.getLsbD

/-- The data symbols are the symbols of the payload's bits. -/
theorem flatMap_byteSyms_eq (t : TimingTable cfg) (p : List Byte) :
    p.flatMap (byteSyms t) = (payloadBits p).map t.bitSym := by
  rw [payloadBits, List.map_flatMap]
  exact List.flatMap_congr fun b _ => by rw [List.map_map]; rfl

@[simp] theorem payloadBits_length (p : List Byte) : (payloadBits p).length = 8 * p.length := by
  simp [payloadBits, Nat.mul_comm]

@[simp] theorem lineTime_nil (dw : Nat) : lineTime dw [] = 0 := rfl

@[simp] theorem lineTime_cons (dw : Nat) (w : Word) (ws : List Word) :
    lineTime dw (w :: ws) = symAct dw w + symIdle dw w + lineTime dw ws := rfl

@[simp] theorem lineTime_append (dw : Nat) (ws vs : List Word) :
    lineTime dw (ws ++ vs) = lineTime dw ws + lineTime dw vs := by
  simp [lineTime]

/-- The symbols of some bits take the time of one symbol for each zero and one for each one. -/
theorem lineTime_map_bitSym (dw : Nat) (t : TimingTable cfg) (bits : List Bool) :
    lineTime dw (bits.map t.bitSym) =
      bits.count false * (symAct dw t.bit0 + symIdle dw t.bit0) +
        bits.count true * (symAct dw t.bit1 + symIdle dw t.bit1) := by
  induction bits with
  | nil => simp
  | cons b bits ih => cases b <;> simp [ih, TimingTable.bitSym] <;> ring

/-- The time of a frame: its leader, its bits and its ending (70_reset R301). -/
theorem lineTime_frame (dw : Nat) (t : TimingTable cfg) (p : List Byte) :
    lineTime dw (frame t p) =
      (symAct dw t.leader + symIdle dw t.leader) + (payloadBits p).count false * (symAct dw t.bit0 + symIdle dw t.bit0) +
        (payloadBits p).count true * (symAct dw t.bit1 + symIdle dw t.bit1) +
        (symAct dw t.ending + symIdle dw t.ending) := by
  simp [frame, flatMap_byteSyms_eq, lineTime_map_bitSym, Nat.add_assoc]

/-- With the default parameters, at 1,000,000 ticks a second a tick is a time unit (40_timing R121). -/
theorem ticks_default (v : Nat) : ticks {} 1000000 v = v := Nat.mul_div_cancel v (by decide)

/-- Settles O52: the sum over the frame (`lineTime_frame`), with the durations of the table built at 1,000,000 ticks a
second (`buildTable_fields`). -/
theorem lineTimeOfPayload : Obligations.LineTimeOfPayload := by
  rintro t p z o rfl rfl rfl
  have hcount := List.count_false_add_count_true (payloadBits p)
  refine ⟨hcount.trans (payloadBits_length p), ?_⟩
  obtain ⟨hla, hli, h0a, h0i, h1a, h1i, hea, hei⟩ :=
    buildTable_fields (p := {}) (res := 1000000) (m := 200) (by decide) (by decide)
  have htime := lineTime_frame 16 (buildTable {} 1000000 200) p
  simp only [hla, hli, h0a, h0i, h1a, h1i, hea, hei, ticks_default] at htime
  rw [← payloadBits, htime]
  omega

end Sys2Proof.Machine
end

section
/-! Host programs (30_encoding R96, R97): INIT, ENC and DEC run their command, and LOADPAY and LOADRX fill their
buffers. -/

namespace Sys2Proof.Machine

variable {cfg : Config.Params}

/-! ### Commands with their operands -/

/-- A mnemonic alone is the write of its command word to CMD, which is at offset 0 (10_state R20, 30_encoding R96). -/
theorem asmCommand_eq (i : Instr) : asmCommand i = .write 4 0 (encodeCommand i) := rfl

/-- A command word written to CMD runs the command, when it is the only access that waits. -/
theorem step_asmCommand {s : Block cfg} (i : Instr) (hq : s.queue = [asmCommand i]) :
    step ⟨cfg, s⟩ = exec i ⟨cfg, { s with queue := [] }⟩ := by
  rw [asmCommand_eq] at hq
  rw [step_serve hq, serve_cmd_of_decode { s with queue := [] } (decodeCommand_encodeCommand i)]

/-- A step that serves a `WR ARG0` (10_state R23). -/
theorem step_asmWr_arg0 {s : Block cfg} {v : Word} {rest : List HostAccess} (hq : s.queue = asmWr .arg0 v :: rest) :
    step ⟨cfg, s⟩ = .next ⟨cfg, { s with arg0 := v, queue := rest }⟩ := by
  rw [step_write_reg (by decide) hq, Block.writeReg_arg0]

/-- A step that serves a `WR ARG1` (10_state R24). -/
theorem step_asmWr_arg1 {s : Block cfg} {v : Word} {rest : List HostAccess} (hq : s.queue = asmWr .arg1 v :: rest) :
    step ⟨cfg, s⟩ = .next ⟨cfg, { s with arg1 := v, queue := rest }⟩ := by
  rw [step_write_reg (by decide) hq, Block.writeReg_arg1]

/-- The two operands written and then the command, from an idle host port (30_encoding R93, R97). -/
theorem runSteps_operands_command {s : Block cfg} (a b : Word) (i : Instr) (hq : s.queue = []) :
    runSteps 3 ⟨cfg, s.issue [asmWr .arg0 a, asmWr .arg1 b, asmCommand i]⟩ =
      exec i ⟨cfg, { s with arg0 := a, arg1 := b }⟩ := by
  have hissue : s.issue [asmWr .arg0 a, asmWr .arg1 b, asmCommand i] =
      { s with queue := [asmWr .arg0 a, asmWr .arg1 b, asmCommand i] } := by rw [Block.issue, hq]; rfl
  rw [hissue, runSteps_next (step_asmWr_arg0 rfl), runSteps_next (step_asmWr_arg1 rfl), runSteps_one,
    step_asmCommand i rfl, ← hq]

/-- Settles O59: each of the three expands to its operands and its command (`runSteps_operands_command`). -/
theorem pseudoInstructionsRun : Obligations.PseudoInstructionsRun := by
  intro cfg s a b hq
  exact ⟨runSteps_operands_command a b .chanInit hq, runSteps_operands_command a b .encode hq,
    runSteps_operands_command a b .decode hq⟩

/-! ### Words written to a buffer one after the other -/

/-- An aligned buffer address, as an address of the host, is itself and the address of a buffer word (20_memory R62). -/
theorem bufferWordAddr_ofNat (hp : cfg.wf = true) {a : Nat} (h4 : a % 4 = 0) (ha : isBufferAddr cfg a = true) :
    (BitVec.ofNat 16 a).toNat = a ∧ bufferWordAddr (BitVec.ofNat 16 a) cfg = true := by
  rw [isBufferAddr_iff] at ha
  obtain ⟨-, -, -, -, ⟨-, hpayload, -⟩, ⟨hdest, -⟩, ⟨-, htxsym⟩, -, hrxsym⟩ := paramsWf_iff.mp hp
  have haddr : (BitVec.ofNat 16 a).toNat = a := by rw [BitVec.toNat_ofNat]; omega
  refine ⟨haddr, ?_⟩
  simp only [bufferWordAddr, haddr, Bool.and_eq_true, Bool.or_eq_true, beq_iff_eq, decide_eq_true_eq]
  omega

/-- Words written do not depend on the accesses that wait (log 1). -/
theorem Block.setWords_withQueue (s : Block cfg) (q : List HostAccess) (a : Nat) (ws : List Word) :
    { s with queue := q }.setWords a ws = { s.setWords a ws with queue := q } := by
  induction ws generalizing s a with
  | nil => rfl
  | cons w ws ih => rw [Block.setWords, ← Block.setWord_withQueue, ih, Block.setWords]

/-- Word writes that wait at rising addresses of a buffer, run to the last. -/
theorem runSteps_asmLoadrx (hp : cfg.wf = true) {s : Block cfg} {a : Nat} {ws : List Word} (h4 : a % 4 = 0)
    (ha : ∀ k < ws.length, isBufferAddr cfg (a + 4 * k) = true) (hq : s.queue = asmLoadrx a ws) :
    runSteps ws.length ⟨cfg, s⟩ = .next ⟨cfg, { s.setWords a ws with queue := [] }⟩ := by
  induction ws generalizing s a with
  | nil => rw [asmLoadrx] at hq; rw [Block.setWords, ← hq]; rfl
  | cons w ws ih =>
    obtain ⟨haddr, hword⟩ := bufferWordAddr_ofNat hp h4 (ha 0 (Nat.zero_lt_succ _))
    have hrest : ∀ k < ws.length, isBufferAddr cfg (a + 4 + 4 * k) = true := fun k hk => by
      have := ha (k + 1) (Nat.succ_lt_succ hk)
      rwa [Nat.mul_succ, Nat.add_comm (4 * k), ← Nat.add_assoc] at this
    rw [List.length_cons, runSteps_next (step_write_buffer hword hq), haddr, ih (by omega) hrest rfl,
      Block.setWords_withQueue, Block.setWords]

/-- Word writes issued to an idle host port at rising addresses of a buffer leave the words there. -/
theorem runSteps_issue_asmLoadrx (hp : cfg.wf = true) {s : Block cfg} {a : Nat} {ws : List Word} (hidle : s.queue = [])
    (h4 : a % 4 = 0) (ha : ∀ k < ws.length, isBufferAddr cfg (a + 4 * k) = true) :
    runSteps ws.length ⟨cfg, s.issue (asmLoadrx a ws)⟩ = .next ⟨cfg, s.setWords a ws⟩ := by
  have hq : (s.issue (asmLoadrx a ws)).queue = asmLoadrx a ws := by rw [Block.issue_queue, hidle, List.nil_append]
  rw [runSteps_asmLoadrx hp h4 ha hq, Block.issue, Block.setWords_withQueue, ← hidle, ← Block.setWords_queue s a ws]

@[simp] theorem asmLoadrx_length (a : Nat) (ws : List Word) : (asmLoadrx a ws).length = ws.length := by
  induction ws generalizing a with
  | nil => rfl
  | cons w ws ih => simp [asmLoadrx, ih]

/-! ### Bytes four by four -/

/-- The host words of some bytes, four by four, the last word filled with 0 (30_encoding R97). -/
def packBytes : List Byte → List Word
  | [] => []
  | [b0] => [wordOfBytes b0 0 0 0]
  | [b0, b1] => [wordOfBytes b0 b1 0 0]
  | [b0, b1, b2] => [wordOfBytes b0 b1 b2 0]
  | b0 :: b1 :: b2 :: b3 :: bs => wordOfBytes b0 b1 b2 b3 :: packBytes bs

/-- LOADPAY's accesses write the host words of its bytes. -/
theorem asmLoadpay_eq (a : Nat) (bs : List Byte) : asmLoadpay a bs = asmLoadrx a (packBytes bs) := by
  fun_induction asmLoadpay a bs with
  | case5 a b0 b1 b2 b3 bs ih => rw [ih, packBytes, asmLoadrx]
  | _ => rfl

@[simp] theorem packBytes_length (bs : List Byte) : (packBytes bs).length = (bs.length + 3) / 4 := by
  fun_induction packBytes bs with
  | case5 b0 b1 b2 b3 bs ih => simp only [List.length_cons, ih]; omega
  | _ => simp

/-- Some bytes and the zeros that fill their last host word (30_encoding R97). -/
def zeroFilled (bs : List Byte) : List Byte := bs ++ List.replicate (4 * ((bs.length + 3) / 4) - bs.length) 0

@[simp] theorem zeroFilled_length (bs : List Byte) : (zeroFilled bs).length = 4 * ((bs.length + 3) / 4) := by
  simp only [zeroFilled, List.length_append, List.length_replicate]; omega

/-- Four bytes are a host word of their own, so the filling is that of the bytes after them. -/
theorem zeroFilled_cons_four (b0 b1 b2 b3 : Byte) (bs : List Byte) :
    zeroFilled (b0 :: b1 :: b2 :: b3 :: bs) = b0 :: b1 :: b2 :: b3 :: zeroFilled bs := by
  have hfill : 4 * ((bs.length + 1 + 1 + 1 + 1 + 3) / 4) - (bs.length + 1 + 1 + 1 + 1) =
      4 * ((bs.length + 3) / 4) - bs.length := by omega
  simp only [zeroFilled, List.length_cons, hfill, List.cons_append]

/-- Four bytes written as a host word. -/
theorem Block.setWord_wordOfBytes (s : Block cfg) (a : Nat) (b0 b1 b2 b3 : Byte) :
    s.setWord a (wordOfBytes b0 b1 b2 b3) = s.setBytes a [b0, b1, b2, b3] := by
  simp only [Block.setWord, wordByte_wordOfBytes _ _ _ _ _ (show 0 < 4 by omega),
    wordByte_wordOfBytes _ _ _ _ _ (show 1 < 4 by omega), wordByte_wordOfBytes _ _ _ _ _ (show 2 < 4 by omega),
    wordByte_wordOfBytes _ _ _ _ _ (show 3 < 4 by omega)]
  rfl

/-- The host words of some bytes, written, are the bytes and their filling, written. -/
theorem Block.setWords_packBytes (s : Block cfg) (a : Nat) (bs : List Byte) :
    s.setWords a (packBytes bs) = s.setBytes a (zeroFilled bs) := by
  fun_induction packBytes bs generalizing s a with
  | case5 b0 b1 b2 b3 bs ih =>
    rw [Block.setWords, Block.setWord_wordOfBytes, ih, zeroFilled_cons_four]
    rfl
  | case1 => rfl
  | _ => simp [Block.setWords, Block.setWord_wordOfBytes, zeroFilled, List.replicate]

/-! ### The statement -/

/-- Settles O60: both statements run word writes (`runSteps_issue_asmLoadrx`), LOADPAY those of its bytes with their
filling (`Block.setWords_packBytes`). -/
theorem loadStatementsFillBuffers : Obligations.LoadStatementsFillBuffers := by
  refine ⟨fun cfg s bs hp hidle hlen => ⟨s.setBytes payloadBase (zeroFilled bs), ?runPay, ?bytes, fun i hlo hhi => ?fill,
      s.setBytes_eq _ _, fun a ha => ?framePay⟩,
    fun cfg s ws hp hidle hlen => ⟨s.setWords rxsymBase ws, ?runRx, s.map_wordAt_setWords _ _, s.setWords_eq _ _,
      fun a ha => s.byteAt_setWords_other _ ha⟩⟩
  case runPay =>
    simp only [Stmt.wf, Bool.and_eq_true, decide_eq_true_eq] at hlen
    rw [expandStmt, asmLoadpay_eq, asmLoadrx_length, ← Block.setWords_packBytes]
    refine runSteps_issue_asmLoadrx hp hidle rfl fun k hk => ?_
    rw [packBytes_length] at hk
    have := paramsWf_iff.mp hp
    rw [isBufferAddr_iff, payloadBase]
    omega
  case bytes =>
    refine List.ext_getElem (by simp) fun i hi hi' => ?_
    have hpad : i < (zeroFilled bs).length := by rw [zeroFilled_length]; omega
    simp only [Block.payloadList, Block.payload, List.getElem_map, List.getElem_range, s.byteAt_setBytes _ _ hpad]
    exact List.getElem_append_left hi'
  case fill =>
    have hpad : i < (zeroFilled bs).length := by rwa [zeroFilled_length]
    rw [Block.payload, s.byteAt_setBytes _ _ hpad]
    simp only [zeroFilled, List.getElem_append_right hlo, List.getElem_replicate]
  case framePay => exact s.byteAt_setBytes_other _ (by rwa [zeroFilled_length])
  case runRx =>
    simp only [Stmt.wf, Bool.and_eq_true, decide_eq_true_eq] at hlen
    rw [expandStmt, asmLoadrx_length]
    refine runSteps_issue_asmLoadrx hp hidle rfl fun k hk => ?_
    rw [isBufferAddr_iff, rxsymBase]
    omega

end Sys2Proof.Machine
end

section
/-! The timing table: the match windows, the corners of the acceptable operands, and what CHAN_INIT builds and keeps
(40_timing R121 to R133). -/

namespace Sys2Proof.Machine

variable {cfg : Config.Params}

/-! ### The windows of the tolerance match -/

/-- Settles O23: the model's test is the same two comparisons over the naturals (`durationMatch_iff`). -/
theorem matchIsOpenInterval : Obligations.MatchIsOpenInterval := by
  intro m d n
  rw [durationMatch_iff]
  omega

/-- No duration matches two nominals that are two margins or more apart (40_timing R133). -/
theorem not_durationMatch_both {m n n' : Nat} (h : n + 2 * m ≤ n') (d : Nat) :
    ¬ (durationMatch m d n = true ∧ durationMatch m d n' = true) := by
  rw [durationMatch_iff, durationMatch_iff]
  omega

/-- V4 over any two nominals (40_timing R129). -/
theorem nominal_gap {p : Config.Params} {res m : Nat} (h : tableValid p res m = true) {u v : Nat}
    (hu : u ∈ [560, 1690, 4500, 9000]) (hv : v ∈ [560, 1690, 4500, 9000]) (huv : u < v) :
    u * res / p.refRate + 2 * ticks p res m ≤ v * res / p.refRate := by
  obtain ⟨-, -, -, hgap⟩ := tableValid_iff.mp h
  have := hgap u hu v hv huv
  simp only [ticks]
  omega

/-- The margin a valid table holds is that of the latched operands (40_timing R122). -/
theorem Block.margin_toNat {s : Block cfg} (hp : cfg.wf = true) (h : s.tableInv) (hv : s.ttValid = true) :
    s.tt.margin.toNat = ticks cfg s.cfgRes.toNat s.cfgMargin.toNat := by
  obtain ⟨hval, htt⟩ := h.1 hv
  obtain ⟨-, -, -, -, hmargin⟩ := buildTable_words hp hval
  rw [htt, hmargin]

/-- Under a valid table no symbol matches both bits: their idle windows are disjoint (40_timing R133). -/
theorem not_matchSym_bit0_bit1 {s : Block cfg} (hp : cfg.wf = true) (h : s.tableInv) (hv : s.ttValid = true)
    (w : Word) : ¬ (matchSym s.tt w s.tt.bit0 = true ∧ matchSym s.tt w s.tt.bit1 = true) := by
  have := Block.table_facts hp h hv
  rw [matchSym_iff, matchSym_iff]
  omega

/-- Settles O24: the nominals stand two margins or more apart, by V4 and by the table's fields (`nominal_gap`,
`Block.table_facts`). -/
theorem windowsDisjoint : Obligations.WindowsDisjoint := by
  intro cfg s hp h hv
  obtain ⟨hm, h01, hend, h0, hgap0, hgap1, hgapL⟩ := Block.table_facts hp h hv
  refine ⟨fun u hu v hv' huv d => ?nominals,
    fun w => ⟨?leaderBit0, ?leaderBit1, not_matchSym_bit0_bit1 hp h hv w⟩, fun d => ?active, hend, hend.trans h01⟩
  case nominals =>
    obtain ⟨hval, -⟩ := h.1 hv
    rw [Block.margin_toNat hp h hv]
    rcases Nat.lt_or_gt_of_ne huv with hlt | hgt
    · exact not_durationMatch_both (nominal_gap hval hu hv' hlt) d
    · exact fun hboth => not_durationMatch_both (nominal_gap hval hv' hu hgt) d hboth.symm
  case leaderBit0 => rw [matchSym_iff, matchSym_iff]; omega
  case leaderBit1 => rw [matchSym_iff, matchSym_iff]; omega
  case active => rw [durationMatch_iff, durationMatch_iff, durationMatch_iff]; omega

/-! ### CHAN_INIT -/

/-- CHAN_INIT on acceptable operands (40_timing R130). -/
theorem exec_chanInit_ok {s : Block cfg} (hv : s.ttValid = false) (h : tableValid cfg s.opRes s.opMargin = true) :
    exec .chanInit ⟨cfg, s⟩ = .next ⟨cfg, s.initChannel.finish 0x01 .ok 0 0⟩ := by
  rcases execChanInit_cases s with ⟨hv', _⟩ | ⟨_, _, h'⟩ | ⟨_, h', _⟩
  · cases hv.symm.trans hv'
  · exact h'
  · cases h.symm.trans h'

/-- CHAN_INIT on operands that fail V1 to V4 (60_exceptions R247). -/
theorem exec_chanInit_configInvalid {s : Block cfg} (hv : s.ttValid = false)
    (h : tableValid cfg s.opRes s.opMargin = false) :
    exec .chanInit ⟨cfg, s⟩ = .next ⟨cfg, s.raise 0x01 .configInvalid⟩ := by
  rcases execChanInit_cases s with ⟨hv', _⟩ | ⟨_, h', _⟩ | ⟨_, _, h'⟩
  · cases hv.symm.trans hv'
  · cases h.symm.trans h'
  · exact h'

/-- Before a table is built CHAN_INIT ends OK exactly on acceptable operands (40_timing R129, R130). -/
theorem exec_chanInit_code_ok_iff {s t : Block cfg} (hv : s.ttValid = false)
    (h : exec .chanInit ⟨cfg, s⟩ = .next ⟨cfg, t⟩) :
    t.code = .ok ↔ tableValid cfg s.arg0.toNat s.arg1.toNat = true := by
  cases hval : tableValid cfg s.opRes s.opMargin with
  | true => rw [exec_chanInit_ok hv hval] at h; cases h; exact iff_of_true rfl hval
  | false =>
    rw [exec_chanInit_configInvalid hv hval] at h
    cases h
    exact iff_of_false nofun (Bool.eq_false_iff.mp hval)

/-- Settles O19: CHAN_INIT writes the table of the operands (`exec_chanInit_ok`), whose fields and words are the scaled
durations (`buildTable_fields`, `buildTable_words`). -/
theorem chanInitBuildsTable : Obligations.ChanInitBuildsTable := by
  intro cfg s tk hp hv hops htk
  have hval : tableValid cfg s.arg0.toNat s.arg1.toNat = true := tableValid_iff.mpr hops
  obtain rfl : tk = ticks cfg s.arg0.toNat := funext htk
  have hwords := buildTable_words hp hval
  refine ⟨_, exec_chanInit_ok hv hval, buildTable_fields hp hval, hwords, ?defaults, rfl⟩
  case defaults => rintro rfl; exact hwords

/-- V4 holds when it does between neighbours of the nominal set (40_timing R129). -/
theorem tableValid_iff_neighbours {p : Config.Params} {res m : Nat} :
    tableValid p res m = true ↔ 1 ≤ res ∧ 1 ≤ ticks p res m ∧ ticks p res 9000 ≤ p.durMax ∧
      ticks p res 560 + 2 * ticks p res m < ticks p res 1690 ∧
      ticks p res 1690 + 2 * ticks p res m < ticks p res 4500 ∧
      ticks p res 4500 + 2 * ticks p res m < ticks p res 9000 := by
  constructor
  · intro h
    obtain ⟨hres, -⟩ := tableValid_iff.mp h
    obtain ⟨hm, hgaps⟩ := margin_bounds h
    exact ⟨hres, hm, ticks_le_durMax h le_rfl, hgaps⟩
  · rintro ⟨hres, hm, hmax, h1, h2, h3⟩
    refine tableValid_iff.mpr ⟨hres, hm, hmax, ?_⟩
    simp only [ticks] at h1 h2 h3
    simp only [List.forall_mem_cons, List.not_mem_nil, Nat.reduceLT, Nat.lt_irrefl, false_implies, implies_true,
      forall_const, true_and, and_true]
    omega

/-- Settles O21: with the defaults V1 to V4 are linear in the resolution at margin 200, and in the margin at resolution
1,000,000 (`tableValid_iff_neighbours`). -/
theorem chanInitCornerCases : Obligations.ChanInitCornerCases := by
  refine ⟨fun s t hv hm h => ?resolutions, fun s t hv hres h => ?margins⟩
  case resolutions =>
    rw [exec_chanInit_code_ok_iff hv h, hm, tableValid_iff_neighbours]
    simp only [ticks, Config.Params.durMax, BitVec.reduceToNat, Nat.reducePow, Nat.reduceSub]
    omega
  case margins =>
    rw [exec_chanInit_code_ok_iff hv h, hres, tableValid_iff_neighbours]
    simp only [ticks, Config.Params.durMax, BitVec.reduceToNat, Nat.reducePow, Nat.reduceSub]
    omega

/-! ### The table is kept -/

/-- Once a table is built no command changes it: CHAN_INIT is refused, the others leave it alone (40_timing R132). -/
theorem exec_keeps_table {i : Instr} {s t : Block cfg} (hv : s.ttValid = true)
    (h : exec i ⟨cfg, s⟩ = .next ⟨cfg, t⟩) :
    t.ttValid = true ∧ t.tt = s.tt ∧ t.cfgRes = s.cfgRes ∧ t.cfgMargin = s.cfgMargin := by
  cases i with
  | chanInit =>
    rcases execChanInit_cases s with ⟨_, h'⟩ | ⟨hv', _⟩ | ⟨hv', _⟩
    · rw [h'] at h; cases h; exact ⟨hv, rfl, rfl, rfl⟩
    all_goals cases hv.symm.trans hv'
  | encode => rw [(execEncode_frame h).1]; exact ⟨hv, rfl, rfl, rfl⟩
  | decode => rw [(execDecode_frame h).1]; exact ⟨hv, rfl, rfl, rfl⟩
  | shotBuild => rw [(execShotBuild_frame h).1]; exact ⟨hv, rfl, rfl, rfl⟩
  | shotClassify => rw [execShotClassify_frame h]; exact ⟨hv, rfl, rfl, rfl⟩

/-- Settles O22: of the accesses that are no power-on only a command could change the table, and none does
(`exec_keeps_table`). -/
theorem tableReadOnlyUntilPowerOn : Obligations.TableReadOnlyUntilPowerOn := by
  intro cfg s t h hv hpor hs
  rcases serve_cases _ _ _ hs with ⟨_, _, _, _, rfl⟩ | ⟨_, _, _, _, hx⟩ | ⟨_, _, _, _, rfl⟩ |
    ⟨_, _, r, _, _, _, _, rfl⟩ | ⟨_, _, _, _, _, rfl⟩ | ⟨rfl, _⟩
  case inl => exact ⟨hv, rfl, rfl, rfl⟩
  case inr.inl => exact exec_keeps_table hv hx
  case inr.inr.inl => exact ⟨hv, rfl, rfl, rfl⟩
  case inr.inr.inr.inl => cases r <;> exact ⟨hv, rfl, rfl, rfl⟩
  case inr.inr.inr.inr.inl => exact ⟨hv, rfl, rfl, rfl⟩
  case inr.inr.inr.inr.inr => exact absurd rfl hpor

end Sys2Proof.Machine
end

section
/-! The decoder under a valid table as a comparison with the frame, and the boundary of its tolerance (40_timing R127,
R128, R133, 42_decoder R180, R191 (b)). -/

namespace Sys2Proof.Machine

variable {cfg : Config.Params}

/-! ### Symbols of frames -/

/-- Bit `b` of byte `j` stands at position `8j+b+1` of the frame (30_encoding R106). -/
theorem frame_getElem?_bit (t : TimingTable cfg) (p : List Byte) {j b : Nat} (hj : j < p.length) (hb : b < 8) :
    (frame t p)[8 * j + b + 1]? = some (t.bitSym (p[j].getLsbD b)) := by
  rw [frame_getElem?_data t p (by omega), getElem?_flatMap_byteSyms t p hj hb]

/-- A symbol of a frame is its leader, one of its bits or its ending (30_encoding R105, R106). -/
theorem frame_getElem?_cases {t : TimingTable cfg} {p : List Byte} {i : Nat} {w : Word}
    (h : (frame t p)[i]? = some w) :
    (i = 0 ∧ w = t.leader) ∨
      (∃ (j b : Nat) (hj : j < p.length), b < 8 ∧ i = 8 * j + b + 1 ∧ w = t.bitSym (p[j].getLsbD b)) ∨
      (i = 8 * p.length + 1 ∧ w = t.ending) := by
  have hi : i < 2 + 8 * p.length := by
    rw [← frame_length t p]
    exact (List.getElem?_eq_some_iff.mp h).1
  rcases Nat.eq_zero_or_pos i with rfl | hpos
  · exact .inl ⟨rfl, (Option.some.inj h).symm⟩
  by_cases hend : i = 8 * p.length + 1
  · subst hend
    rw [frame_getElem?_ending] at h
    exact .inr (.inr ⟨rfl, (Option.some.inj h).symm⟩)
  · have hj : (i - 1) / 8 < p.length := by omega
    have hb : (i - 1) % 8 < 8 := Nat.mod_lt _ (by decide)
    have hpos' : i = 8 * ((i - 1) / 8) + (i - 1) % 8 + 1 := by omega
    rw [hpos', frame_getElem?_bit t p hj hb] at h
    exact .inr (.inl ⟨_, _, hj, hb, hpos', (Option.some.inj h).symm⟩)

/-- Two bit symbols of a valid table have the same active duration, and their idle durations are the same or more than
two margins apart (40_timing R122, R129). -/
theorem bitSym_apart {s : Block cfg} (hp : cfg.wf = true) (h : s.tableInv) (hv : s.ttValid = true) (a b : Bool) :
    symAct cfg.durW (s.tt.bitSym a) = symAct cfg.durW (s.tt.bitSym b) ∧
      (symIdle cfg.durW (s.tt.bitSym a) = symIdle cfg.durW (s.tt.bitSym b) ∨
        symIdle cfg.durW (s.tt.bitSym a) + 2 * s.tt.margin.toNat < symIdle cfg.durW (s.tt.bitSym b) ∨
        symIdle cfg.durW (s.tt.bitSym b) + 2 * s.tt.margin.toNat < symIdle cfg.durW (s.tt.bitSym a)) := by
  obtain ⟨-, hact, -, -, hgap, -⟩ := Block.table_facts hp h hv
  cases a <;> cases b <;> simp [TimingTable.bitSym, hact, hgap]

/-- So have the symbols at one position of two frames of one length. -/
theorem frame_symbols_apart {s : Block cfg} (hp : cfg.wf = true) (h : s.tableInv) (hv : s.ttValid = true)
    {p q : List Byte} (hlen : p.length = q.length) {i : Nat} {w w' : Word} (hw : (frame s.tt p)[i]? = some w)
    (hw' : (frame s.tt q)[i]? = some w') :
    symAct cfg.durW w = symAct cfg.durW w' ∧
      (symIdle cfg.durW w = symIdle cfg.durW w' ∨
        symIdle cfg.durW w + 2 * s.tt.margin.toNat < symIdle cfg.durW w' ∨
        symIdle cfg.durW w' + 2 * s.tt.margin.toNat < symIdle cfg.durW w) := by
  rcases frame_getElem?_cases hw with ⟨rfl, rfl⟩ | ⟨j, b, hj, hb, rfl, rfl⟩ | ⟨rfl, rfl⟩
  · obtain rfl := Option.some.inj hw'
    exact ⟨rfl, .inl rfl⟩
  · rw [frame_getElem?_bit s.tt q (hlen ▸ hj) hb] at hw'
    obtain rfl := Option.some.inj hw'
    exact bitSym_apart hp h hv _ _
  · rw [hlen, frame_getElem?_ending] at hw'
    obtain rfl := Option.some.inj hw'
    exact ⟨rfl, .inl rfl⟩

/-! ### A burst against a frame -/

/-- Under a valid table a symbol classifies as a bit exactly when it matches that bit's symbol: which bit is tested
first does not matter (40_timing R128, R133). -/
theorem classifyBit_eq_some_iff {s : Block cfg} (hp : cfg.wf = true) (h : s.tableInv) (hv : s.ttValid = true) {x : Word}
    {b : Bool} : classifyBit s.tt x = some b ↔ matchSym s.tt x (s.tt.bitSym b) = true := by
  by_cases h0 : matchSym s.tt x s.tt.bit0 = true
  · have h1 : matchSym s.tt x s.tt.bit1 = false :=
      Bool.eq_false_iff.mpr fun h1 => not_matchSym_bit0_bit1 hp h hv x ⟨h0, h1⟩
    cases b <;> simp [classifyBit, TimingTable.bitSym, h0, h1]
  · cases b <;> simp [classifyBit, TimingTable.bitSym, h0]

/-- What the decoder asks of symbol `i` of a burst of `n` bytes where the frame has `w`: both phases match, but for the
idle phase of the ending (40_timing R127, 42_decoder R187). -/
def SymbolMatches (t : TimingTable cfg) (n i : Nat) (x w : Word) : Prop :=
  durationMatch t.margin.toNat (symAct cfg.durW x) (symAct cfg.durW w) = true ∧
    (i ≠ 8 * n + 1 → durationMatch t.margin.toNat (symIdle cfg.durW x) (symIdle cfg.durW w) = true)

section
variable {t : TimingTable cfg} {n i : Nat} {x w : Word}

/-- Before the ending it is the match of the whole symbol. -/
theorem symbolMatches_iff_matchSym (hi : i ≠ 8 * n + 1) : SymbolMatches t n i x w ↔ matchSym t x w = true := by
  simp [SymbolMatches, matchSym, hi]

/-- At the ending it is the match of the ending. -/
theorem symbolMatches_ending : SymbolMatches t n (8 * n + 1) x t.ending ↔ matchEnd t x = true := by
  simp [SymbolMatches, matchEnd]

theorem symbolMatches_self (hm : 1 ≤ t.margin.toNat) : SymbolMatches t n i w w :=
  ⟨durationMatch_self hm, fun _ => durationMatch_self hm⟩

end

/-- Under a valid table the decoder reads a burst as `p` exactly when each of its symbols matches that of the frame of
`p` (42_decoder R180, R191). -/
theorem decodeBurst_eq_ok_iff_matches_frame {s : Block cfg} (hp : cfg.wf = true) (h : s.tableInv)
    (hv : s.ttValid = true) {cap : Nat} {ws : List Word} {p : List Byte} :
    decodeBurst s.tt cap ws = .ok p ↔
      p.length ≤ cap ∧ ws.length = 2 + 8 * p.length ∧
        ∀ (i : Nat) (x w : Word), ws[i]? = some x → (frame s.tt p)[i]? = some w →
          SymbolMatches s.tt p.length i x w := by
  rw [decodeBurst_eq_ok]
  constructor
  · rintro ⟨lead, rest, rfl, hlead, hcap, hlen, hbits, last, hlast, hend⟩
    refine ⟨hcap, by rw [List.length_cons]; omega, fun i x w hx hw => ?_⟩
    rcases frame_getElem?_cases hw with ⟨rfl, rfl⟩ | ⟨j, b, hj, hb, rfl, rfl⟩ | ⟨rfl, rfl⟩
    · obtain rfl := Option.some.inj hx
      exact (symbolMatches_iff_matchSym (by omega)).mpr hlead
    · have hbit := hbits j b hj hb
      rw [List.getElem?_cons_succ] at hx
      rw [hx] at hbit
      exact (symbolMatches_iff_matchSym (by omega)).mpr ((classifyBit_eq_some_iff hp h hv).mp hbit)
    · rw [List.getElem?_cons_succ, hlast] at hx
      obtain rfl := Option.some.inj hx
      exact symbolMatches_ending.mpr hend
  · rintro ⟨hcap, hlen, hmatch⟩
    cases ws with
    | nil => rw [List.length_nil] at hlen; omega
    | cons lead rest =>
      have hrest : rest.length = 8 * p.length + 1 := by rw [List.length_cons] at hlen; omega
      refine ⟨lead, rest, rfl, (symbolMatches_iff_matchSym (by omega)).mp (hmatch 0 lead _ rfl rfl), hcap, hrest,
        fun j b hj hb => ?bits, _, List.getElem?_eq_getElem (by omega), ?ending⟩
      case bits =>
        have hlt : 8 * j + b < rest.length := by omega
        have hbit := hmatch (8 * j + b + 1) rest[8 * j + b] _ (by simp) (frame_getElem?_bit s.tt p hj hb)
        rw [List.getElem?_eq_getElem hlt]
        exact (classifyBit_eq_some_iff hp h hv).mpr ((symbolMatches_iff_matchSym (by omega)).mp hbit)
      case ending => exact symbolMatches_ending.mp (hmatch _ _ _ (by simp) (frame_getElem?_ending s.tt p))

/-! ### One duration changed -/

/-- `x` is symbol `i` of a frame of `n` bytes with one duration that the decoder looks at changed from its nominal value
`nom` to `d`. -/
def OnePhaseChanged (dw n i : Nat) (w x : Word) (nom d : Nat) : Prop :=
  (nom = symAct dw w ∧ symAct dw x = d ∧ symIdle dw x = symIdle dw w) ∨
    (i ≠ 8 * n + 1 ∧ nom = symIdle dw w ∧ symIdle dw x = d ∧ symAct dw x = symAct dw w)

/-- A symbol word with one field replaced by a duration that fits it has one phase changed (30_encoding R100). -/
theorem onePhaseChanged_act {p : Config.Params} (hp : p.wf = true) {d : Nat} (hd : d ≤ p.durMax) (n i : Nat)
    (w : Word) :
    OnePhaseChanged p.durW n i w (symWord p.durW d (symIdle p.durW w)) (symAct p.durW w) d := by
  obtain ⟨-, -, hdw, -⟩ := paramsWf_iff.mp hp
  refine .inl ⟨rfl, ?_, ?_⟩
  · rw [symAct_symWord hdw, mod_of_le_durMax hd]
  · rw [symIdle_symWord hdw, mod_of_le_durMax (symIdle_le p w)]

theorem onePhaseChanged_idle {p : Config.Params} (hp : p.wf = true) {d : Nat} (hd : d ≤ p.durMax) {n i : Nat}
    (hi : i ≠ 8 * n + 1) (w : Word) :
    OnePhaseChanged p.durW n i w (symWord p.durW (symAct p.durW w) d) (symIdle p.durW w) d := by
  obtain ⟨-, -, hdw, -⟩ := paramsWf_iff.mp hp
  refine .inr ⟨hi, rfl, ?_, ?_⟩
  · rw [symIdle_symWord hdw, mod_of_le_durMax hd]
  · rw [symAct_symWord hdw, mod_of_le_durMax (symAct_le p w)]

/-- The changed symbol still matches when the changed duration does. -/
theorem OnePhaseChanged.symbolMatches {t : TimingTable cfg} {n i : Nat} {w x : Word} {nom d : Nat}
    (hx : OnePhaseChanged cfg.durW n i w x nom d) (hm : 1 ≤ t.margin.toNat)
    (hd : durationMatch t.margin.toNat d nom = true) : SymbolMatches t n i x w := by
  rcases hx with ⟨rfl, rfl, hidle⟩ | ⟨-, rfl, rfl, hact⟩
  · exact ⟨hd, fun _ => hidle ▸ durationMatch_self hm⟩
  · exact ⟨hact ▸ durationMatch_self hm, fun _ => hd⟩

section
variable {s : Block cfg} {p : List Byte} {i : Nat} {w x : Word} {nom d : Nat}

/-- A frame with one duration changed to one that matches its nominal decodes to the same payload (42_decoder R191
(b)). -/
theorem decodeBurst_of_match (hp : cfg.wf = true) (h : s.tableInv) (hv : s.ttValid = true) {cap : Nat}
    (hcap : p.length ≤ cap) (hw : (frame s.tt p)[i]? = some w) (hx : OnePhaseChanged cfg.durW p.length i w x nom d)
    (hd : durationMatch s.tt.margin.toNat d nom = true) :
    decodeBurst s.tt cap ((frame s.tt p).set i x) = .ok p := by
  have hm := (Block.table_facts hp h hv).1
  refine (decodeBurst_eq_ok_iff_matches_frame hp h hv).mpr ⟨hcap, by simp, fun k y v hy hv' => ?_⟩
  obtain ⟨hk, -⟩ := List.getElem?_eq_some_iff.mp hv'
  by_cases hik : i = k
  · subst hik
    rw [List.getElem?_set_self hk] at hy
    obtain rfl := Option.some.inj hy
    obtain rfl := Option.some.inj (hw.symm.trans hv')
    exact hx.symbolMatches hm hd
  · rw [List.getElem?_set_ne hik] at hy
    obtain rfl := Option.some.inj (hy.symm.trans hv')
    exact symbolMatches_self hm

/-- A frame with one duration changed to one exactly a margin from its nominal decodes to nothing: the bit symbols are
too far apart for it to match the other bit (42_decoder R191 (b), 40_timing R133). -/
theorem decodeBurst_ne_ok_of_margin (hp : cfg.wf = true) (h : s.tableInv) (hv : s.ttValid = true) (cap : Nat)
    (hw : (frame s.tt p)[i]? = some w) (hx : OnePhaseChanged cfg.durW p.length i w x nom d)
    (hd : d + s.tt.margin.toNat = nom ∨ d = nom + s.tt.margin.toNat) (bs : List Byte) :
    decodeBurst s.tt cap ((frame s.tt p).set i x) ≠ .ok bs := by
  intro hok
  obtain ⟨-, hlen, hmatch⟩ := (decodeBurst_eq_ok_iff_matches_frame hp h hv).mp hok
  have hn : p.length = bs.length := by rw [List.length_set, frame_length] at hlen; omega
  obtain ⟨hi, -⟩ := List.getElem?_eq_some_iff.mp hw
  have hi' : i < (frame s.tt bs).length := by rwa [frame_length, ← hn, ← frame_length s.tt p]
  have hw' := List.getElem?_eq_getElem hi'
  obtain ⟨hact, hidle⟩ := frame_symbols_apart hp h hv hn hw hw'
  obtain ⟨hma, hmi⟩ := hmatch i x _ (List.getElem?_set_self hi) hw'
  rw [durationMatch_iff] at hma
  rcases hx with ⟨rfl, rfl, -⟩ | ⟨hend, rfl, rfl, -⟩
  · omega
  · have hmi := durationMatch_iff.mp (hmi (hn ▸ hend))
    omega

end

/-- Settles O46: the changed duration decides, since all the others are nominal (`decodeBurst_of_match`,
`decodeBurst_ne_ok_of_margin`). -/
theorem decodeToleranceBoundary : Obligations.DecodeToleranceBoundary := by
  intro cfg s t p i w d nom hp h hv hpos hn hrx hcap hdest hw hd hchange hexec
  have hrange : s.decodeInRange = true := s.decodeInRange_iff.mpr ⟨hrx, hdest⟩
  have hm := (Block.table_facts hp h hv).1
  obtain ⟨x, hx, hburst⟩ : ∃ x, OnePhaseChanged cfg.durW p.length i w x nom d ∧
      s.decodeBurst = decodeBurst s.tt s.opDestCap ((frame s.tt p).set i x) := by
    rcases hchange with ⟨rfl, hrxsym⟩ | ⟨rfl, hi, hrxsym⟩
    · exact ⟨_, onePhaseChanged_act hp hd _ _ w, by rw [← hrxsym]; rfl⟩
    · exact ⟨_, onePhaseChanged_idle hp hd (by omega) w, by rw [← hrxsym]; rfl⟩
  refine ⟨fun hfar => ?rejected, fun hnear => ?accepted⟩
  case rejected =>
    cases hb : s.decodeBurst with
    | ok bs => exact absurd (hburst.symm.trans hb) (decodeBurst_ne_ok_of_margin hp h hv _ hw hx hfar bs)
    | error e =>
      rw [exec_decode_error hv hrange hb] at hexec
      cases hexec
      exact Block.decodeBurst_isError hb
  case accepted =>
    have hmatch : durationMatch s.tt.margin.toNat d nom = true := by rw [durationMatch_iff]; omega
    rw [exec_decode_ok hv hrange (hburst.trans (decodeBurst_of_match hp h hv hcap hw hx hmatch))] at hexec
    cases hexec
    exact ⟨decodeCode_eq_ok.mpr hpos, s.commitDecode_destList p⟩

end Sys2Proof.Machine
end

section
/-! One ENCODE: what it leaves, and what it emits when it completes a frame, when it does not, and when no data is left
(41_encoder R150, R153, R154, R156, R158, R159, R161). -/

namespace Sys2Proof.Machine

variable {cfg : Config.Params}

/-! ### The block an ENCODE leaves -/

/-- What an ENCODE with operands in range and capacity at least 1 leaves (41_encoder R150; `exec_encode_eq_encoded`). -/
def Block.encoded (s : Block cfg) : Block cfg :=
  (s.commitEncode s.encodeStep).finish 0x02 .ok (BitVec.ofNat 32 s.encodeStep.syms.length)
    (flagWord s.encodeStep.complete)

section
variable (s : Block cfg)

@[simp] theorem Block.encoded_res0 : s.encoded.res0 = BitVec.ofNat 32 s.encodeStep.syms.length := rfl
@[simp] theorem Block.encoded_res1 : s.encoded.res1 = flagWord s.encodeStep.complete := rfl
@[simp] theorem Block.encoded_code : s.encoded.code = .ok := rfl
@[simp] theorem Block.encoded_arg0 : s.encoded.arg0 = s.arg0 := by simp [Block.encoded, Block.commitEncode_eq]
@[simp] theorem Block.encoded_arg1 : s.encoded.arg1 = s.arg1 := by simp [Block.encoded, Block.commitEncode_eq]
@[simp] theorem Block.encoded_ttValid : s.encoded.ttValid = s.ttValid := by
  simp [Block.encoded, Block.commitEncode_eq]
@[simp] theorem Block.encoded_tt : s.encoded.tt = s.tt := by simp [Block.encoded, Block.commitEncode_eq]
@[simp] theorem Block.encoded_session : s.encoded.session = s.encodeStep.session cfg := s.commitEncode_session _

/-- The symbols emitted stand in TXSYM from index 0 on (41_encoder R157). -/
theorem Block.encoded_txsymList : s.encoded.txsymList s.encodeStep.syms.length = s.encodeStep.syms :=
  s.commitEncode_txsymList _

/-- RES0 counts the symbols emitted (41_encoder R150). -/
theorem Block.encoded_res0_toNat (hc : 1 ≤ s.arg1.toNat) : s.encoded.res0.toNat = s.encodeStep.syms.length :=
  ofNat_toNat_of_lt (Block.encodeStep_length_lt hc)

end

section
variable {s t : Block cfg}

/-- ENCODE with operands in range and capacity at least 1 (41_encoder R150). -/
theorem exec_encode_eq_encoded (hv : s.ttValid = true) (hL : s.arg0.toNat ≤ cfg.payloadMax)
    (h1 : 1 ≤ s.arg1.toNat) (h2 : s.arg1.toNat ≤ cfg.txsymMax) :
    exec .encode ⟨cfg, s⟩ = .next ⟨cfg, s.encoded⟩ := exec_encode_next hv hL h1 h2

/-- An ENCODE either emits, as `Block.encoded` says, or ends with another code than OK, RES1 0 and the session it found
(41_encoder R150, R154, 60_exceptions R244). -/
theorem exec_encode_encoded_or_kept (h : exec .encode ⟨cfg, s⟩ = .next ⟨cfg, t⟩) :
    (1 ≤ s.arg1.toNat ∧ t = s.encoded) ∨ (t.code ≠ .ok ∧ t.res1 = 0 ∧ t.session = s.session) := by
  rcases execEncode_cases s with ⟨_, h'⟩ | ⟨_, _, h'⟩ | ⟨_, _, _, h'⟩ | ⟨_, _, hc, h'⟩ <;> (rw [h'] at h; cases h)
  case inr.inr.inr => exact .inl ⟨hc, rfl⟩
  all_goals exact .inr ⟨nofun, rfl, rfl⟩

/-- ENCODE with capacity 0 (41_encoder R154). -/
theorem exec_encode_starved (hv : s.ttValid = true) (hL : s.arg0.toNat ≤ cfg.payloadMax) (hc : s.arg1 = 0) :
    exec .encode ⟨cfg, s⟩ = .next ⟨cfg, s.finish 0x02 .starved 0 0⟩ := by
  have hzero : s.opCapacity = 0 := by rw [Block.opCapacity, hc]; rfl
  have hr : s.encodeInRange = true := s.encodeInRange_iff.mpr ⟨hL, by rw [hc]; exact Nat.zero_le _⟩
  rcases execEncode_cases s with ⟨h, _⟩ | ⟨_, h, _⟩ | ⟨_, _, _, h⟩ | ⟨_, _, h, _⟩
  · cases hv.symm.trans h
  · cases hr.symm.trans h
  · exact h
  · omega

end

/-! ### What one ENCODE emits -/

section
variable (t : TimingTable cfg) (p : List Byte)

/-- The Ending phase emits the ending last and starts over, or leaves everything as it was handed to it (41_encoder
R153). -/
theorem endingPhase_cases (c : Nat) (ss : List Word) (ph : Phase) (pc bc : Nat) :
    endingPhase t c ss ph pc bc = ⟨ss ++ [t.ending], .leader, 0, 0, true⟩ ∨
      endingPhase t c ss ph pc bc = ⟨ss, ph, pc, bc, false⟩ := by
  unfold endingPhase
  split
  · exact .inl rfl
  · exact .inr rfl

/-- With room left the Ending phase emits the ending (41_encoder R153). -/
theorem endingPhase_room {c : Nat} {ss : List Word} (hroom : ss.length < c) (pc bc : Nat) :
    endingPhase t c ss .ending pc bc = ⟨ss ++ [t.ending], .leader, 0, 0, true⟩ := if_pos ⟨rfl, hroom⟩

/-- The frame completed, its ending emitted last and the session at `{Leader, 0, 0}`, or a frame still under way
(41_encoder R153, R158). -/
def EncodeStep.CompleteOrUnderWay (r : EncodeStep) : Prop :=
  (∃ ss, r = ⟨ss ++ [t.ending], .leader, 0, 0, true⟩) ∨ ∃ ss ph pc bc, ph ≠ .leader ∧ r = ⟨ss, ph, pc, bc, false⟩

theorem endingPhase_completeOrUnderWay (c : Nat) (ss : List Word) {ph : Phase} (pc bc : Nat) (hph : ph ≠ .leader) :
    (endingPhase t c ss ph pc bc).CompleteOrUnderWay t := by
  rcases endingPhase_cases t c ss ph pc bc with h | h
  · exact .inl ⟨ss, h⟩
  · exact .inr ⟨ss, ph, pc, bc, hph, h⟩

/-- The Data phase in the middle of a frame: its symbols, then the Ending phase (41_encoder R152). -/
theorem dataPhase_completeOrUnderWay (c : Nat) (ss : List Word) {ph : Phase} (pc bc : Nat) (hph : ph ≠ .leader) :
    (dataPhase t p c ss ph pc bc).CompleteOrUnderWay t := by
  unfold dataPhase
  split
  · exact endingPhase_completeOrUnderWay t c _ _ _ (by split <;> decide)
  · exact endingPhase_completeOrUnderWay t c _ _ _ hph

/-- One ENCODE completes its frame or leaves it under way, never back at Leader without the ending (41_encoder R153). -/
theorem encodeStep_completeOrUnderWay (c : Nat) (e : EncodeSession cfg) :
    (encodeStep t p c e).CompleteOrUnderWay t := by
  unfold encodeStep
  split
  · exact dataPhase_completeOrUnderWay t p c _ _ _ (by decide)
  · exact dataPhase_completeOrUnderWay t p c _ _ _ ‹_›

/-- With no byte at the cursor and room left the Data phase goes straight to the ending (41_encoder R152, R159). -/
theorem dataPhase_noData {c : Nat} {ss : List Word} {pc : Nat} (bc : Nat) (hpc : p.length ≤ pc)
    (hroom : ss.length < c) : dataPhase t p c ss .data pc bc = ⟨ss ++ [t.ending], .leader, 0, 0, true⟩ := by
  simp only [dataPhase, if_true, dataLoop_done t p _ bc hpc, List.append_nil, ge_iff_le, if_pos hpc]
  exact endingPhase_room t hroom pc bc

/-- With no data left in a frame under way, an ENCODE with capacity emits the ending alone and completes (41_encoder
R153, R159). -/
theorem encodeStep_noData {c : Nat} {e : EncodeSession cfg} (hc : 1 ≤ c) (hph : e.phase ≠ .leader)
    (hd : e.phase = .data → p.length ≤ e.pcur.val) :
    encodeStep t p c e = ⟨[t.ending], .leader, 0, 0, true⟩ := by
  rw [encodeStep, if_neg hph]
  cases hphase : e.phase with
  | leader => exact absurd hphase hph
  | data => exact dataPhase_noData t p _ (hd hphase) hc
  | ending => exact endingPhase_room t hc _ _

/-- An empty frame begun with room for the leader alone leaves its ending to send (41_encoder R156). -/
theorem encodeStep_leaderAlone :
    encodeStep t [] 1 (⟨.leader, 0, 0⟩ : EncodeSession cfg) = ⟨[t.leader], .ending, 0, 0, false⟩ := rfl

/-- An empty frame begun with room for two symbols is its leader and its ending (41_encoder R156). -/
theorem encodeStep_leaderEnding {c : Nat} (hc : 2 ≤ c) :
    encodeStep t [] c (⟨.leader, 0, 0⟩ : EncodeSession cfg) = ⟨[t.leader, t.ending], .leader, 0, 0, true⟩ := by
  rw [encodeStep, if_pos rfl]
  exact dataPhase_noData t [] _ (Nat.zero_le _) hc

/-- The Ending phase keeps what was emitted before it. -/
theorem endingPhase_length_ge (c : Nat) (ss : List Word) (ph : Phase) (pc bc : Nat) :
    ss.length ≤ (endingPhase t c ss ph pc bc).syms.length := by
  rcases endingPhase_cases t c ss ph pc bc with h | h <;> simp [h]

/-- So the Data phase keeps what was emitted before it and what its loop emits. -/
theorem dataPhase_length_ge (c : Nat) (ss : List Word) (pc bc : Nat) :
    ss.length + (dataLoop t p (c - ss.length) pc bc).1.length ≤ (dataPhase t p c ss .data pc bc).syms.length := by
  rw [dataPhase, if_pos rfl, ← List.length_append]
  exact endingPhase_length_ge t c _ _ _ _

/-- With room and a byte at the cursor the Data loop emits (41_encoder R152). -/
theorem dataLoop_length_pos {room pc : Nat} (bc : Nat) (hroom : 1 ≤ room) (hpc : pc < p.length) :
    1 ≤ (dataLoop t p room pc bc).1.length := by
  obtain ⟨k, rfl⟩ := Nat.exists_eq_add_of_le' hroom
  simp [dataLoop, List.getElem?_eq_getElem hpc]

/-- Every ENCODE with capacity emits at least one symbol: the leader, a data symbol, or the ending (41_encoder R154). -/
theorem encodeStep_length_pos {c : Nat} (e : EncodeSession cfg) (hc : 1 ≤ c) :
    1 ≤ (encodeStep t p c e).syms.length := by
  by_cases hleader : e.phase = .leader
  · rw [encodeStep, if_pos hleader]
    exact (Nat.le_add_right _ _).trans (dataPhase_length_ge t p c [t.leader] _ _)
  by_cases hdata : e.phase = .data ∧ e.pcur.val < p.length
  · obtain ⟨hphase, hpc⟩ := hdata
    rw [encodeStep, if_neg hleader, hphase]
    exact (dataLoop_length_pos t p _ hc hpc).trans
      ((Nat.le_add_left _ _).trans (dataPhase_length_ge t p c [] _ _))
  · rw [encodeStep_noData t p hc hleader fun hphase => Nat.le_of_not_lt fun hpc => hdata ⟨hphase, hpc⟩]
    exact Nat.le_refl 1

end

/-! ### The statements about one ENCODE -/

/-- Settles O27: with capacity 0 nothing but the write-back happens (`exec_encode_starved`); with capacity the symbols
emitted are at least one and at most the capacity (`encodeStep_length_pos`, `encodeStep_length_le`). -/
theorem encodeZeroCapacity : Obligations.EncodeZeroCapacity := by
  refine ⟨fun cfg s hv hL hc => exec_encode_starved hv hL hc,
    fun cfg s hv hL h1 h2 => ⟨_, exec_encode_eq_encoded hv hL h1 h2, rfl, ?_⟩⟩
  rw [s.encoded_res0_toNat h1]
  exact ⟨encodeStep_length_pos _ _ _ h1, encodeStep_length_le _ _ _ _ h1⟩

/-- An ENCODE that emits, from what it emits and leaves on lists (41_encoder R150). -/
theorem Block.encoded_of_encodeStep {s : Block cfg} {ss : List Word} {ph : Phase} {pc bc : Nat} {b : Bool}
    (h : s.encodeStep = ⟨ss, ph, pc, bc, b⟩) :
    s.encoded.res0 = BitVec.ofNat 32 ss.length ∧ s.encoded.res1 = flagWord b ∧ s.encoded.txsymList ss.length = ss ∧
      s.encoded.session = ⟨ph, Fin.ofNat _ pc, Fin.ofNat _ bc⟩ := by
  have htxsym := s.encoded_txsymList
  rw [h] at htxsym
  simp [h, htxsym, EncodeStep.session]

/-- Settles O32: with no byte at or after the cursor the step is the ending alone (`encodeStep_noData`). -/
theorem encodeShortenedPayload : Obligations.EncodeShortenedPayload := by
  intro cfg s hv hphase hL hshort h1 h2
  have hstep : s.encodeStep = ⟨[s.tt.ending], .leader, 0, 0, true⟩ :=
    encodeStep_noData _ _ h1 (by rw [hphase]; decide) fun _ => by rwa [Block.payloadList_length]
  exact ⟨_, exec_encode_eq_encoded hv hL h1 h2, Block.encoded_of_encodeStep hstep⟩

/-- Settles O31: the three steps of an empty frame (`encodeStep_leaderEnding`, `encodeStep_leaderAlone`,
`encodeStep_noData`). -/
theorem encodeEmptyPayload : Obligations.EncodeEmptyPayload := by
  intro cfg s hp hv h0 hsession
  have hL : s.arg0.toNat ≤ cfg.payloadMax := by rw [h0]; exact Nat.zero_le _
  have hpayload : s.payloadList s.opLength = [] := by rw [Block.opLength, h0]; rfl
  refine ⟨fun h1 h2 => ?whole, fun h1 => ?sliced⟩
  case whole =>
    have hstep : s.encodeStep = ⟨[s.tt.leader, s.tt.ending], .leader, 0, 0, true⟩ := by
      rw [Block.encodeStep, hpayload, hsession]
      exact encodeStep_leaderEnding _ h1
    exact ⟨_, exec_encode_eq_encoded hv hL (by omega) h2, Block.encoded_of_encodeStep hstep⟩
  case sliced =>
    have hcap : s.arg1.toNat = 1 := by rw [h1]; rfl
    have hcap' : s.arg1.toNat ≤ cfg.txsymMax := by
      obtain ⟨-, -, -, -, -, -, ⟨htx, -⟩, -⟩ := paramsWf_iff.mp hp
      omega
    have hstep : s.encodeStep = ⟨[s.tt.leader], .ending, 0, 0, false⟩ := by
      rw [Block.encodeStep, hpayload, hsession, Block.opCapacity, hcap]
      exact encodeStep_leaderAlone _
    obtain ⟨hres0, hres1, htxsym, hending⟩ := Block.encoded_of_encodeStep hstep
    have hstep' : s.encoded.encodeStep = ⟨[s.tt.ending], .leader, 0, 0, true⟩ := by
      rw [← s.encoded_tt]
      exact encodeStep_noData _ _ (by simp [Block.opCapacity, hcap]) (by rw [hending]; nofun) (by rw [hending]; nofun)
    obtain ⟨hres0', hres1', htxsym', hleader⟩ := Block.encoded_of_encodeStep hstep'
    exact ⟨s.encoded, s.encoded.encoded, exec_encode_eq_encoded hv hL (by omega) hcap', hres0, hres1, htxsym, hending,
      exec_encode_eq_encoded (by simpa) (by simpa) (by simp [hcap]) (by simpa), hres0', hres1', htxsym', hleader⟩

/-- The last element of a list of symbols in TXSYM. -/
theorem Block.txsym_of_txsymList_concat {s : Block cfg} {ss : List Word} {w : Word}
    (h : s.txsymList (ss ++ [w]).length = ss ++ [w]) : s.txsym ss.length = w := by
  have hget := congrArg (·[ss.length]?) h
  simpa [Block.txsymList] using hget

/-- Settles O33: an ENCODE that emits completes its frame or leaves it under way
(`encodeStep_completeOrUnderWay`), and one that does not emit does not end OK (`exec_encode_encoded_or_kept`). -/
theorem frameCompleteMeansEndingSent : Obligations.FrameCompleteMeansEndingSent := by
  intro cfg s t h
  rcases exec_encode_encoded_or_kept h with ⟨hc, rfl⟩ | ⟨hcode, hres1, -⟩
  · have hlen := s.encoded_res0_toNat hc
    rcases encodeStep_completeOrUnderWay s.tt (s.payloadList s.opLength) s.opCapacity s.session with
      ⟨ss, hstep⟩ | ⟨ss, ph, pc, bc, hph, hstep⟩
    · obtain ⟨-, hres1, htxsym, hsession⟩ := Block.encoded_of_encodeStep hstep
      rw [Block.encodeStep, hstep, List.length_append] at hlen
      refine ⟨fun _ => ⟨?_, ?_, hsession⟩, fun hne => absurd hres1 hne⟩
      · rw [hlen]; exact Nat.le_add_left _ _
      · rw [hlen]; exact Block.txsym_of_txsymList_concat htxsym
    · obtain ⟨-, hres1, -, hsession⟩ := Block.encoded_of_encodeStep hstep
      exact ⟨fun hone => absurd (hres1.symm.trans hone) (by decide), fun _ => ⟨hres1, fun _ => by rwa [hsession]⟩⟩
  · exact ⟨fun hone => absurd (hres1.symm.trans hone) (by decide), fun _ => ⟨hres1, fun hok => absurd hok hcode⟩⟩

/-! ### Frames are not cancelled -/

/-- Of the commands only an ENCODE that completes the frame takes a frame under way back to Leader (41_encoder R161). -/
theorem exec_back_to_leader {i : Instr} {s t : Block cfg} (hv : s.ttValid = true)
    (h : exec i ⟨cfg, s⟩ = .next ⟨cfg, t⟩) (hs : s.session.phase ≠ .leader) (ht : t.session.phase = .leader) :
    i = .encode ∧ t.code = .ok ∧ t.res1 = 1 := by
  have kept : t.session = s.session → False := fun heq => hs (heq ▸ ht)
  cases i with
  | encode =>
    rcases exec_encode_encoded_or_kept h with ⟨-, rfl⟩ | ⟨-, -, heq⟩
    · refine ⟨rfl, rfl, ?_⟩
      by_contra hne
      exact ((frameCompleteMeansEndingSent cfg s _ h).2 hne).2 rfl ht
    · exact (kept heq).elim
  | chanInit =>
    rcases execChanInit_cases s with ⟨_, h'⟩ | ⟨hv', _⟩ | ⟨hv', _⟩
    · rw [h'] at h; cases h; exact (kept rfl).elim
    all_goals cases hv.symm.trans hv'
  | decode => exact (kept (by rw [(execDecode_frame h).1])).elim
  | shotBuild => exact (kept (by rw [(execShotBuild_frame h).1])).elim
  | shotClassify => exact (kept (by rw [execShotClassify_frame h])).elim

/-- Settles O34: a frame under way means a table is built, so of all accesses but power-on only a command could move the
session, and of the commands only a completing ENCODE does (`exec_back_to_leader`). -/
theorem frameNeverCancelled : Obligations.FrameNeverCancelled := by
  rintro cfg s t ⟨-, -, ⟨-, -, hnone⟩, -⟩ hphase hpor hs ht
  have hv : s.ttValid = true := Bool.eq_true_of_not_eq_false fun h => hphase (hnone h)
  rcases step_cases hs with ⟨-, rfl⟩ | ⟨h, rest, hq, hserve⟩
  · exact absurd ht hphase
  rcases serve_cases _ _ _ hserve with ⟨_, _, _, _, rfl⟩ | ⟨_, i, rfl, hd, hx⟩ | ⟨_, _, _, _, rfl⟩ |
    ⟨_, _, r, _, _, _, _, rfl⟩ | ⟨_, _, _, _, _, rfl⟩ | ⟨rfl, _⟩
  case inl => exact absurd ht hphase
  case inr.inl =>
    obtain ⟨rfl, hcode, hres1⟩ := exec_back_to_leader (s := { s with queue := rest }) hv hx hphase ht
    rw [decodeCommand_eq_ok.mp hd] at hq
    exact ⟨⟨rest, hq⟩, hcode, hres1⟩
  case inr.inr.inl => exact absurd ht hphase
  case inr.inr.inr.inl => cases r <;> exact absurd ht hphase
  case inr.inr.inr.inr.inl => exact absurd ht (by simpa using hphase)
  case inr.inr.inr.inr.inr => exact absurd (congrArg List.head? hq) hpor

end Sys2Proof.Machine
end

section
/-! ENCODE by frame positions: one slice of a frame (41_encoder R155), and the runs of ENCODE commands that send it, with
any capacities (R162) and with a constant one (R163). -/

namespace Sys2Proof.Machine

variable {cfg : Config.Params}

/-! ### One slice -/

/-- A flag as a word, from what it says (10_state R26). -/
theorem flagWord_eq_ite {b : Bool} {P : Prop} [Decidable P] (h : b = true ↔ P) : flagWord b = if P then 1 else 0 := by
  simp only [flagWord, h]

/-- One ENCODE in the position form, for the block it is issued in (41_encoder R155). -/
theorem Block.encodeStep_pos {s : Block cfg} (hL : s.arg0.toNat ≤ cfg.payloadMax) (h1 : 1 ≤ s.arg1.toNat)
    (hleader : s.session.phase = .leader → s.session.pcur = 0 ∧ s.session.bcur = 0)
    (hdata : s.session.phase = .data → s.session.pcur.val ≤ s.arg0.toNat)
    (hpos : framePos s.arg0.toNat s.session < 2 + 8 * s.arg0.toNat) :
    s.encodeStep.syms =
        ((frame s.tt (s.payloadList s.arg0.toNat)).drop (framePos s.arg0.toNat s.session)).take s.arg1.toNat ∧
      (s.encodeStep.complete = true ↔ 2 + 8 * s.arg0.toNat ≤ framePos s.arg0.toNat s.session + s.arg1.toNat) ∧
      (s.encodeStep.complete = true → framePos s.arg0.toNat s.encoded.session = 0) ∧
      (s.encodeStep.complete = false →
        framePos s.arg0.toNat s.encoded.session = framePos s.arg0.toNat s.session + s.arg1.toNat) ∧
      (s.encoded.session.phase = .data → s.encoded.session.pcur.val < s.arg0.toNat) ∧
      (s.encoded.session.phase = .leader → s.encoded.session.pcur = 0 ∧ s.encoded.session.bcur = 0) ∧
      (s.encoded.session.phase = .ending → s.encoded.session.bcur = 0) := by
  have hlen := s.payloadList_length s.arg0.toNat
  have hstep := Sys2Proof.Machine.encodeStep_pos s.tt (s.payloadList s.arg0.toNat) s.arg1.toNat s.session h1
    (hlen.symm ▸ hL) hleader (hlen.symm ▸ hdata) (hlen.symm ▸ hpos)
  rw [s.encoded_session]
  simp only [hlen] at hstep
  exact hstep

/-- Settles O28: on lists the step is the position form (`Block.encodeStep_pos`), what is written to TXSYM is what it
emits (`Block.encoded_txsymList`), and nothing else changes (`execEncode_frame`). -/
theorem encodePositionForm : Obligations.EncodePositionForm := by
  intro cfg s hv hL h1 h2 ⟨hleader, _, _⟩ hdata hpos
  obtain ⟨hsyms, hcomplete, hback, hon, hdata', hleader', hending'⟩ := Block.encodeStep_pos hL h1 hleader hdata hpos
  have hexec := exec_encode_eq_encoded hv hL h1 h2
  obtain ⟨hframe, hbytes⟩ := execEncode_frame hexec
  have hres0 := s.encoded_res0_toNat h1
  have hcount : s.encodeStep.syms.length =
      min s.arg1.toNat (2 + 8 * s.arg0.toNat - framePos s.arg0.toNat s.session) := by
    rw [hsyms, List.length_take, List.length_drop, frame_length, Block.payloadList_length]
  have hreach : s.encodeStep.complete = true ↔
      framePos s.arg0.toNat s.session + s.encodeStep.syms.length = 2 + 8 * s.arg0.toNat :=
    hcomplete.trans (by omega)
  refine ⟨s.encoded, hexec, hres0.trans hcount, ?symbols, ?flag, ?position, hdata', ⟨hleader', hending', ?table⟩,
    hframe, hbytes⟩
  case symbols =>
    rw [hres0, s.encoded_txsymList, hcount, hsyms, List.take_eq_take_iff, List.length_drop, frame_length,
      Block.payloadList_length]
    omega
  case flag => rw [hres0]; exact flagWord_eq_ite hreach
  case position =>
    rw [hres0]
    split
    case isTrue hend => exact hback (hreach.mpr hend)
    case isFalse hshort =>
      rw [hon (Bool.eq_false_iff.mpr fun h => hshort (hreach.mp h))]
      omega
  case table => exact fun h => absurd ((hv.symm.trans s.encoded_ttValid.symm).trans h) (by decide)

/-! ### A frame being sent -/

/-- The block is at position `pos` of sending the frame of `p` under table `t`: `p` stands in PAYLOAD, its length in
ARG0, and the session is legal and at that position (41_encoder R155). -/
structure Block.Sends (s : Block cfg) (t : TimingTable cfg) (p : List Byte) (pos : Nat) : Prop where
  valid : s.ttValid = true
  table : s.tt = t
  length : s.arg0.toNat = p.length
  payload : s.payloadList p.length = p
  fits : p.length ≤ cfg.payloadMax
  legal : s.sessionInv
  data : s.session.phase = .data → s.session.pcur.val ≤ p.length
  position : framePos p.length s.session = pos
  inFrame : pos < 2 + 8 * p.length

/-- ENCODE stores nothing below TXSYM, so PAYLOAD stays (20_memory R62). -/
theorem execEncode_payloadList {s t : Block cfg} (hp : cfg.wf = true) (h : exec .encode ⟨cfg, s⟩ = .next ⟨cfg, t⟩)
    {n : Nat} (hn : n ≤ cfg.payloadMax) : t.payloadList n = s.payloadList n := by
  obtain ⟨-, -, -, -, ⟨-, hmax, -⟩, -⟩ := paramsWf_iff.mp hp
  refine List.map_congr_left fun i hi => (execEncode_frame h).2 _ (.inl ?_)
  have := List.mem_range.mp hi
  simp only [payloadBase]
  omega

section
variable {s : Block cfg} {t : TimingTable cfg} {p : List Byte} {pos : Nat}

/-- A block at the start of a frame sends it from position 0. -/
theorem Block.Sends.ofLeader (hv : s.ttValid = true) (hL : s.arg0.toNat ≤ cfg.payloadMax)
    (hsession : s.session = ⟨.leader, 0, 0⟩) : s.Sends s.tt (s.payloadList s.arg0.toNat) 0 where
  valid := hv
  table := rfl
  length := (s.payloadList_length _).symm
  payload := by rw [Block.payloadList_length]
  fits := by rwa [Block.payloadList_length]
  legal := by simp [Block.sessionInv, hsession]
  data := by simp [hsession]
  position := by simp [framePos, hsession]
  inFrame := by omega

/-- Position 0 is the Leader phase, whose cursors are 0 (10_state R32). -/
theorem Block.Sends.session_eq_leader (h : s.Sends t p 0) : s.session = ⟨.leader, 0, 0⟩ := by
  obtain ⟨hleader, -, -⟩ := h.legal
  have hpos := h.position
  generalize s.session = e at hleader hpos
  obtain ⟨ph, pc, bc⟩ := e
  cases ph with
  | leader => obtain ⟨rfl, rfl⟩ := hleader rfl; rfl
  | data => simp only [framePos] at hpos; omega
  | ending => simp only [framePos] at hpos; omega

/-- Where the frame stands does not depend on the capacity in ARG1. -/
theorem Block.Sends.withCapacity (h : s.Sends t p pos) (c : Word) : { s with arg1 := c }.Sends t p pos :=
  ⟨h.valid, h.table, h.length, h.payload, h.fits, h.legal, h.data, h.position, h.inFrame⟩

/-- Nor on the write-back of a command (30_encoding R94). -/
theorem Block.Sends.finish (h : s.Sends t p pos) (op : Byte) (c : StatusCode) (r0 r1 : Word) :
    (s.finish op c r0 r1).Sends t p pos :=
  ⟨h.valid, h.table, h.length, h.payload, h.fits, h.legal, h.data, h.position, h.inFrame⟩

/-- What an ENCODE of capacity `c`, issued at position `pos` of the frame of `p`, leaves: it has emitted the next `c`
symbols, or what was left of the frame, and goes on to the next position, or back to 0 (41_encoder R154, R155). -/
structure Block.SentSlice (u : Block cfg) (t : TimingTable cfg) (p : List Byte) (pos c : Nat) : Prop where
  count : u.res0.toNat = min c (2 + 8 * p.length - pos)
  symbols : u.txsymList u.res0.toNat = ((frame t p).drop pos).take c
  code : 1 ≤ c → u.code = .ok
  flag : u.res1 = if 2 + 8 * p.length ≤ pos + c then 1 else 0
  sends : u.Sends t p (if 2 + 8 * p.length ≤ pos + c then 0 else pos + c)

/-- One ENCODE with capacity emits its slice (41_encoder R155). -/
theorem Block.Sends.exec_encode (hp : cfg.wf = true) (h : s.Sends t p pos) (h1 : 1 ≤ s.arg1.toNat)
    (h2 : s.arg1.toNat ≤ cfg.txsymMax) :
    ∃ u : Block cfg, exec .encode ⟨cfg, s⟩ = .next ⟨cfg, u⟩ ∧ u.SentSlice t p pos s.arg1.toNat := by
  have hin := h.inFrame
  obtain ⟨u, hexec, hcount, hsyms, hflag, hpos, hdata, hlegal, hframe, -⟩ :=
    encodePositionForm cfg s h.valid (h.length ▸ h.fits) h1 h2 h.legal (h.length ▸ h.data)
      (by rwa [h.length, h.position])
  simp only [h.length, h.position, h.payload, h.table] at hcount hsyms hflag hpos hdata
  obtain ⟨-, -, harg0, -⟩ := exec_common hexec
  obtain ⟨hv', htt', -⟩ := exec_keeps_table h.valid hexec
  have hreach : pos + u.res0.toNat = 2 + 8 * p.length ↔ 2 + 8 * p.length ≤ pos + s.arg1.toNat := by omega
  refine ⟨u, hexec, hcount, ?symbols, fun _ => ?code, ?flag, ?sends⟩
  case symbols =>
    rw [hsyms, hcount, List.take_eq_take_iff, List.length_drop, frame_length]
    omega
  case code => exact congrArg Block.code hframe
  case flag => simpa only [hreach] using hflag
  case sends =>
    refine ⟨hv', htt'.trans h.table, harg0 ▸ h.length, ?_, h.fits, hlegal, fun hd => (hdata hd).le, ?_, ?_⟩
    · rw [execEncode_payloadList hp hexec h.fits, h.payload]
    · rw [hpos]; split <;> split <;> omega
    · split <;> omega

/-- So does any ENCODE, one with capacity 0 among them, which emits nothing and stays where it is (41_encoder R154). -/
theorem Block.Sends.exec_encode_withCapacity (hp : cfg.wf = true) (h : s.Sends t p pos) {c : Word}
    (hc : c.toNat ≤ cfg.txsymMax) :
    ∃ u : Block cfg, exec .encode ⟨cfg, { s with arg1 := c }⟩ = .next ⟨cfg, u⟩ ∧ u.SentSlice t p pos c.toNat := by
  rcases Nat.eq_zero_or_pos c.toNat with h0 | h1
  · have hlate : ¬ 2 + 8 * p.length ≤ pos + 0 := Nat.not_le_of_lt h.inFrame
    rw [h0]
    refine ⟨_, exec_encode_starved h.valid (h.length ▸ h.fits) (BitVec.eq_of_toNat_eq h0),
      (Nat.zero_min _).symm, rfl, nofun, ?_, ?_⟩
    · rw [if_neg hlate]; rfl
    · rw [if_neg hlate]; exact (h.withCapacity c).finish _ _ _ _
  · exact (h.withCapacity c).exec_encode hp h1 hc

end

/-! ### Runs -/

/-- A run of one command and more is the command and the run from what it leaves. -/
theorem encodeRun_cons {s t : State} {c : Word} (h : exec .encode ⟨s.params, { s.block with arg1 := c }⟩ = .next t)
    (cs : List Word) :
    encodeRun (c :: cs) s = (encodeRun cs t).map fun r => (t.block.txsymList t.block.res0.toNat ++ r.1, r.2) := by
  rw [encodeRun, h]

/-- The symbols for which there is room in some commands together. -/
def totalCapacity (cs : List Word) : Nat := (cs.map BitVec.toNat).sum

@[simp] theorem totalCapacity_nil : totalCapacity [] = 0 := rfl

@[simp] theorem totalCapacity_cons (c : Word) (cs : List Word) :
    totalCapacity (c :: cs) = c.toNat + totalCapacity cs := rfl

@[simp] theorem totalCapacity_concat (cs : List Word) (c : Word) :
    totalCapacity (cs ++ [c]) = totalCapacity cs + c.toNat := by
  simp [totalCapacity]

@[simp] theorem totalCapacity_replicate (k : Nat) (c : Word) : totalCapacity (List.replicate k c) = k * c.toNat := by
  simp [totalCapacity]

/-- Commands that have together no room for the rest of the frame, and then one more: they emit the next symbols of the
frame, as many as there is room for, and the last command completes it exactly when there is room for all of it. By
induction on the commands before the last (41_encoder R162). -/
theorem Block.Sends.encodeRun_concat (hp : cfg.wf = true) {s : Block cfg} {t : TimingTable cfg} {p : List Byte}
    {pos : Nat} (h : s.Sends t p pos) {cs : List Word} {c : Word} (hcap : ∀ d ∈ cs ++ [c], d.toNat ≤ cfg.txsymMax)
    (hroom : pos + totalCapacity cs < 2 + 8 * p.length) :
    ∃ u : Block cfg, encodeRun (cs ++ [c]) ⟨cfg, s⟩ =
        some (((frame t p).drop pos).take (totalCapacity (cs ++ [c])), ⟨cfg, u⟩) ∧
      (1 ≤ c.toNat → u.code = .ok) ∧
      u.res1 = (if 2 + 8 * p.length ≤ pos + totalCapacity (cs ++ [c]) then 1 else 0) ∧
      (u.res1 = 1 → u.session = ⟨.leader, 0, 0⟩) := by
  induction cs generalizing s pos with
  | nil =>
    obtain ⟨u, hexec, hsent⟩ := h.exec_encode_withCapacity hp (hcap c (by simp))
    refine ⟨u, ?_, hsent.code, hsent.flag, fun hone => ?_⟩
    · rw [List.nil_append, encodeRun_cons hexec, hsent.symbols]
      simp [encodeRun]
    · have hflag := hsent.flag
      have hsends := hsent.sends
      split at hflag
      · rw [if_pos ‹_›] at hsends; exact hsends.session_eq_leader
      · exact absurd (hone.symm.trans hflag) (by decide)
  | cons d cs ih =>
    rw [List.cons_append, List.forall_mem_cons] at hcap
    rw [totalCapacity_cons] at hroom
    obtain ⟨v, hexec, hsent⟩ := h.exec_encode_withCapacity hp hcap.1
    have hsends := hsent.sends
    rw [if_neg (by omega)] at hsends
    obtain ⟨u, hrun, hcode, hflag, hsession⟩ := ih hsends hcap.2 (by omega)
    refine ⟨u, ?_, hcode, ?_, hsession⟩
    · rw [List.cons_append, encodeRun_cons hexec, hrun, hsent.symbols, totalCapacity_cons, List.take_add,
        List.drop_drop]
      rfl
    · rw [hflag, List.cons_append, totalCapacity_cons, Nat.add_assoc]

/-- Commands none of which has completed the frame had together no room for all of it (41_encoder R162). -/
theorem Block.Sends.totalCapacity_lt (hp : cfg.wf = true) {s : Block cfg} {t : TimingTable cfg} {p : List Byte}
    (h : s.Sends t p 0) {cs : List Word} (hcap : ∀ d ∈ cs, d.toNat ≤ cfg.txsymMax)
    (hopen : ∀ k, 1 ≤ k → k ≤ cs.length →
      ∃ out u, encodeRun (cs.take k) ⟨cfg, s⟩ = some (out, ⟨cfg, u⟩) ∧ u.res1 = 0) :
    totalCapacity cs < 2 + 8 * p.length := by
  induction cs using List.reverseRecOn with
  | nil => exact h.inFrame
  | append_singleton cs c ih =>
    have hbefore : totalCapacity cs < 2 + 8 * p.length := by
      refine ih (fun d hd => hcap d (List.mem_append_left _ hd)) fun k h1 hk => ?_
      have hrun := hopen k h1 (hk.trans (by simp))
      rwa [List.take_append_of_le_length hk] at hrun
    obtain ⟨u, hrun, -, hflag, -⟩ := h.encodeRun_concat hp hcap (by rwa [Nat.zero_add])
    obtain ⟨out, u', hrun', hzero⟩ := hopen (cs ++ [c]).length (by simp) (Nat.le_refl _)
    rw [List.take_length] at hrun'
    obtain ⟨-, rfl⟩ : _ ∧ u = u' := by simpa using hrun.symm.trans hrun'
    by_contra hfull
    rw [if_pos (by omega), hzero] at hflag
    exact absurd hflag (by decide)

/-- Commands that reach the end of the frame with the last of them emit the frame, complete it, and leave the session at
its start (41_encoder R162). -/
theorem Block.Sends.encodeRun_whole (hp : cfg.wf = true) {s : Block cfg} {t : TimingTable cfg} {p : List Byte}
    (h : s.Sends t p 0) {cs : List Word} {c : Word} (hcap : ∀ d ∈ cs ++ [c], d.toNat ≤ cfg.txsymMax)
    (hroom : totalCapacity cs < 2 + 8 * p.length) (hfull : 2 + 8 * p.length ≤ totalCapacity (cs ++ [c])) :
    ∃ u : Block cfg, encodeRun (cs ++ [c]) ⟨cfg, s⟩ = some (frame t p, ⟨cfg, u⟩) ∧ u.res1 = 1 ∧
      u.session = ⟨.leader, 0, 0⟩ := by
  obtain ⟨u, hrun, -, hflag, hback⟩ := h.encodeRun_concat hp hcap (by rwa [Nat.zero_add])
  rw [Nat.zero_add, if_pos hfull] at hflag
  rw [List.drop_zero, List.take_of_length_le (by rwa [frame_length])] at hrun
  exact ⟨u, hrun, hflag, hback hflag⟩

/-- Settles O29: the commands before the last have no room for the whole frame (`Block.Sends.totalCapacity_lt`), with the
last, which completes it, they have, and so they emit it (`Block.Sends.encodeRun_whole`). -/
theorem encodeResumable : Obligations.EncodeResumable := by
  intro cfg s cs c hp hv hL hsession hcap hopen out t hrun hone
  have hsends := Block.Sends.ofLeader hv hL hsession
  have hroom := hsends.totalCapacity_lt hp (fun d hd => hcap d (List.mem_append_left _ hd)) hopen
  have hfull : 2 + 8 * (s.payloadList s.arg0.toNat).length ≤ totalCapacity (cs ++ [c]) := by
    obtain ⟨u, hrun', -, hflag, -⟩ := hsends.encodeRun_concat hp hcap (by rwa [Nat.zero_add])
    obtain ⟨-, rfl⟩ : _ ∧ u = t := by simpa using hrun'.symm.trans hrun
    by_contra hshort
    rw [if_neg (by rwa [Nat.zero_add]), hone] at hflag
    exact absurd hflag (by decide)
  obtain ⟨u, hrun', -, hback⟩ := hsends.encodeRun_whole hp hcap hroom hfull
  obtain ⟨rfl, rfl⟩ : frame _ _ = out ∧ u = t := by simpa using hrun'.symm.trans hrun
  refine ⟨rfl, hback, fun d hd hdcap => ?_⟩
  obtain ⟨v, hrun1, hone1, -⟩ :=
    hsends.encodeRun_whole hp (cs := []) (c := d) (by simpa using hdcap) (by simp) (by simpa using hd)
  exact ⟨v, hrun1, hone1⟩

/-- Fewer than `⌈n / c⌉` times `c` stays below `n`. -/
theorem mul_lt_of_lt_ceil {n c k : Nat} (hc : 1 ≤ c) (hk : k < (n + (c - 1)) / c) : k * c < n := by
  have := (Nat.le_div_iff_mul_le hc).mp (Nat.succ_le_of_lt hk)
  rw [Nat.succ_mul] at this
  omega

/-- Of the numbers up to `⌈n / c⌉` only that one times `c` reaches `n`. -/
theorem le_mul_iff_eq_ceil {n c k : Nat} (hc : 1 ≤ c) (hk : k ≤ (n + (c - 1)) / c) :
    n ≤ k * c ↔ k = (n + (c - 1)) / c := by
  constructor
  · intro hreach
    by_contra hne
    exact Nat.not_le_of_lt (mul_lt_of_lt_ceil hc (Nat.lt_of_le_of_ne hk hne)) hreach
  · rintro rfl
    have := Nat.lt_mul_div_succ (n + (c - 1)) hc
    rw [Nat.mul_comm, Nat.succ_mul] at this
    omega

/-- Settles O30: `k` commands have room for `k * C` symbols, which reaches the frame's length for the first time at the
quotient rounded up (`Block.Sends.encodeRun_concat`, `le_mul_iff_eq_ceil`). -/
theorem encodeCallCount : Obligations.EncodeCallCount := by
  intro cfg s c hp hv hL hsession h1 hc k hk hle
  obtain ⟨j, rfl⟩ := Nat.exists_eq_add_of_le' hk
  have hsends := Block.Sends.ofLeader hv hL hsession
  have hcap : ∀ d ∈ List.replicate j c ++ [c], d.toNat ≤ cfg.txsymMax := by
    rw [← List.replicate_succ']
    exact fun d hd => (List.eq_of_mem_replicate hd) ▸ hc
  have hroom : totalCapacity (List.replicate j c) < 2 + 8 * s.arg0.toNat := by
    rw [totalCapacity_replicate]
    exact mul_lt_of_lt_ceil h1 hle
  obtain ⟨u, hrun, hcode, hflag, -⟩ :=
    hsends.encodeRun_concat hp hcap (by rwa [Nat.zero_add, Block.payloadList_length])
  rw [← List.replicate_succ'] at hrun hflag
  rw [totalCapacity_replicate, Block.payloadList_length, Nat.zero_add] at hflag
  exact ⟨_, u, hrun, hcode h1, hflag.trans (if_congr (le_mul_iff_eq_ceil h1 hle) rfl rfl)⟩

end Sys2Proof.Machine
end

section
/-! The link from SHOT_BUILD to SHOT_CLASSIFY (43_shot R211, R213, 41_encoder R155, 42_decoder R191). -/

namespace Sys2Proof.Machine

variable {cfg : Config.Params}

/-! ### The sender -/

/-- After a SHOT_BUILD the frame of SEQ_TX stands in PAYLOAD (43_shot R211). -/
theorem execShotBuild_payloadList {s t : Block cfg} (h : exec .shotBuild ⟨cfg, s⟩ = .next ⟨cfg, t⟩) :
    t.payloadList Config.shotLen = shotBytes s.seqTx := by
  rw [execShotBuild_eq] at h
  cases h
  exact Block.map_byteAt_setBytes _ payloadBase (shotBytes s.seqTx)

/-- A block that has built its shot, with the operands of the ENCODE that is to send it, is at the start of the shot's
frame. -/
theorem Block.Sends.ofShotBuild {s t : Block cfg} (hs : s.Inv) (hv : s.ttValid = true)
    (hleader : s.session.phase = .leader) (h : exec .shotBuild ⟨cfg, s⟩ = .next ⟨cfg, t⟩) (c : Word) :
    { t with arg0 := 7, arg1 := c }.Sends s.tt (shotBytes s.seqTx) 0 := by
  obtain ⟨hp, -, hsession, -⟩ := hs
  obtain ⟨hv', htt, -⟩ := exec_keeps_table hv h
  have hsame : t.session = s.session := by rw [(execShotBuild_frame h).1]
  obtain ⟨-, -, -, -, ⟨hmax, -⟩, -⟩ := paramsWf_iff.mp hp
  have hpayload : t.payloadList Config.shotLen = shotBytes s.seqTx := execShotBuild_payloadList h
  exact {
    valid := hv'
    table := htt
    length := rfl
    payload := hpayload
    fits := hmax
    legal := by simpa only [Block.sessionInv, hsame, hv, hv'] using hsession
    data := by rw [hsame, hleader]; nofun
    position := by simp [framePos, hsame, hleader]
    inFrame := Nat.zero_lt_succ _ }

/-! ### The receiver -/

/-- The burst of a frame under a valid table decodes to its payload (42_decoder R191 (a)). -/
theorem decodeBurst_frame {s : Block cfg} (hp : cfg.wf = true) (h : s.tableInv) (hv : s.ttValid = true) {cap : Nat}
    {p : List Byte} (hcap : p.length ≤ cap) : decodeBurst s.tt cap (frame s.tt p) = .ok p := by
  refine (decodeBurst_eq_ok_iff_matches_frame hp h hv).mpr ⟨hcap, frame_length _ _, fun i x w hx hw => ?_⟩
  obtain rfl := Option.some.inj (hx.symm.trans hw)
  exact symbolMatches_self (Block.table_facts hp h hv).1

/-- A fresh decode of the frame of `seq` is a shot with that sequence number (43_shot R214, R215). -/
theorem Block.isShot_of_shotBytes {r : Block cfg} {seq : Word} (hfresh : r.dec.fresh = true)
    (hcount : r.dec.count.val = Config.shotLen) (hdest : r.destList Config.shotLen = shotBytes seq) :
    r.isShot = true ∧ r.destSeq = seq := by
  change [r.dest 0, r.dest 1, r.dest 2, r.dest 3, r.dest 4, r.dest 5, r.dest 6] = _ at hdest
  simp only [shotBytes, List.cons.injEq] at hdest
  obtain ⟨h0, h1, h2, h3, h4, h5, h6, -⟩ := hdest
  constructor
  · simp [Block.isShot, hfresh, hcount, h0, h1, h2]
  · rw [Block.destSeq, h3, h4, h5, h6, sequenceOctetsRoundTrip]

/-- DECODE of a burst that reads as the frame of `seq` leaves it fresh in DEST (42_decoder R188, R192). -/
theorem exec_decode_of_shotBytes {r : Block cfg} {seq : Word} (hv : r.ttValid = true) (hr : r.decodeInRange = true)
    (hburst : r.decodeBurst = .ok (shotBytes seq)) :
    ∃ u, exec .decode ⟨cfg, r⟩ = .next ⟨cfg, u⟩ ∧ u.code = .ok ∧ u.res0 = 7 ∧ u.seqNext = r.seqNext ∧
      u.isShot = true ∧ u.destSeq = seq := by
  have hlen : Config.shotLen ≤ cfg.destMax := Block.decodeBurst_length hr hburst
  refine ⟨_, exec_decode_ok hv hr hburst, rfl, rfl, ?_, Block.isShot_of_shotBytes ?_ ?_ ?_⟩
  · rw [Block.finish_seqNext, Block.commitDecode_eq]
  · rw [Block.finish_dec, Block.commitDecode_eq]; rfl
  · rw [Block.finish_dec, Block.commitDecode_eq]
    exact Nat.mod_eq_of_lt (Nat.lt_succ_of_le hlen)
  · exact r.commitDecode_destList (shotBytes seq)

/-- SHOT_CLASSIFY of a shot: HIT when it is the one expected, and else MISS (43_shot R213, R216, R217). -/
theorem exec_shotClassify_of_isShot {r : Block cfg} {seq : Word} (h : r.isShot = true ∧ r.destSeq = seq) :
    ∃ u, exec .shotClassify ⟨cfg, r⟩ = .next ⟨cfg, u⟩ ∧ u.res1 = seq ∧
      (r.seqNext = seq → u.res0 = 1 ∧ u.seqNext = r.seqNext + 1) ∧
      (r.seqNext ≠ seq → u.res0 = 2 ∧ u.seqNext = r.seqNext) := by
  obtain ⟨hshot, rfl⟩ := h
  refine ⟨_, execShotClassify_eq r, ?_⟩
  by_cases hexp : r.destSeq = r.seqNext
  · have hclass : r.shotClass = .hit := by rw [Block.shotClass, if_pos hshot, if_pos hexp]
    rw [hclass]
    exact ⟨rfl, fun _ => ⟨rfl, rfl⟩, fun hne => absurd hexp.symm hne⟩
  · have hclass : r.shotClass = .miss := by rw [Block.shotClass, if_pos hshot, if_neg hexp]
    rw [hclass]
    exact ⟨rfl, fun heq => absurd heq.symm hexp, fun _ => ⟨rfl, rfl⟩⟩

/-- Settles O51: the sender's one slice is the whole frame of its shot (`Block.Sends.exec_encode`), which the receiver
decodes to the shot's bytes (`decodeBurst_frame`) and classifies by the number in them
(`exec_shotClassify_of_isShot`). -/
theorem shotLinkEndToEnd : Obligations.ShotLinkEndToEnd := by
  intro cfg s c hs hv hleader h58 hc
  have ⟨hp, htable, _⟩ := hs
  obtain ⟨s1, hbuild⟩ := exec_next .shotBuild s
  obtain ⟨s2, hencode, hslice⟩ :=
    (Block.Sends.ofShotBuild hs hv hleader hbuild c).exec_encode hp (show 1 ≤ c.toNat by omega) hc
  have hframe : 2 + 8 * (shotBytes s.seqTx).length = 58 := rfl
  have hroom : 2 + 8 * (shotBytes s.seqTx).length ≤ 0 + c.toNat := by omega
  have hcount : s2.res0 = 58 := BitVec.eq_of_toNat_eq (hslice.count.trans (Nat.min_eq_right h58))
  have hsyms : s2.txsymList 58 = frame s.tt (shotBytes s.seqTx) := by
    have := hslice.symbols
    rwa [hcount, List.drop_zero, List.take_of_length_le (by rwa [frame_length, ← Nat.zero_add c.toNat])] at this
  refine ⟨s1, s2, hbuild, hencode, hcount, hslice.flag.trans (if_pos hroom), ?_⟩
  intro r hrv htt h0 h1 hdest hrx
  have hrange : r.decodeInRange = true := by
    obtain ⟨-, -, -, -, -, -, -, hrxsym, -⟩ := paramsWf_iff.mp hp
    exact r.decodeInRange_iff.mpr ⟨by rw [h0]; exact hrxsym, hdest⟩
  have hburst : r.decodeBurst = .ok (shotBytes s.seqTx) := by
    rw [Block.decodeBurst, Block.opSymbols, h0, htt]
    exact (congrArg _ (hrx.trans hsyms)).trans (decodeBurst_frame hp htable hv h1)
  obtain ⟨r1, hdecode, hcode, hseven, hnext, hshot⟩ := exec_decode_of_shotBytes hrv hrange hburst
  obtain ⟨r2, hclassify, hseq, hhit, hmiss⟩ := exec_shotClassify_of_isShot hshot
  rw [hnext] at hhit hmiss
  exact ⟨r1, r2, hdecode, hcode, hseven, hclassify, hseq, hhit, hmiss⟩

end Sys2Proof.Machine
end

section
/-! The outcome of one DECODE: its early errors, what it writes to DEST and to DEC_RESULT, and what decides it
(42_decoder R188, R190, R192, 60_exceptions R245, R246). -/

namespace Sys2Proof.Machine

variable {cfg : Config.Params}

/-! ### The block a DECODE leaves -/

/-- DECODE before a table is built (60_exceptions R245). -/
theorem exec_decode_notInit {s : Block cfg} (hv : s.ttValid = false) :
    exec .decode ⟨cfg, s⟩ = .next ⟨cfg, s.failDecode 0x03 .notInit⟩ := by
  rcases execDecode_cases s with ⟨_, h⟩ | ⟨h, _⟩ | ⟨_, h, _⟩ | ⟨_, h, _⟩
  case inl => exact h
  all_goals cases hv.symm.trans h

/-- DECODE with an operand beyond its buffer (60_exceptions R245, 30_encoding R93). -/
theorem exec_decode_argRange {s : Block cfg} (hv : s.ttValid = true) (hr : s.decodeInRange = false) :
    exec .decode ⟨cfg, s⟩ = .next ⟨cfg, s.failDecode 0x03 .argRange⟩ := by
  rcases execDecode_cases s with ⟨h, _⟩ | ⟨_, _, h⟩ | ⟨_, _, h, _⟩ | ⟨_, _, h, _⟩
  case inl => cases hv.symm.trans h
  case inr.inl => exact h
  all_goals cases hr.symm.trans h

/-- The block after a DECODE that reads its burst as the bytes `bs` (42_decoder R180). -/
def Block.decoded (s : Block cfg) (bs : List Byte) : Block cfg :=
  (s.commitDecode bs).finish 0x03 (decodeCode bs.length) (BitVec.ofNat 32 bs.length) 0

/-- The code of a successful decode is no error (60_exceptions R240). -/
theorem decodeCode_isError (k : Nat) : (decodeCode k).isError = false := by
  unfold decodeCode
  split <;> rfl

/-- It is OK or EMPTY_FRAME (42_decoder R189). -/
theorem decodeCode_eq_ok_or_emptyFrame (k : Nat) : decodeCode k = .ok ∨ decodeCode k = .emptyFrame := by
  unfold decodeCode
  split <;> simp

section
variable (s : Block cfg) (bs : List Byte)

theorem Block.decoded_eq :
    s.decoded bs = { s with
      res0 := BitVec.ofNat 32 bs.length, res1 := 0, code := decodeCode bs.length, lastOp := 0x03,
      mem := (s.decoded bs).mem, dec := ⟨Fin.ofNat _ bs.length, decodeCode bs.length, 1 ≤ bs.length⟩ } := by
  unfold Block.decoded
  rw [Block.commitDecode_eq]
  rfl

theorem Block.decoded_destList : (s.decoded bs).destList bs.length = bs := s.commitDecode_destList bs

theorem Block.decoded_byteAt_other {a : Nat} (h : a < 0x800 ∨ 0x800 + bs.length ≤ a) :
    (s.decoded bs).byteAt a = s.byteAt a := s.commitDecode_byteAt_other bs h

end

section
variable {s : Block cfg} {bs : List Byte}

theorem exec_decode_eq_decoded (hv : s.ttValid = true) (hr : s.decodeInRange = true) (h : s.decodeBurst = .ok bs) :
    exec .decode ⟨cfg, s⟩ = .next ⟨cfg, s.decoded bs⟩ := exec_decode_ok hv hr h

/-- RES0 counts the bytes of a successful decode (42_decoder R180). -/
theorem Block.decoded_res0_toNat (h : s.decodeBurst = .ok bs) : (s.decoded bs).res0.toNat = bs.length :=
  ofNat_toNat_of_lt (Block.decodeBurst_length_lt h)

/-- So does DEC_COUNT, which they fit (42_decoder R192). -/
theorem Block.decoded_count (hr : s.decodeInRange = true) (h : s.decodeBurst = .ok bs) :
    (s.decoded bs).dec.count.val = bs.length :=
  Nat.mod_eq_of_lt (Nat.lt_succ_of_le (Block.decodeBurst_length hr h))

/-- A DECODE fails with an error code, which it writes to DEC_RESULT too, or leaves the bytes it read. -/
theorem exec_decode_failed_or_decoded {t : Block cfg} (h : exec .decode ⟨cfg, s⟩ = .next ⟨cfg, t⟩) :
    (∃ e, e.isError = true ∧ t = s.failDecode 0x03 e) ∨
      ∃ bs, s.ttValid = true ∧ s.decodeInRange = true ∧ s.decodeBurst = .ok bs ∧ t = s.decoded bs := by
  rcases execDecode_cases s with ⟨_, h'⟩ | ⟨_, _, h'⟩ | ⟨e, _, _, hb, h'⟩ | ⟨bs, hv, hr, hb, h'⟩ <;>
    (rw [h'] at h; cases h)
  · exact .inl ⟨_, rfl, rfl⟩
  · exact .inl ⟨_, rfl, rfl⟩
  · exact .inl ⟨e, Block.decodeBurst_isError hb, rfl⟩
  · exact .inr ⟨bs, hv, hr, hb, rfl⟩

end

/-! ### What it writes -/

/-- Settles O42: a DECODE stores only what it commits (`execDecode_frame`), and a failing one nothing. -/
theorem decodeAllOrNothing : Obligations.DecodeAllOrNothing := by
  intro cfg s t h
  refine ⟨fun _ => (execDecode_frame h).2, fun hok hempty => ?failed⟩
  case failed =>
    rcases exec_decode_failed_or_decoded h with ⟨e, _, rfl⟩ | ⟨bs, _, _, _, rfl⟩
    · exact ⟨rfl, fun _ => rfl⟩
    · exact absurd (decodeCode_eq_ok_or_emptyFrame bs.length) (not_or.mpr ⟨hok, hempty⟩)

/-- A DECODE describes its outcome in DEC_RESULT (42_decoder R192). -/
theorem exec_decode_dec {s t : Block cfg} (h : exec .decode ⟨cfg, s⟩ = .next ⟨cfg, t⟩) :
    t.dec.code = t.code ∧ (t.code.isError = true → t.dec.count = 0 ∧ t.dec.fresh = false) ∧
      (t.code.isError = false → t.dec.count.val = t.res0.toNat ∧ t.dec.fresh = decide (1 ≤ t.res0.toNat)) := by
  rcases exec_decode_failed_or_decoded h with ⟨e, he, rfl⟩ | ⟨bs, _, hr, hb, rfl⟩
  · exact ⟨rfl, fun _ => ⟨rfl, rfl⟩, fun hne => by cases hne.symm.trans he⟩
  · refine ⟨rfl, fun he => absurd he (Bool.eq_false_iff.mp (decodeCode_isError _)), fun _ => ?_⟩
    rw [Block.decoded_res0_toNat hb, Block.decoded_count hr hb]
    exact ⟨rfl, rfl⟩

/-- Settles O43: DECODE by `exec_decode_dec`, the other commands by their frames. -/
theorem decodeWritesDecResult : Obligations.DecodeWritesDecResult := by
  refine ⟨fun _ _ _ => exec_decode_dec, fun cfg i s t hi h => ?others⟩
  case others =>
    cases i with
    | decode => exact absurd rfl hi
    | chanInit => rw [execChanInit_frame h]; exact ⟨rfl, rfl, fun _ => rfl⟩
    | encode => rw [(execEncode_frame h).1]; exact ⟨rfl, rfl, fun _ => rfl⟩
    | shotBuild => rw [(execShotBuild_frame h).1]; exact ⟨rfl, rfl, fun _ => rfl⟩
    | shotClassify => rw [execShotClassify_frame h]; exact ⟨rfl, rfl, fun hne => absurd rfl hne⟩

/-! ### What decides it -/

/-- Two DECODEs whose checks and bursts come out alike end alike, in STATUS, RES0, RES1, DEC_RESULT and the bytes they
write (42_decoder R190). -/
theorem exec_decode_congr {s s' t t' : Block cfg} (hv : s.ttValid = s'.ttValid)
    (hr : s.decodeInRange = s'.decodeInRange) (hb : s.decodeBurst = s'.decodeBurst)
    (h : exec .decode ⟨cfg, s⟩ = .next ⟨cfg, t⟩) (h' : exec .decode ⟨cfg, s'⟩ = .next ⟨cfg, t'⟩) :
    t.code = t'.code ∧ t.lastOp = t'.lastOp ∧ t.res0 = t'.res0 ∧ t.res1 = t'.res1 ∧ t.dec = t'.dec ∧
      t.destList t.res0.toNat = t'.destList t'.res0.toNat := by
  rcases execDecode_cases s with ⟨v, e⟩ | ⟨v, r, e⟩ | ⟨_, v, r, b, e⟩ | ⟨bs, v, r, b, -⟩
  case' inl => rw [e] at h; rw [exec_decode_notInit (hv ▸ v)] at h'
  case' inr.inl => rw [e] at h; rw [exec_decode_argRange (hv ▸ v) (hr ▸ r)] at h'
  case' inr.inr.inl => rw [e] at h; rw [exec_decode_error (hv ▸ v) (hr ▸ r) (hb ▸ b)] at h'
  case inr.inr.inr =>
    rw [exec_decode_eq_decoded v r b] at h
    rw [exec_decode_eq_decoded (hv ▸ v) (hr ▸ r) (hb ▸ b)] at h'
    cases h
    cases h'
    refine ⟨rfl, rfl, rfl, rfl, rfl, ?_⟩
    rw [Block.decoded_res0_toNat b, Block.decoded_res0_toNat (hb ▸ b), Block.decoded_destList, Block.decoded_destList]
  all_goals
    cases h
    cases h'
    exact ⟨rfl, rfl, rfl, rfl, rfl, rfl⟩

/-- The operand ranges look at the operands alone (30_encoding R93). -/
theorem Block.decodeInRange_congr {s s' : Block cfg} (h0 : s.arg0 = s'.arg0) (h1 : s.arg1 = s'.arg1) :
    s.decodeInRange = s'.decodeInRange := by
  rw [Bool.eq_iff_iff, Block.decodeInRange_iff, Block.decodeInRange_iff, h0, h1]

/-- Settles O44: the checks and the burst look at nothing else (`exec_decode_congr`), and DECODE changes no more than
its frame says (`execDecode_frame`). -/
theorem decodeIsPure : Obligations.DecodeIsPure := by
  refine ⟨fun cfg s s' t t' h0 h1 hv htt hrx h h' => ?outcome, fun cfg s t h => ?frame⟩
  case outcome =>
    refine exec_decode_congr hv (Block.decodeInRange_congr h0 h1) ?_ h h'
    simp only [Block.decodeBurst, Block.opDestCap, Block.opSymbols, hrx, ← h0, ← h1, ← htt]
  case frame =>
    rw [(execDecode_frame h).1]
    exact ⟨rfl, rfl, rfl, rfl, rfl, rfl, rfl⟩

end Sys2Proof.Machine
end

section
/-! The errors of DECODE in the order of its checks (42_decoder R181 to R187, 60_exceptions R246), the bursts it accepts
(R188, R189, R191 (a)), and the ending's idle duration (R191 (e)). -/

namespace Sys2Proof.Machine

variable {cfg : Config.Params}

/-! ### The burst after its leader -/

/-- A burst of two symbols or more: the leader is checked, then the data groups, then what is left of them (42_decoder
R180). -/
theorem decodeBurst_cons {t : TimingTable cfg} {cap : Nat} {lead : Word} {ws : List Word} (hne : ws ≠ []) :
    decodeBurst t cap (lead :: ws) =
      if matchSym t lead t.leader = true then
        (decodeGroups t cap ws).bind fun r => (checkTail t r.2).map fun _ => r.1
      else .error .framingLeader := by
  cases ws with
  | nil => exact absurd rfl hne
  | cons w ws =>
    simp only [decodeBurst]
    cases matchSym t lead t.leader with
    | false => rfl
    | true =>
      cases decodeGroups t cap (w :: ws) with
      | error e => rfl
      | ok r =>
        obtain ⟨bs, left⟩ := r
        simp only [Except.bind]
        cases checkTail t left <;> rfl

/-- The symbols of this DECODE's burst after symbol 0. -/
def Block.burstTail (s : Block cfg) : List Word := (List.range (s.arg0.toNat - 1)).map fun i => s.rxsym (i + 1)

@[simp] theorem Block.burstTail_length (s : Block cfg) : s.burstTail.length = s.arg0.toNat - 1 := by
  simp [Block.burstTail]

theorem Block.burstTail_getElem? (s : Block cfg) {i : Nat} (h : i + 1 < s.arg0.toNat) :
    s.burstTail[i]? = some (s.rxsym (i + 1)) := by
  rw [Block.burstTail, Block.getElem?_rxsym_tail, if_pos (by omega)]

theorem Block.rxsymList_eq_burstTail {s : Block cfg} (h : 1 ≤ s.arg0.toNat) :
    s.rxsymList s.opSymbols = s.rxsym 0 :: s.burstTail := by
  rw [Block.burstTail, ← Block.rxsymList_succ, Nat.sub_add_cancel h, Block.opSymbols]

theorem Block.burstTail_ne_nil {s : Block cfg} (h : 2 ≤ s.arg0.toNat) : s.burstTail ≠ [] := by
  rw [← List.length_pos_iff, Block.burstTail_length]
  omega

section
variable {s : Block cfg}

/-- Fewer than two symbols are no burst (42_decoder R181). -/
theorem Block.decodeBurst_short (h : s.arg0.toNat < 2) : s.decodeBurst = .error .framingShort := by
  unfold Block.decodeBurst
  rcases Nat.eq_zero_or_pos s.arg0.toNat with h0 | h0
  · rw [Block.opSymbols, h0]; rfl
  · rw [Block.opSymbols, show s.arg0.toNat = 1 by omega]; rfl

/-- Symbol 0 is no leader (42_decoder R182). -/
theorem Block.decodeBurst_noLeader (hn : 2 ≤ s.arg0.toNat) (hlead : matchSym s.tt (s.rxsym 0) s.tt.leader = false) :
    s.decodeBurst = .error .framingLeader := by
  rw [Block.decodeBurst, Block.rxsymList_eq_burstTail (by omega), decodeBurst_cons (Block.burstTail_ne_nil hn), hlead]
  rfl

/-- After a leader the data loop decides, and then what it leaves (42_decoder R180). -/
theorem Block.decodeBurst_of_leader (hn : 2 ≤ s.arg0.toNat)
    (hlead : matchSym s.tt (s.rxsym 0) s.tt.leader = true) :
    s.decodeBurst =
      (decodeGroups s.tt s.arg1.toNat s.burstTail).bind fun r => (checkTail s.tt r.2).map fun _ => r.1 := by
  rw [Block.decodeBurst, Block.rxsymList_eq_burstTail (by omega), decodeBurst_cons (Block.burstTail_ne_nil hn), hlead]
  rfl

end

/-! ### The errors before the data loop -/

/-- Settles O35: the first checks in their order; RXSYM has room for more symbols than a burst too short has
(`paramsWf_iff`). -/
theorem decodeEarlyErrors : Obligations.DecodeEarlyErrors := by
  refine ⟨fun cfg s hv => exec_decode_notInit hv, fun cfg s hv hbig => ?argRange, fun cfg s hp hv hn hcap => ?short⟩
  case argRange =>
    refine exec_decode_argRange hv (Bool.eq_false_iff.mpr fun hr => ?_)
    obtain ⟨hsymbols, hdest⟩ := s.decodeInRange_iff.mp hr
    omega
  case short =>
    obtain ⟨-, -, -, -, -, -, -, hrxsym, -⟩ := paramsWf_iff.mp hp
    exact exec_decode_error hv (s.decodeInRange_iff.mpr ⟨by omega, hcap⟩) (Block.decodeBurst_short hn)

/-- Settles O36: after the number of symbols the leader is checked, before any other symbol
(`Block.decodeBurst_noLeader`). -/
theorem decodeLeaderMismatch : Obligations.DecodeLeaderMismatch := by
  intro cfg s hv hn hrx hcap hlead
  exact exec_decode_error hv (s.decodeInRange_iff.mpr ⟨hrx, hcap⟩) (Block.decodeBurst_noLeader hn hlead)

/-! ### The data loop -/

section
variable {t : TimingTable cfg} {room : Nat} {ws : List Word}

/-- A symbol that is neither bit, in a group the loop reads, ends the loop: a loop that runs to its end has classified
every group before the destination is full or fewer than nine symbols are left (42_decoder R183, R184). -/
theorem decodeGroups_timingViolation {j b : Nat} (hj : j < room) (hlen : 8 * j + 9 ≤ ws.length) (hb : b < 8)
    (hbad : (ws[8 * j + b]?).bind (classifyBit t) = none) : decodeGroups t room ws = .error .timingViolation := by
  cases hg : decodeGroups t room ws with
  | error e => rw [(decodeGroups_error hg).1]
  | ok r =>
    obtain ⟨hroom, hleft, -, hstop, hbits⟩ := decodeGroups_ok hg
    have hrest : r.2.length = ws.length - 8 * r.1.length := by rw [hleft, List.length_drop]
    have hread : j < r.1.length := by omega
    cases hbad.symm.trans (hbits j b hread hb)

/-- A loop over `k` good groups that has no room or no symbols for another stops there (42_decoder R183, R184). -/
theorem decodeGroups_of_good {k : Nat} (hk : k ≤ room) (hlen : 8 * k + 1 ≤ ws.length)
    (hgood : ∀ i < 8 * k, (ws[i]?).bind (classifyBit t) ≠ none) (hstop : k = room ∨ ws.length ≤ 8 * k + 8) :
    ∃ bs, decodeGroups t room ws = .ok (bs, ws.drop (8 * k)) := by
  cases hg : decodeGroups t room ws with
  | error e =>
    obtain ⟨-, j, b, hj, hjlen, hb, hbad⟩ := decodeGroups_error hg
    exact absurd hbad (hgood _ (by omega))
  | ok r =>
    obtain ⟨bs, left⟩ := r
    obtain ⟨hroom, rfl, hread, hend, -⟩ := decodeGroups_ok hg
    rw [List.length_drop] at hend
    have hcount : bs.length = k := by
      rcases hread with rfl | hread
      · rw [List.length_nil] at hend ⊢; omega
      · omega
    exact ⟨bs, by rw [hcount]⟩

end

/-- Settles O37: the loop reads the group, so it does not run to its end (`decodeGroups_timingViolation`). -/
theorem decodeTimingViolation : Obligations.DecodeTimingViolation := by
  intro cfg s j b hv hrx hcap hlead hj hn hb hbad
  refine exec_decode_error hv (s.decodeInRange_iff.mpr ⟨hrx, hcap⟩) ?_
  have hsymbol : (s.burstTail[8 * j + b]?).bind (classifyBit s.tt) = none := by
    rw [s.burstTail_getElem? (by omega), Option.bind_some, ← hbad]
    congr 2
    omega
  rw [Block.decodeBurst_of_leader (by omega) hlead,
    decodeGroups_timingViolation hj (by rw [Block.burstTail_length]; omega) hb hsymbol]
  rfl

/-! ### What is left after the loop -/

/-- A full group and an ending are left (42_decoder R185). -/
theorem checkTail_destTooSmall {t : TimingTable cfg} {left : List Word} (h : 9 ≤ left.length) :
    checkTail t left = .error .destTooSmall := by
  unfold checkTail
  rw [if_pos h]

/-- A partial group is left (42_decoder R186). -/
theorem checkTail_framingLength {t : TimingTable cfg} {left : List Word} (h2 : 2 ≤ left.length)
    (h8 : left.length ≤ 8) : checkTail t left = .error .framingLength := by
  match left with
  | [] | [_] => simp at h2
  | _ :: _ :: _ =>
    unfold checkTail
    rw [if_neg (by omega)]

/-- One symbol is left (42_decoder R187). -/
theorem checkTail_singleton (t : TimingTable cfg) (w : Word) :
    checkTail t [w] = if matchEnd t w = true then .ok () else .error .framingEnding := rfl

/-- After `k` good groups, with no room or no symbols for another, the check of what is left decides the error
(42_decoder R184 to R187). -/
theorem Block.decodeBurst_tail_error {s : Block cfg} {k : Nat} {e : StatusCode}
    (hlead : matchSym s.tt (s.rxsym 0) s.tt.leader = true) (hk : k ≤ s.arg1.toNat) (hn : 8 * k + 2 ≤ s.arg0.toNat)
    (hgood : ∀ i, i < 8 * k → classifyBit s.tt (s.rxsym (1 + i)) ≠ none)
    (hstop : k = s.arg1.toNat ∨ s.arg0.toNat ≤ 8 * k + 9)
    (htail : checkTail s.tt (s.burstTail.drop (8 * k)) = .error e) : s.decodeBurst = .error e := by
  have hsymbols : ∀ i < 8 * k, (s.burstTail[i]?).bind (classifyBit s.tt) ≠ none := by
    intro i hi
    rw [s.burstTail_getElem? (by omega), Option.bind_some, Nat.add_comm i 1]
    exact hgood i hi
  have hlen := s.burstTail_length
  obtain ⟨bs, hgroups⟩ := decodeGroups_of_good (room := s.arg1.toNat) hk (by omega) hsymbols (by omega)
  rw [Block.decodeBurst_of_leader (by omega) hlead, hgroups]
  simp only [Except.bind, htail, Except.map]

/-- Settles O38: the loop stops after the good groups, and the check of what is left gives the three errors
(`Block.decodeBurst_tail_error`). -/
theorem decodeTailErrors : Obligations.DecodeTailErrors := by
  intro cfg s k hv hrx hcap hlead hk hn hgood
  have hrange := s.decodeInRange_iff.mpr ⟨hrx, hcap⟩
  have hleft : (s.burstTail.drop (8 * k)).length = s.arg0.toNat - 1 - 8 * k := by
    rw [List.length_drop, Block.burstTail_length]
  refine ⟨fun hfull hmore => ?tooSmall, fun h2 h8 => ?length, fun hone hend => ?ending⟩
  case tooSmall =>
    exact exec_decode_error hv hrange
      (Block.decodeBurst_tail_error hlead hk hn hgood (.inl hfull) (checkTail_destTooSmall (by omega)))
  case length =>
    exact exec_decode_error hv hrange
      (Block.decodeBurst_tail_error hlead hk hn hgood (.inr h8) (checkTail_framingLength (by omega) (by omega)))
  case ending =>
    have hlast : s.burstTail.drop (8 * k) = [s.rxsym (8 * k + 1)] := by
      obtain ⟨w, hw⟩ := List.length_eq_one_iff.mp (show (s.burstTail.drop (8 * k)).length = 1 by omega)
      have h0 := s.burstTail_getElem? (show 8 * k + 1 < s.arg0.toNat by omega)
      rw [← Nat.add_zero (8 * k), ← List.getElem?_drop, hw] at h0
      rw [hw, Option.some.inj h0]
    refine exec_decode_error hv hrange (Block.decodeBurst_tail_error hlead hk hn hgood (.inr (by omega)) ?_)
    rw [hlast, checkTail_singleton, hend]
    rfl

/-! ### The bursts it accepts -/

/-- A burst in RXSYM decodes to `p` exactly when it reads as a frame of `p`: a leader, the bits of `p` and an ending
(42_decoder R180, R183). -/
theorem Block.decodeBurst_eq_ok_iff {s : Block cfg} {p : List Byte} :
    s.decodeBurst = .ok p ↔
      p.length ≤ s.arg1.toNat ∧ s.arg0.toNat = 2 + 8 * p.length ∧
        matchSym s.tt (s.rxsym 0) s.tt.leader = true ∧
        (∀ (j b : Nat) (h : j < p.length), b < 8 →
          classifyBit s.tt (s.rxsym (1 + 8 * j + b)) = some (p[j].getLsbD b)) ∧
        matchEnd s.tt (s.rxsym (1 + 8 * p.length)) = true := by
  have hbit (hn : s.arg0.toNat = 2 + 8 * p.length) {j b : Nat} (hj : j < p.length) (hb : b < 8) :
      (s.burstTail[8 * j + b]?).bind (classifyBit s.tt) = classifyBit s.tt (s.rxsym (1 + 8 * j + b)) := by
    rw [s.burstTail_getElem? (by omega), Option.bind_some, show 8 * j + b + 1 = 1 + 8 * j + b by omega]
  have hlast (hn : s.arg0.toNat = 2 + 8 * p.length) :
      s.burstTail[8 * p.length]? = some (s.rxsym (1 + 8 * p.length)) := by
    rw [s.burstTail_getElem? (by omega), Nat.add_comm 1]
  unfold Block.decodeBurst
  rw [decodeBurst_eq_ok]
  constructor
  · rintro ⟨lead, rest, hws, hlead, hcap, hlen, hbits, last, hend, hmatch⟩
    have hn : s.arg0.toNat = 2 + 8 * p.length := by
      have := congrArg List.length hws
      rw [Block.rxsymList_length, List.length_cons, hlen, Block.opSymbols] at this
      omega
    rw [Block.rxsymList_eq_burstTail (by omega)] at hws
    obtain ⟨rfl, rfl⟩ := List.cons.inj hws
    refine ⟨hcap, hn, hlead, fun j b hj hb => (hbit hn hj hb).symm.trans (hbits j b hj hb), ?_⟩
    rwa [Option.some.inj ((hlast hn).symm.trans hend)]
  · rintro ⟨hcap, hn, hlead, hbits, hend⟩
    refine ⟨_, _, Block.rxsymList_eq_burstTail (by omega), hlead, hcap, by rw [Block.burstTail_length]; omega,
      fun j b hj hb => (hbit hn hj hb).trans (hbits j b hj hb), _, hlast hn, hend⟩

/-- Settles O39: DECODE succeeds with the bytes its burst decodes to, and the burst decodes to `p` exactly when it reads
as a frame of `p` (`Block.decodeBurst_eq_ok_iff`). -/
theorem decodeAcceptsExactlyFrames : Obligations.DecodeAcceptsExactlyFrames := by
  intro cfg s p hv hrx hcap
  have hrange := s.decodeInRange_iff.mpr ⟨hrx, hcap⟩
  rw [← Block.decodeBurst_eq_ok_iff]
  constructor
  · rintro ⟨t, hexec, hcode, hcount, hdest⟩
    rcases exec_decode_failed_or_decoded hexec with ⟨e, he, rfl⟩ | ⟨bs, _, _, hb, rfl⟩
    · cases hcode.symm.trans he
    · rw [Block.decoded_res0_toNat hb] at hcount
      rw [← hcount, Block.decoded_destList] at hdest
      rw [hb, hdest]
  · intro hb
    exact ⟨_, exec_decode_eq_decoded hv hrange hb, decodeCode_isError _, Block.decoded_res0_toNat hb,
      s.decoded_destList p⟩

/-- Settles O40: the frame decodes to its payload (`decodeBurst_frame`), and a DECODE that succeeds writes no more than
its bytes and its results. -/
theorem decodeRoundTrip : Obligations.DecodeRoundTrip := by
  intro cfg s p hp htable hv hpos hn hrx hcap hdest hframe
  have hburst : s.decodeBurst = .ok p := by
    rw [Block.decodeBurst, Block.opSymbols, hframe]
    exact decodeBurst_frame hp htable hv hcap
  refine ⟨_, exec_decode_eq_decoded hv (s.decodeInRange_iff.mpr ⟨hrx, hdest⟩) hburst, s.decoded_destList p, ?frame,
    fun a ha => s.decoded_byteAt_other p ha⟩
  case frame =>
    conv_lhs => rw [Block.decoded_eq, decodeCode_eq_ok.mpr hpos, decide_eq_true hpos]

/-- Settles O41: two symbols that are a leader and an ending read as a frame of no bytes
(`Block.decodeBurst_eq_ok_iff`), whatever the capacity. -/
theorem decodeEmptyFrame : Obligations.DecodeEmptyFrame := by
  intro cfg s hp hv hn hcap hlead hend
  obtain ⟨-, -, -, -, -, -, -, hrxsym, -⟩ := paramsWf_iff.mp hp
  have hn : s.arg0.toNat = 2 := by rw [hn]; rfl
  have hburst : s.decodeBurst = .ok [] :=
    Block.decodeBurst_eq_ok_iff.mpr ⟨Nat.zero_le _, hn, hlead, fun j b hj _ => absurd hj (Nat.not_lt_zero j), hend⟩
  exact exec_decode_eq_decoded hv (s.decodeInRange_iff.mpr ⟨by omega, hcap⟩) hburst

/-! ### The idle duration of the ending -/

/-- The ending is matched by its active duration alone (40_timing R127). -/
theorem matchEnd_congr {t : TimingTable cfg} {x y : Word} (h : symAct cfg.durW x = symAct cfg.durW y) :
    matchEnd t x = matchEnd t y := by
  rw [matchEnd, matchEnd, h]

/-- The last symbol is in no group: the data loop takes its bytes and its end from the symbols before it, whatever the
last one is (42_decoder R184). -/
theorem decodeGroups_concat (t : TimingTable cfg) (room : Nat) (ws : List Word) :
    ∃ r : Except StatusCode (List Byte × List Word),
      ∀ x, decodeGroups t room (ws ++ [x]) = r.map fun q => (q.1, q.2 ++ [x]) := by
  induction room generalizing ws with
  | zero => exact ⟨.ok ([], ws), fun _ => rfl⟩
  | succ room ih =>
    have hlen (x : Word) : (ws ++ [x]).length = ws.length + 1 := by rw [List.length_append, List.length_singleton]
    by_cases h8 : 8 ≤ ws.length
    · obtain ⟨r, hr⟩ := ih (ws.drop 8)
      have hgroup (x : Word) : (ws ++ [x]).take 8 = ws.take 8 := List.take_append_of_le_length h8
      have hrest (x : Word) : (ws ++ [x]).drop 8 = ws.drop 8 ++ [x] := List.drop_append_of_le_length h8
      cases hg : groupByte t (ws.take 8) with
      | none =>
        refine ⟨.error .timingViolation, fun x => ?_⟩
        rw [decodeGroups, if_pos (by rw [hlen]; omega), hgroup, hg]
        rfl
      | some b =>
        refine ⟨r.map fun q => (b :: q.1, q.2), fun x => ?_⟩
        rw [decodeGroups, if_pos (by rw [hlen]; omega), hgroup, hg, hrest, hr]
        cases r <;> rfl
    · refine ⟨.ok ([], ws), fun x => ?_⟩
      rw [decodeGroups, if_neg (by rw [hlen]; omega)]
      rfl

/-- What is left after the loop is checked by its length and by the active duration of its last symbol (42_decoder R185
to R187). -/
theorem checkTail_concat_congr (t : TimingTable cfg) (left : List Word) {x y : Word}
    (h : symAct cfg.durW x = symAct cfg.durW y) : checkTail t (left ++ [x]) = checkTail t (left ++ [y]) := by
  match left with
  | [] => rw [List.nil_append, List.nil_append, checkTail_singleton, checkTail_singleton, matchEnd_congr h]
  | [_] | _ :: _ :: _ => simp [checkTail]

/-- Two bursts that differ in the idle duration of their last symbol alone decode alike (42_decoder R191 (e)). -/
theorem decodeBurst_concat_congr (t : TimingTable cfg) (cap : Nat) (ws : List Word) {x y : Word}
    (h : symAct cfg.durW x = symAct cfg.durW y) : decodeBurst t cap (ws ++ [x]) = decodeBurst t cap (ws ++ [y]) := by
  cases ws with
  | nil => rfl
  | cons lead ws =>
    obtain ⟨r, hr⟩ := decodeGroups_concat t cap ws
    rw [List.cons_append, List.cons_append, decodeBurst_cons (by simp), decodeBurst_cons (by simp), hr, hr]
    cases r with
    | error e => rfl
    | ok q => simp only [Except.map, Except.bind, checkTail_concat_congr t q.2 h]

/-- A burst's last symbol and those before it. -/
theorem Block.rxsymList_concat (s : Block cfg) (n : Nat) : s.rxsymList (n + 1) = s.rxsymList n ++ [s.rxsym n] := by
  simp [Block.rxsymList, List.range_succ]

/-- Settles O45: the bursts decode alike (`decodeBurst_concat_congr`), and so the DECODEs end alike
(`exec_decode_congr`). -/
theorem decodeIgnoresEndingIdle : Obligations.DecodeIgnoresEndingIdle := by
  intro cfg s s' t t' n hn h0 h1 hv htt hrx hact h h'
  have hburst : s.decodeBurst = s'.decodeBurst := by
    simp only [Block.decodeBurst, Block.opDestCap, Block.opSymbols, ← h0, ← h1, ← htt, hn, Block.rxsymList_concat,
      ← hrx]
    exact decodeBurst_concat_congr _ _ _ hact
  obtain ⟨hcode, -, hres0, -, hdec, hdest⟩ := exec_decode_congr hv (Block.decodeInRange_congr h0 h1) hburst h h'
  exact ⟨hcode, hres0, hdec, hdest⟩

end Sys2Proof.Machine
end

section
/-! The shot framing layer: the frame SHOT_BUILD writes, and the class SHOT_CLASSIFY gives (43_shot R210 to R219). -/

namespace Sys2Proof.Machine

variable {cfg : Config.Params}

/-! ### SHOT_BUILD -/

section
variable {s t : Block cfg}

/-- Byte `i` of PAYLOAD after a SHOT_BUILD is byte `i` of the frame of SEQ_TX (43_shot R211). -/
theorem execShotBuild_payload (h : exec .shotBuild ⟨cfg, s⟩ = .next ⟨cfg, t⟩) {i : Nat} (hi : i < Config.shotLen) :
    t.payload i = (shotBytes s.seqTx)[i]'hi := by
  rw [execShotBuild_eq] at h
  cases h
  exact Block.byteAt_setBytes _ payloadBase (shotBytes s.seqTx) hi

/-- Octet `n` of SEQ_TX, as a number, stands `n` bytes before the last byte of the frame (43_shot R210). -/
theorem execShotBuild_octet (h : exec .shotBuild ⟨cfg, s⟩ = .next ⟨cfg, t⟩) {n : Nat} (hn : n < 4) :
    (t.payload (6 - n)).toNat = s.seqTx.toNat / 2 ^ (8 * n) % 256 := by
  have hi : 6 - n < Config.shotLen := Nat.lt_succ_of_le (Nat.sub_le 6 n)
  have hoctet : (shotBytes s.seqTx)[6 - n]'hi = seqByte s.seqTx n := by
    obtain rfl | rfl | rfl | rfl : n = 0 ∨ n = 1 ∨ n = 2 ∨ n = 3 := by omega
    all_goals rfl
  rw [execShotBuild_payload h hi, hoctet, seqByte_toNat]

end

/-- Settles O47: the header is that of the frame (`execShotBuild_payload`), the octets after it are the base-256 digits
of SEQ_TX (`execShotBuild_octet`), and nothing else changes (`execShotBuild_frame`). -/
theorem shotBuildFormatsFrame : Obligations.ShotBuildFormatsFrame := by
  intro cfg s
  have h := execShotBuild_eq s
  have hlt := s.seqTx.isLt
  refine ⟨_, h, execShotBuild_payload h (i := 0) (by decide), execShotBuild_payload h (i := 1) (by decide),
    execShotBuild_payload h (i := 2) (by decide), ?top, execShotBuild_octet h (n := 2) (by decide),
    execShotBuild_octet h (n := 1) (by decide), ?low, ?next, execShotBuild_frame h⟩
  case top => exact (execShotBuild_octet h (n := 3) (by decide)).trans (Nat.mod_eq_of_lt (by omega))
  case low => exact (execShotBuild_octet h (n := 0) (by decide)).trans (by rw [Nat.mul_zero, Nat.pow_zero, Nat.div_one])
  case next => rw [exec_seqTx h, if_pos rfl, BitVec.toNat_add]; rfl

/-! ### SHOT_CLASSIFY -/

section
variable {s t : Block cfg}

/-- The test for a shot frame, clause by clause (43_shot R214). -/
theorem Block.isShot_iff :
    s.isShot = true ↔
      s.dec.fresh = true ∧ s.dec.count.val = 7 ∧ s.dest 0 = 0x4C ∧ s.dest 1 = 0x54 ∧ s.dest 2 = 0x00 := by
  simp only [Block.isShot, Bool.and_eq_true, beq_iff_eq, and_assoc]

/-- The number in DEST, as a number (43_shot R215). -/
theorem Block.destSeq_toNat :
    s.destSeq.toNat =
      (s.dest 3).toNat * 2 ^ 24 + (s.dest 4).toNat * 2 ^ 16 + (s.dest 5).toNat * 2 ^ 8 + (s.dest 6).toNat :=
  seqOfBytes_toNat _ _ _ _

/-- SHOT_CLASSIFY of the shot expected: a HIT, and SEQ_NEXT advances (43_shot R216). -/
theorem exec_shotClassify_hit (hshot : s.isShot = true) (hseq : s.destSeq = s.seqNext) :
    exec .shotClassify ⟨cfg, s⟩ = .next ⟨cfg, { s with
      seqNext := s.seqNext + 1, dec := { s.dec with fresh := false }, res0 := 1, res1 := s.destSeq, code := .ok,
      lastOp := 0x05 }⟩ := by
  have hclass : s.shotClass = .hit := by rw [Block.shotClass, if_pos hshot, if_pos hseq]
  rw [execShotClassify_eq, hclass]
  rfl

/-- SHOT_CLASSIFY of another shot: a MISS, and SEQ_NEXT stays (43_shot R217). -/
theorem exec_shotClassify_miss (hshot : s.isShot = true) (hseq : s.destSeq ≠ s.seqNext) :
    exec .shotClassify ⟨cfg, s⟩ = .next ⟨cfg, { s with
      dec := { s.dec with fresh := false }, res0 := 2, res1 := s.destSeq, code := .ok, lastOp := 0x05 }⟩ := by
  have hclass : s.shotClass = .miss := by rw [Block.shotClass, if_pos hshot, if_neg hseq]
  rw [execShotClassify_eq, hclass]
  rfl

/-- SHOT_CLASSIFY of anything else: NOT_SHOT, and SEQ_NEXT stays (43_shot R213). -/
theorem exec_shotClassify_notShot (hshot : ¬ s.isShot = true) :
    exec .shotClassify ⟨cfg, s⟩ = .next ⟨cfg, { s with
      dec := { s.dec with fresh := false }, res0 := 0, res1 := 0, code := .ok, lastOp := 0x05 }⟩ := by
  have hclass : s.shotClass = .notShot := by rw [Block.shotClass, if_neg hshot]
  rw [execShotClassify_eq, hclass]
  rfl

/-- A SHOT_CLASSIFY consumes the frame (43_shot R218). -/
theorem exec_shotClassify_fresh (h : exec .shotClassify ⟨cfg, s⟩ = .next ⟨cfg, t⟩) : t.dec.fresh = false := by
  rw [execShotClassify_eq] at h
  cases h
  rfl

/-- A SHOT_CLASSIFY with no fresh frame is NOT_SHOT, and DEC_RESULT stays as it is (43_shot R214, R218). -/
theorem exec_shotClassify_of_not_fresh (hfresh : s.dec.fresh = false) :
    exec .shotClassify ⟨cfg, s⟩ = .next ⟨cfg, { s with res0 := 0, res1 := 0, code := .ok, lastOp := 0x05 }⟩ := by
  have hshot : ¬ s.isShot = true := fun h => by cases hfresh.symm.trans (Block.isShot_iff.mp h).1
  have hdec : { s.dec with fresh := false } = s.dec := by rw [← hfresh]
  rw [exec_shotClassify_notShot hshot, hdec]

/-- No command but DECODE makes a frame fresh: SHOT_CLASSIFY clears DEC_FRESH, and the others leave DEC_RESULT
(42_decoder R192, 43_shot R218). -/
theorem exec_keeps_not_fresh {i : Instr} (hi : i ≠ .decode) (hfresh : s.dec.fresh = false)
    (h : exec i ⟨cfg, s⟩ = .next ⟨cfg, t⟩) : t.dec.fresh = false := by
  by_cases hclassify : i = .shotClassify
  · subst hclassify
    exact exec_shotClassify_fresh h
  · obtain ⟨-, -, hdec⟩ := decodeWritesDecResult.2 cfg i s t hi h
    rw [hdec hclassify, hfresh]

end

/-- Settles O48: the three classes by the test for a shot (`Block.isShot_iff`) and the number in DEST
(`Block.destSeq_toNat`). -/
theorem shotClassifyOutcome : Obligations.ShotClassifyOutcome := by
  rintro cfg s seq hseq
  have hnum : seq = s.destSeq.toNat := hseq.trans Block.destSeq_toNat.symm
  rw [← Block.isShot_iff, hnum, BitVec.ofNat_toNat, BitVec.setWidth_eq]
  refine ⟨fun hshot heq => ?hit, fun hshot hne => ?miss, exec_shotClassify_notShot⟩
  case hit => exact exec_shotClassify_hit hshot (BitVec.eq_of_toNat_eq heq)
  case miss => exact exec_shotClassify_miss hshot fun heq => hne (congrArg BitVec.toNat heq)

/-- Settles O49: a SHOT_CLASSIFY leaves no fresh frame (`exec_shotClassify_fresh`), so the next one finds none
(`exec_shotClassify_of_not_fresh`), and only a DECODE brings one (`exec_keeps_not_fresh`). -/
theorem shotClassifiedAtMostOnce : Obligations.ShotClassifiedAtMostOnce := by
  intro cfg s t h
  have hfresh := exec_shotClassify_fresh h
  exact ⟨hfresh, exec_shotClassify_of_not_fresh hfresh, fun i u v hu hi hexec => exec_keeps_not_fresh hi hu hexec⟩

end Sys2Proof.Machine
end

section
/-! How commands end: the errors of CHAN_INIT, the write-back of STATUS, and what a command that fails leaves alone
(60_exceptions R242, R244, R247). -/

namespace Sys2Proof.Machine

variable {cfg : Config.Params}

/-! ### CHAN_INIT -/

/-- CHAN_INIT once a table is built, whatever its operands (60_exceptions R247). -/
theorem exec_chanInit_alreadyInit {s : Block cfg} (hv : s.ttValid = true) :
    exec .chanInit ⟨cfg, s⟩ = .next ⟨cfg, s.raise 0x01 .alreadyInit⟩ := by
  rcases execChanInit_cases s with ⟨_, h⟩ | ⟨h, _⟩ | ⟨h, _⟩
  case inl => exact h
  all_goals cases hv.symm.trans h

/-- Settles O20: ALREADY_INIT by `exec_chanInit_alreadyInit`, and CONFIG_INVALID by `exec_chanInit_configInvalid`, since
the model's test of the operands is V1 to V4 (`tableValid_iff`). -/
theorem chanInitErrors : Obligations.ChanInitErrors := by
  refine ⟨fun cfg s hv => exec_chanInit_alreadyInit hv, fun cfg s hv hops => ?configInvalid⟩
  case configInvalid => exact exec_chanInit_configInvalid hv (Bool.eq_false_iff.mpr fun h => hops (tableValid_iff.mp h))

/-! ### The command word in STATUS and DEC_RESULT -/

/-- A command's operation code is bits 7:0 of its word (30_encoding R90, R91). -/
theorem opcode_eq_of_decode {w : Word} {i : Instr} (h : decodeCommand w = .ok i) :
    i.opcode = BitVec.ofNat 8 w.toNat := by
  rw [decodeCommand_eq_ok.mp h]
  cases i <;> rfl

/-- The word 3 is DECODE's and no other command's (30_encoding R91). -/
theorem word_eq_three_iff_of_decode {w : Word} {i : Instr} (h : decodeCommand w = .ok i) :
    w = 0x00000003 ↔ i = .decode := by
  rw [decodeCommand_eq_ok.mp h]
  cases i <;> decide

/-! ### A command does not read STATUS -/

section
variable (s : Block cfg) (c : StatusCode) (l : Byte)

/-- What an ENCODE leaves does not depend on STATUS (41_encoder R150). -/
theorem Block.encoded_withStatus : { s with code := c, lastOp := l }.encoded = s.encoded := by
  rw [Block.encoded, Block.encoded, Block.commitEncode_eq, Block.commitEncode_eq,
    Block.setWords_mem_congr (s := { s with code := c, lastOp := l }) (t := s) rfl]
  rfl

/-- What a DECODE that reads its burst leaves does not depend on STATUS (42_decoder R190). -/
theorem Block.decoded_withStatus (bs : List Byte) : { s with code := c, lastOp := l }.decoded bs = s.decoded bs := by
  rw [Block.decoded, Block.decoded, Block.commitDecode_eq, Block.commitDecode_eq,
    Block.setBytes_mem_congr (s := { s with code := c, lastOp := l }) (t := s) rfl]
  rfl

/-- A command's outcome does not depend on STATUS: whichever way it ends, it ends so after any earlier command, and its
write-back covers both fields (60_exceptions R242). -/
theorem exec_withStatus (i : Instr) : exec i ⟨cfg, { s with code := c, lastOp := l }⟩ = exec i ⟨cfg, s⟩ := by
  cases i with
  | chanInit =>
    rcases execChanInit_cases s with ⟨hv, h⟩ | ⟨hv, hval, h⟩ | ⟨hv, hval, h⟩
    · rw [h]; exact exec_chanInit_alreadyInit hv
    · rw [h]; exact exec_chanInit_ok hv hval
    · rw [h]; exact exec_chanInit_configInvalid hv hval
  | encode =>
    rcases execEncode_cases s with ⟨hv, h⟩ | ⟨hv, hr, h⟩ | ⟨hv, hr, hc, h⟩ | ⟨hv, hr, hc, -⟩
    · rw [h]; exact exec_encode_notInit hv
    · rw [h]; exact exec_encode_argRange hv hr
    · rw [h]; exact exec_encode_starved hv (s.encodeInRange_iff.mp hr).1 (BitVec.eq_of_toNat_eq hc)
    · obtain ⟨hL, hC⟩ := s.encodeInRange_iff.mp hr
      rw [exec_encode_eq_encoded hv hL hc hC, ← s.encoded_withStatus c l]
      exact exec_encode_eq_encoded hv hL hc hC
  | decode =>
    rcases execDecode_cases s with ⟨hv, h⟩ | ⟨hv, hr, h⟩ | ⟨e, hv, hr, hb, h⟩ | ⟨bs, hv, hr, hb, -⟩
    · rw [h]; exact exec_decode_notInit hv
    · rw [h]; exact exec_decode_argRange hv hr
    · rw [h]; exact exec_decode_error hv hr hb
    · rw [exec_decode_eq_decoded hv hr hb, ← s.decoded_withStatus c l bs]
      exact exec_decode_eq_decoded hv hr hb
  | shotBuild => rfl
  | shotClassify => rfl

end

/-- Settles O6: a word that decodes runs its command, which answers a next state (`exec_next`), writes its operation
code to LAST_OP (`exec_common`) and does not read STATUS (`exec_withStatus`); any other word is reported. -/
theorem everyCommandWritesStatus : Obligations.EveryCommandWritesStatus := by
  intro cfg s w
  cases hw : decodeCommand w with
  | error e =>
    refine ⟨_, serve_cmd_of_error s hw, opField_eq w, fun c l => ?_⟩
    exact serve_cmd_of_error { s with code := c, lastOp := l } hw
  | ok i =>
    obtain ⟨t, ht⟩ := exec_next i s
    obtain ⟨hop, -⟩ := exec_common ht
    refine ⟨t, (serve_cmd_of_decode s hw).trans ht, hop.trans (opcode_eq_of_decode hw), fun c l => ?_⟩
    exact (serve_cmd_of_decode _ hw).trans ((exec_withStatus s c l i).trans ht)

/-! ### A command that fails -/

/-- A command that ends in an error makes the error write-back and no other change: DEC_RESULT is DECODE's to write
(60_exceptions R244). -/
theorem exec_error_frame {i : Instr} {s t : Block cfg} (h : exec i ⟨cfg, s⟩ = .next ⟨cfg, t⟩)
    (he : t.code.isError = true) :
    t = { s with
      res0 := 0, res1 := 0, code := t.code, lastOp := i.opcode,
      dec := if i = .decode then ⟨0, t.code, false⟩ else s.dec } := by
  cases i with
  | chanInit =>
    rcases execChanInit_cases s with ⟨_, h'⟩ | ⟨_, _, h'⟩ | ⟨_, _, h'⟩ <;> (rw [h'] at h; cases h)
    · rfl
    · cases he
    · rfl
  | encode =>
    rcases execEncode_cases s with ⟨_, h'⟩ | ⟨_, _, h'⟩ | ⟨_, _, _, h'⟩ | ⟨_, _, _, h'⟩ <;> (rw [h'] at h; cases h)
    · rfl
    · rfl
    · cases he
    · cases he
  | decode =>
    rcases exec_decode_failed_or_decoded h with ⟨e, _, rfl⟩ | ⟨bs, _, _, _, rfl⟩
    · rfl
    · cases he.symm.trans (decodeCode_isError bs.length)
  | shotBuild => rw [execShotBuild_eq] at h; cases h; cases he
  | shotClassify => rw [execShotClassify_eq] at h; cases h; cases he

/-- Settles O7: a word that decodes runs its command (`exec_error_frame`), DECODE for the word 3 alone
(`word_eq_three_iff_of_decode`); any other word is reported, and it is not 3. -/
theorem errorWritesBackOnly : Obligations.ErrorWritesBackOnly := by
  intro cfg s t w h he
  cases hw : decodeCommand w with
  | error e =>
    have hne : w ≠ 0x00000003 := by
      rintro rfl
      cases hw.symm.trans (decodeCommand_encodeCommand .decode)
    rw [serve_cmd_of_error s hw] at h
    cases h
    rw [if_neg hne, ← opField_eq]
    rfl
  | ok i =>
    rw [serve_cmd_of_decode s hw] at h
    simp only [word_eq_three_iff_of_decode hw, ← opcode_eq_of_decode hw]
    exact exec_error_frame h he

end Sys2Proof.Machine
end

section
/-! What power-on does to the buffers (70_reset R282). -/

namespace Sys2Proof.Machine

variable {cfg : Config.Params}

/-- While no byte has been written, a buffer byte is the free value of the current draw (20_memory R70). -/
theorem Block.byteAt_of_mem_nil {s : Block cfg} (hm : s.mem = []) (a : Nat) :
    s.byteAt a = Config.porByte s.porDraw a := by
  rw [Block.byteAt, hm, Memory.read?_nil]

/-- Power-on forgets every byte written and moves on to the next draw (70_reset R282). -/
@[simp] theorem Block.powerOnReset_byteAt (s : Block cfg) (a : Nat) :
    s.powerOnReset.byteAt a = Config.porByte (s.porDraw + 1) a := by
  rw [Block.byteAt_of_mem_nil s.powerOnReset_mem, Block.powerOnReset_porDraw]

/-- Settles O18: the step serves the power-on (`step_serve`), and taking it off the queue moves no draw, so the bytes
are those of the next one (`Block.powerOnReset_byteAt`). -/
theorem powerOnDrawsBuffers : Obligations.PowerOnDrawsBuffers := by
  intro cfg s rest hq
  have hstep : step ⟨cfg, s⟩ = .next ⟨cfg, { s with queue := rest }.powerOnReset⟩ := step_serve hq
  exact ⟨_, hstep, fun a => Block.powerOnReset_byteAt _ a⟩

end Sys2Proof.Machine
end

section
/-! The order in which a step serves the host (20_memory R81, log 1). -/

namespace Sys2Proof.Machine

/-- Settles O5: the two cases of the queue are the two step rules, `step_idle` for the empty one and `step_serve` for
one with an oldest access. -/
theorem stepServesOldestAccess : Obligations.StepServesOldestAccess :=
  ⟨fun _ _ hidle => step_idle hidle, fun _ _ _ _ hq => step_serve hq⟩

end Sys2Proof.Machine
end
